-- ==== Sys2Proof/Word.lean ====
section
/-! DEFINITION. The words of TP3-RPB: the 32-bit bus and command word, the byte, the 4-bit operand field. -/

namespace Sys2Proof

/-- A bus word and a command word: 32 bits (10_state.md R60, 30_encoding.md R180). -/
abbrev Word := BitVec 32

/-- A byte of a byte string or buffer (00_scope.md R12). -/
abbrev Byte := BitVec 8

/-- One operand field of the command word: 4 bits (30_encoding.md R181). -/
abbrev Field := BitVec 4

/-- A field at its place in a word, bit 0 of the field at bit `k`. -/
def place {n : Nat} (x : BitVec n) (k : Nat) : Word := x.setWidth 32 <<< k

end Sys2Proof
end

