-- ==== Sys2Proof/Machine/Arith.lean ====
section
/-! DEFINITION. The arithmetic of 00_scope.md R10 to R13 on natural numbers and byte strings, modular powers, and the
Montgomery radix. Every function is structurally recursive, so that it can be evaluated. -/

namespace Sys2Proof.Machine

/-- `bitlen(x)`: the number of significant bits, 0 for 0 (R11). -/
def bitlen (x : Nat) : Nat := if x = 0 then 0 else Nat.log2 x + 1

/-- `ceil(a/b)` for b > 0 (R11). -/
def ceilQuot (a b : Nat) : Nat := (a + b - 1) / b

/-- `zeros(k)` (R12). -/
def zeros (k : Nat) : List Byte := List.replicate k 0#8

/-- `a xor b`, byte-wise, for strings of equal length (R12). -/
def xorBytes (a b : List Byte) : List Byte := List.zipWith (· ^^^ ·) a b

/-- The string of `I2OSP(x, len)`, big-endian (R13); the caller checks x < 256^len. -/
def i2osp (x len : Nat) : List Byte :=
  (List.range len).map fun i => BitVec.ofNat 8 (x / 256 ^ (len - 1 - i) % 256)

/-- `OS2IP(s)`, big-endian; 0 for the empty string (R13). -/
def os2ip (s : List Byte) : Nat := s.foldl (fun acc b => acc * 256 + b.toNat) 0

/-- `x^e mod m` for an exponent of at most `k` bits, by square-and-multiply. -/
def modPowBits : Nat → Nat → Nat → Nat → Nat
  | 0, _, _, m => 1 % m
  | k + 1, x, e, m =>
    let square := modPowBits k (x * x % m) (e / 2) m
    if e % 2 = 1 then x * square % m else square

/-- `x^e mod m` (42_modexp.md R290, R291: the method is not architectural). -/
def modPow (x e m : Nat) : Nat := modPowBits (bitlen e) x e m

/-- `s(n) = ceil(bitlen(n)/32)`: the limbs that n occupies (41_montgomery.md R270). -/
def montLimbs (n : Nat) : Nat := ceilQuot (bitlen n) 32

/-- `R(n) = 2^(32·s(n))`, the Montgomery radix (R270). -/
def montRadix (n : Nat) : Nat := 2 ^ (32 * montLimbs n)

/-- `R(n)⁻¹ mod n` for odd n: R(n) is a power of 2, and the inverse of 2 modulo odd n is (n+1)/2
(log entry 18, DEDUCED from R11 and R270). -/
def montRadixInv (n : Nat) : Nat := modPow ((n + 1) / 2) (32 * montLimbs n) n

/-- The Montgomery product `a·b·R(n)⁻¹ mod n` (R271). -/
def montProduct (a b n : Nat) : Nat := a * b * montRadixInv n % n

/-- Limb j of an integer: `(x / 2^(32·j)) mod 2^32` (20_memory.md R136). -/
def limb (x j : Nat) : Word := BitVec.ofNat 32 (x / 2 ^ (32 * j))

/-- An integer with limb j replaced, every other limb unchanged (R136). -/
def setLimb (x j : Nat) (w : Word) : Nat :=
  x - (limb x j).toNat * 2 ^ (32 * j) + w.toNat * 2 ^ (32 * j)

/-- The 32-bit word whose least significant lane is the first of four bytes (R137). -/
def wordOfLanes (b0 b1 b2 b3 : Byte) : Word :=
  place b0 0 ||| place b1 8 ||| place b2 16 ||| place b3 24

/-- The four bytes of a word, least significant lane first (R137). -/
def lanesOfWord (w : Word) : List Byte :=
  [w.extractLsb' 0 8, w.extractLsb' 8 8, w.extractLsb' 16 8, w.extractLsb' 24 8]

end Sys2Proof.Machine
end

