-- ==== Sys2Proof/Config.lean ====
section
/-! DEFINITION. What a build of TP3-RPB fixes (its parameters), the error codes' names, and the free values:
constants with no body, of which nothing can be proved but their type. -/

namespace Sys2Proof

/-- The hash function wired to the HASH port, a parameter of the build (00_scope.md R6, R8).
`port` is ANY function: it is `Config.hashPort`, which has no body.
`th32` is the test hash of 95_test_vectors.md §1 (HLEN = 4), with which the spec's vectors run. -/
inductive HashFunction where
  | port
  | th32
deriving DecidableEq, Repr

/-- The parameters of a build (00_scope.md R6). No register and no step changes them (R7). -/
structure Params where
  /-- `MAXBITS`: the width of every integer register, in bits. -/
  maxbits : Nat
  /-- `HLEN`: the digest length of the HASH port, in bytes. -/
  hlen : Nat
  /-- `HASH`. -/
  hash : HashFunction
  /-- `MR_RETRY`: the most witness draws of one Miller–Rabin round. -/
  mrRetry : Nat
  /-- `BASE_ADDR`: the bus address of offset 0x0000. -/
  baseAddr : Nat
deriving DecidableEq, Repr

/-- `L` = MAXBITS/32, the limbs of an integer register (R6). -/
def Params.limbs (p : Params) : Nat := p.maxbits / 32

/-- `BUFBYTES` = MAXBITS/8, the capacity of a byte buffer (R6). -/
def Params.bufBytes (p : Params) : Nat := p.maxbits / 8

/-- The legal values of the parameters (R6). The test hash has four-byte digests.
DESIGN CHOICE (log entry 23): R137 says that BUFBYTES is a multiple of 8, and R6 allows every MAXBITS that is a multiple
of 32; the model follows R6, so MAXBITS = 96 with BUFBYTES = 12 is legal here. -/
abbrev Params.legal (p : Params) : Prop :=
  p.maxbits % 32 = 0 ∧ 64 ≤ p.maxbits ∧ p.maxbits ≤ 8192 ∧
  1 ≤ p.hlen ∧ p.hlen ≤ 64 ∧ p.hlen + 2 ≤ p.bufBytes ∧
  1 ≤ p.mrRetry ∧ p.mrRetry ≤ 256 ∧
  p.baseAddr % 0x10000 = 0 ∧
  (p.hash = .th32 → p.hlen = 4)

/-- The defaults of R6. DESIGN CHOICE (log entry 1): BASE_ADDR has no default and is 0 here. -/
def Params.default : Params :=
  { maxbits := 4096, hlen := 32, hash := .port, mrRetry := 64, baseAddr := 0 }

/-- The names of STATUS.ERRCODE's values (60_exceptions.md R441). The codes 0x0B..0xFF are never produced,
so they have no name. -/
inductive ErrCode where
  | ok | opcode | reserved | index | param | len | modZero | modEven | range | encoding | rng
deriving DecidableEq, Repr

/-- FREE VALUE. The function of the HASH port: deterministic, stateless, total, with a digest of exactly HLEN
bytes (R8), and otherwise unknown. -/
opaque Config.hashPort (hlen : Nat) : List Byte → Vector Byte hlen

/-- FREE VALUE. What the internal scratch holds while a command runs (10_state.md R86). -/
opaque Config.freeScratch (draw : Nat) : Nat

/-- FREE VALUE. The unspecified contents of integer register `i` (R90, 70_reset_and_hazards.md R483). -/
opaque Config.freeInteger (draw i : Nat) : Nat

/-- FREE VALUE. The unspecified contents of the buffer byte at block offset `off` (R90, R483). -/
opaque Config.freeByte (draw off : Nat) : Byte

/-- FREE VALUE. The unspecified length register of an aborted command's buffer (R483). -/
opaque Config.freeLength (draw : Nat) : BitVec 16

/-- FREE VALUE. Whether an aborted ZEROIZE left the word at block offset `off` as it was (R484). -/
opaque Config.freeKeep (draw off : Nat) : Bool

/-- FREE VALUE. How many RNG bytes an aborted command had taken, of those it may have taken (R87). -/
opaque Config.freeTaken (draw : Nat) : Nat

/-- FREE VALUE. Whether this build's PSSVER ends at a failure that shows before its HASH calls, instead of making them
(46_pss.md R384, 70_reset_and_hazards.md R497; log entry 24). -/
opaque Config.pssverEndsEarly : Bool

end Sys2Proof
end

