-- ==== Sys2Proof/Machine/State.lean ====
section
/-! DEFINITION. The state of TP3-RPB as plain data, the reasons a step can stop, and the state after reset. -/

namespace Sys2Proof.Machine

/-- The contents of the byte buffers (10_state.md R55), as bytes at their block offsets: byte k of buffer j is at
0x4000 + 0x400·j + k (20_memory.md R137). Addresses rise strictly and no listed byte is 0: an unlisted address
reads as 0 (log entry 6). -/
abbrev Memory := List Host.Cell

/-- The registers a command reads and writes, and exactly those the busy lock covers (20_memory.md R135). -/
structure RegFile where
  /-- `V0`..`V7` (R52). -/
  v : Vector Nat 8
  /-- `B0`..`B3` (R55). -/
  mem : Memory
  /-- `BLEN0`..`BLEN3` (R80). -/
  blen : Vector (BitVec 16) 4
  /-- `PSS_MODBITS` (R75). -/
  pssModbits : BitVec 14
  /-- `PSS_SLEN` (R76). -/
  pssSlen : BitVec 16
  /-- `MR_ROUNDS` (R77). -/
  mrRounds : BitVec 8
  /-- `MGF_LEN` (R78). -/
  mgfLen : BitVec 16
  /-- `OSP_LEN` (R79). -/
  ospLen : BitVec 16
deriving DecidableEq, Repr

/-- The in-flight snapshot (R85, 40_command_execution.md R231): the accepted word, and every register a command can
read, as of acceptance. -/
structure Snapshot where
  word : Word
  regs : RegFile
deriving DecidableEq, Repr

/-- A host access: an absolute bus address, a size in bytes, the byte strobes, and the data of a write (none for a
read). -/
structure Access where
  addr : Nat
  size : Nat
  strobes : BitVec 4
  data : Option Word
deriving DecidableEq, Repr

/-- The response to a host access (20_memory.md R132): SLVERR or OKAY, and the data a read returns (0 for a
write). -/
structure BusResp where
  slverr : Bool
  data : Word
deriving DecidableEq, Repr

/-- A move of one agent (10_state.md R50): a host access, an engine move, a byte delivered by the RNG port, the HASH port
beginning or ceasing to answer calls, or a hardware reset. -/
inductive Event where
  | bus (a : Access)
  | engine
  | rng (b : Byte)
  | hash (serves : Bool)
  | hardReset
deriving DecidableEq, Repr

/-- The machine. STATUS.BUSY is `inflight.isSome` (R67, R230); STATUS.ERR and `irq` are views (R69, R88). -/
structure State where
  /-- The parameters of the build (00_scope.md R6): no step changes them. -/
  params : Params
  /-- V, B, BLEN and the parameter registers. -/
  regs : RegFile
  /-- `CTRL.IE` (R64). -/
  ie : Bool
  /-- `CMD`, the last accepted word (R73). -/
  cmd : Word
  /-- `STATUS.DONE` (R68). -/
  done : Bool
  /-- `STATUS.RESULT` (R70). -/
  result : Bool
  /-- `STATUS.ERRCODE` (R71). -/
  errcode : ErrCode
  /-- `STATUS.LASTOP` (R72). -/
  lastop : BitVec 8
  /-- `IRQ_STATUS.DONE_P` (R74). -/
  doneP : Bool
  /-- `IRQ_STATUS.OVR_P` (R74). -/
  ovrP : Bool
  /-- The engine: IDLE (none) or BUSY with its snapshot (R85, R230). -/
  inflight : Option Snapshot
  /-- The internal scratch as one number, 0 when cleared (R86; log entry 11). -/
  scratch : Nat
  /-- The response of the last host access, none before the first (R132; log entry 13). -/
  resp : Option BusResp
  /-- The bytes the RNG port has delivered and no command has taken, first first (R9; log entry 3). -/
  rng : List Byte
  /-- The HASH port answers calls (70_reset_and_hazards.md R486, R493; log entry 2). -/
  hashServes : Bool
  /-- The agents' coming moves, in order (log entry 4). -/
  agenda : List Event
  /-- The number of the next free value (log entry 7). -/
  draws : Nat
deriving DecidableEq, Repr

/-- Why a step stops with a fault. -/
inductive Fault where
  /-- A bus access outside the 64 KiB at BASE_ADDR, which is no access of this block (20_memory.md R130). Raised by
  `busAccess`. Safe: nothing is claimed past it. -/
  | outsideBlock (addr : Nat)
  /-- The fail branch of the MGF1 function, `maskLen > hLen · 2^32` (45_mgf1.md R360). Raised by `execMgf1`,
  `execPssenc` and `execPssver`, and never reached with legal parameters (R362). Safe. -/
  | mgfMaskTooLong
deriving DecidableEq, Repr

/-- Why an instruction has no meaning. -/
inductive Refusal where
  /-- Raised by an arm of `exec` that has no meaning yet: by none. Safe. -/
  | notModelled (mnemonic : String)
deriving DecidableEq, Repr

/-- The hardware-reset values of the parameter and length registers (10_state.md R90), with given contents of the
integer registers and buffers, for which R90 gives no value. -/
def RegFile.resetWith (p : Params) (v : Vector Nat 8) (mem : Memory) : RegFile :=
  { v := v, mem := mem, blen := Vector.replicate 4 0#16, pssModbits := 0#14, pssSlen := BitVec.ofNat 16 p.hlen,
    mrRounds := 20#8, mgfLen := 0#16, ospLen := 0#16 }

/-- A build right after power-on reset (R90, 70_reset_and_hazards.md R481). DESIGN CHOICE, unsafe (log entries 5
and 6): the unspecified V and B contents are 0. -/
def State.resetOf (p : Params) : State :=
  { params := p
    regs := RegFile.resetWith p (Vector.replicate 8 0) []
    ie := false, cmd := 0#32
    done := false, result := false, errcode := .ok, lastop := 0#8
    doneP := false, ovrP := false
    inflight := none, scratch := 0
    resp := none, rng := [], hashServes := true, agenda := [], draws := 0 }

/-- The default build right after power-on reset. -/
def State.reset : State := State.resetOf Params.default

end Sys2Proof.Machine
end

