-- ==== Sys2Proof/Syntax.lean ====
section
/-! DEFINITION. The commands of TP3-RPB: one constructor per row of spec/opcode_table.json. -/

namespace Sys2Proof

/-- The eleven commands (30_encoding.md R186), each with its used operand fields in the order D, A, B, C (R190).
A field is the 4-bit index as encoded; `Instr.wf` says which values are legal (R182). -/
inductive Instr where
  /-- `NOP` -/
  | nop
  /-- `ZEROIZE` -/
  | zeroize
  /-- `MONTMUL vD, vA, vB, vC` -/
  | montmul (d a b c : Field)
  /-- `MONTR2 vD, vC` -/
  | montr2 (d c : Field)
  /-- `MODEXP vD, vA, vB, vC` -/
  | modexp (d a b c : Field)
  /-- `I2OSP bD, vA` -/
  | i2osp (d a : Field)
  /-- `OS2IP vD, bA` -/
  | os2ip (d a : Field)
  /-- `MRTEST vA` -/
  | mrtest (a : Field)
  /-- `MGF1 bD, bA` -/
  | mgf1 (d a : Field)
  /-- `PSSENC bD, bA` -/
  | pssenc (d a : Field)
  /-- `PSSVER bA, bB` -/
  | pssver (a b : Field)
deriving DecidableEq, Repr

end Sys2Proof
end

