-- ==== Sys2Proof/WellFormed.lean ====
section
/-! DEFINITION. Which operand indices are legal (30_encoding.md R182, R186). -/

namespace Sys2Proof

/-- A field of kind V: an integer register, legal index 0..7 (R182). -/
def Field.isV (f : Field) : Bool := decide (f.toNat < 8)

/-- A field of kind B: a byte buffer, legal index 0..3 (R182). -/
def Field.isB (f : Field) : Bool := decide (f.toNat < 4)

/-- Every operand field is in the range of its kind, by the table of R186. -/
def Instr.wf : Instr → Bool
  | .nop => true
  | .zeroize => true
  | .montmul d a b c => Field.isV d && Field.isV a && Field.isV b && Field.isV c
  | .montr2 d c => Field.isV d && Field.isV c
  | .modexp d a b c => Field.isV d && Field.isV a && Field.isV b && Field.isV c
  | .i2osp d a => Field.isB d && Field.isV a
  | .os2ip d a => Field.isV d && Field.isB a
  | .mrtest a => Field.isV a
  | .mgf1 d a => Field.isB d && Field.isB a
  | .pssenc d a => Field.isB d && Field.isB a
  | .pssver a b => Field.isB a && Field.isB b

end Sys2Proof
end

