-- ==== Sys2Proof/Machine/Ops.lean ====
section
/-! DEFINITION. The named operations over memory, registers and the engine: reading and writing buffers and integer
registers, accepting a command, committing its outputs and completing it, with or without an error. -/

namespace Sys2Proof.Machine

/-! ### Memory -/

/-- The canonical form: addresses strictly rising, no byte 0 listed. -/
abbrev Memory.wf (m : Memory) : Prop :=
  m.Pairwise (fun c d => c.1 < d.1) ∧ ∀ c ∈ m, c.2 ≠ 0#8

/-- The byte at an address; 0 where none is listed. -/
def Memory.read : Memory → Nat → Byte
  | [], _ => 0#8
  | (k, b) :: m, a => if a = k then b else Memory.read m a

/-- Store a byte, keeping the canonical form. -/
def Memory.write : Memory → Nat → Byte → Memory
  | [], a, b => if b = 0#8 then [] else [(a, b)]
  | (k, c) :: m, a, b =>
    if a < k then (if b = 0#8 then (k, c) :: m else (a, b) :: (k, c) :: m)
    else if a = k then (if b = 0#8 then m else (a, b) :: m)
    else (k, c) :: Memory.write m a b

/-- Store a byte string at rising addresses. -/
def Memory.writeBytes : Memory → Nat → List Byte → Memory
  | m, _, [] => m
  | m, a, b :: bs => Memory.writeBytes (Memory.write m a b) (a + 1) bs

/-- Make the `n` bytes from address `a` 0. -/
def Memory.clear (m : Memory) (a n : Nat) : Memory :=
  m.filter fun c => !(decide (a ≤ c.1) && decide (c.1 < a + n))

/-! ### Registers and buffers -/

/-- The block offset of byte 0 of buffer `j` (10_state.md R60). -/
def bufOffset (j : Nat) : Nat := 0x4000 + 0x400 * j

/-- The value of integer register `i` (R52). -/
def RegFile.getV (r : RegFile) (i : Field) : Nat := r.v[i.toNat]?.getD 0

/-- `V[i] <- x`. -/
def RegFile.setV (r : RegFile) (i : Field) (x : Nat) : RegFile :=
  { r with v := r.v.setIfInBounds i.toNat x }

/-- `BLEN[j]` (R56). -/
def RegFile.getLen (r : RegFile) (j : Field) : Nat := (r.blen[j.toNat]?.getD 0#16).toNat

/-- `BLEN[j] <- n`. -/
def RegFile.setLen (r : RegFile) (j : Field) (n : BitVec 16) : RegFile :=
  { r with blen := r.blen.setIfInBounds j.toNat n }

/-- `B[j][k]` (R55). -/
def RegFile.getByte (r : RegFile) (j : Field) (k : Nat) : Byte :=
  Memory.read r.mem (bufOffset j.toNat + k)

/-- `B[j][0..n)` (R55, R56). -/
def RegFile.getBytes (r : RegFile) (j : Field) (n : Nat) : List Byte :=
  (List.range n).map (r.getByte j)

/-- `B[j][0..len) <- s; BLEN[j] <- len` with len = len(s); the buffer's other bytes unchanged (R56). -/
def RegFile.setBuf (r : RegFile) (j : Field) (s : List Byte) : RegFile :=
  { (r.setLen j (BitVec.ofNat 16 s.length)) with mem := Memory.writeBytes r.mem (bufOffset j.toNat) s }

/-- Every buffer byte, of the four buffers, to 0. -/
def Memory.clearBuffers (m : Memory) (bufBytes : Nat) : Memory :=
  (((m.clear (bufOffset 0) bufBytes).clear (bufOffset 1) bufBytes).clear (bufOffset 2) bufBytes).clear
    (bufOffset 3) bufBytes

/-- Every integer register, buffer byte and length register to 0; the parameter registers kept
(47_control.md R421). -/
def RegFile.zeroize (p : Params) (r : RegFile) : RegFile :=
  { r with v := Vector.replicate 8 0, mem := r.mem.clearBuffers p.bufBytes, blen := Vector.replicate 4 0#16 }

/-! ### Commands: acceptance, commit, completion -/

/-- The outputs of a command that ends without error. -/
inductive Effect where
  /-- NOP: none. -/
  | nothing
  /-- An integer register. -/
  | setV (d : Field) (x : Nat)
  /-- A buffer and its length register. -/
  | setB (d : Field) (s : List Byte)
  /-- STATUS.RESULT, of MRTEST and PSSVER. -/
  | answer (r : Bool)
  /-- ZEROIZE. -/
  | zeroize
deriving DecidableEq, Repr

/-- The value STATUS.RESULT takes: the boolean outcome of MRTEST and PSSVER, 0 after every other command
(10_state.md R70). -/
def Effect.result : Effect → Bool
  | .answer r => r
  | _ => false

/-- The registers after the outputs are written, all at once (40_command_execution.md R240). -/
def RegFile.commit (p : Params) (r : RegFile) : Effect → RegFile
  | .nothing => r
  | .setV d x => r.setV d x
  | .setB d s => r.setBuf d s
  | .answer _ => r
  | .zeroize => r.zeroize p

/-- Acceptance of a command word by an idle engine (R231). -/
def State.accept (s : State) (w : Word) : State :=
  { s with
    cmd := w
    done := false, result := false, errcode := .ok, lastop := w.extractLsb' 0 8
    inflight := some ⟨w, s.regs⟩
    scratch := Config.freeScratch s.draws
    draws := s.draws + 1 }

/-- Completion (R238): the one step that ends every command, with its error code and boolean outcome. -/
def State.complete (s : State) (code : ErrCode) (result : Bool) : State :=
  { s with
    scratch := 0
    errcode := code, result := result, done := true
    inflight := none
    doneP := true }

/-- The registers that the running command reads: the snapshot's (R235). On an idle engine, where no step runs a
command, they are the registers themselves (log entry 12). -/
def State.inputs (s : State) : RegFile :=
  match s.inflight with
  | some snap => snap.regs
  | none => s.regs

/-- `raise Error(code)` (R239): complete with the code, no output committed. -/
def State.raise (s : State) (code : ErrCode) : Host.Outcome State Fault Refusal :=
  .next (s.complete code false)

/-- The state of a command that ended without error: outputs committed, then completed (R238, R240). -/
def State.committed (s : State) (e : Effect) : State :=
  { s with regs := s.regs.commit s.params e }.complete .ok e.result

/-- End without error. -/
def State.succeed (s : State) (e : Effect) : Host.Outcome State Fault Refusal :=
  .next (s.committed e)

/-- The state once a command has taken bytes from the RNG port: `rest` is what the port has still delivered. -/
def State.withRng (s : State) (rest : List Byte) : State := { s with rng := rest }

/-- The state with other moves still to make. -/
def State.withAgenda (s : State) (events : List Event) : State := { s with agenda := events }

/-- The HASH port begins or ceases to answer calls. -/
def State.withHash (s : State) (serves : Bool) : State := { s with hashServes := serves }

/-- A command that still needs a digest waits while the HASH port does not answer (70_reset_and_hazards.md R493). -/
def State.awaitsHash (s : State) (needed : Bool) : Bool := !s.hashServes && needed

/-- The engine waits for a port and stays BUSY (R493). -/
def State.waitForPort (s : State) : Host.Outcome State Fault Refusal := .next s

end Sys2Proof.Machine
end

