-- ==== Sys2Proof/Machine/Flags.lean ====
section
/-! DEFINITION. The status and control words a host reads, the error codes' values, and the interrupt line. -/

namespace Sys2Proof.Machine

/-- The values of STATUS.ERRCODE (60_exceptions.md R441). -/
def errByte : ErrCode → BitVec 8
  | .ok => 0x00#8
  | .opcode => 0x01#8
  | .reserved => 0x02#8
  | .index => 0x03#8
  | .param => 0x04#8
  | .len => 0x05#8
  | .modZero => 0x06#8
  | .modEven => 0x07#8
  | .range => 0x08#8
  | .encoding => 0x09#8
  | .rng => 0x0A#8

/-- `STATUS.BUSY` (10_state.md R67). -/
def State.busy (s : State) : Bool := s.inflight.isSome

/-- `STATUS.ERR = (ERRCODE ≠ 0)` (R69). -/
def State.err (s : State) : Bool := errByte s.errcode != 0#8

/-- One bit as a bit vector. -/
def bit (b : Bool) : BitVec 1 := BitVec.ofBool b

/-- The word STATUS reads as (R66). -/
def State.statusWord (s : State) : Word :=
  place (bit s.busy) 0 ||| place (bit s.done) 1 ||| place (bit s.err) 2 ||| place (bit s.result) 3 |||
    place (errByte s.errcode) 8 ||| place s.lastop 16

/-- The word CTRL reads as: SRST and the reserved bits read 0 (R64). -/
def State.ctrlWord (s : State) : Word := place (bit s.ie) 0

/-- The word IRQ_STATUS reads as (R74). -/
def State.irqStatusWord (s : State) : Word := place (bit s.doneP) 0 ||| place (bit s.ovrP) 1

/-- The interrupt output: `irq = CTRL.IE ∧ (DONE_P ∨ OVR_P)` (R88, 60_exceptions.md R447). -/
def State.irq (s : State) : Bool := s.ie && (s.doneP || s.ovrP)

/-- The constant of register ID: NAME, MAJOR, MINOR (R62). -/
def idWord : Word := place 0x5250#16 16 ||| place 0x01#8 8 ||| place 0x00#8 0

/-- The constant of register CFG: NBUF, NVREG, HLEN, LIMBS (R63). -/
def cfgWord (p : Params) : Word :=
  place (BitVec.ofNat 16 p.limbs) 0 ||| place (BitVec.ofNat 8 p.hlen) 16 ||| place 8#4 24 ||| place 4#4 28

end Sys2Proof.Machine
end

