-- ==== Sys2Proof/Decode.lean ====
section
/-! DEFINITION. Decoding a command word (30_encoding.md R180 to R189), total, rejecting by the error code's name;
and the encoder, from the same tables (R181, R186). -/

namespace Sys2Proof

/-- `OPC`, bits [7:0] (R181). -/
def fieldOPC (w : Word) : BitVec 8 := w.extractLsb' 0 8

/-- `D`, bits [11:8] (R181). -/
def fieldD (w : Word) : Field := w.extractLsb' 8 4

/-- `A`, bits [15:12] (R181). -/
def fieldA (w : Word) : Field := w.extractLsb' 12 4

/-- `B`, bits [19:16] (R181). -/
def fieldB (w : Word) : Field := w.extractLsb' 16 4

/-- `C`, bits [23:20] (R181). -/
def fieldC (w : Word) : Field := w.extractLsb' 20 4

/-- `RSV`, bits [31:24] (R181). -/
def fieldRSV (w : Word) : BitVec 8 := w.extractLsb' 24 8

/-- Step 1 of R189: the row of R186 that OPC selects, as the command with its used fields and the list of its
unused fields; none for an illegal opcode (R187). -/
def lookup (w : Word) : Option (Instr × List Field) :=
  match fieldOPC w with
  | 0x00#8 => some (.nop, [fieldD w, fieldA w, fieldB w, fieldC w])
  | 0x01#8 => some (.zeroize, [fieldD w, fieldA w, fieldB w, fieldC w])
  | 0x10#8 => some (.montmul (fieldD w) (fieldA w) (fieldB w) (fieldC w), [])
  | 0x11#8 => some (.montr2 (fieldD w) (fieldC w), [fieldA w, fieldB w])
  | 0x18#8 => some (.modexp (fieldD w) (fieldA w) (fieldB w) (fieldC w), [])
  | 0x20#8 => some (.i2osp (fieldD w) (fieldA w), [fieldB w, fieldC w])
  | 0x21#8 => some (.os2ip (fieldD w) (fieldA w), [fieldB w, fieldC w])
  | 0x30#8 => some (.mrtest (fieldA w), [fieldD w, fieldB w, fieldC w])
  | 0x40#8 => some (.mgf1 (fieldD w) (fieldA w), [fieldB w, fieldC w])
  | 0x50#8 => some (.pssenc (fieldD w) (fieldA w), [fieldB w, fieldC w])
  | 0x51#8 => some (.pssver (fieldA w) (fieldB w), [fieldD w, fieldC w])
  | _ => none

/-- RSV and every unused field are 0 (R183, R184). -/
def reservedClear (w : Word) (unused : List Field) : Bool :=
  fieldRSV w == 0#8 && unused.all (· == 0#4)

/-- The decoding procedure of R189: E_OPCODE, then E_RESERVED, then E_INDEX, then the command. -/
def decode (w : Word) : Except ErrCode Instr :=
  match lookup w with
  | none => .error .opcode
  | some (i, unused) =>
    if !reservedClear w unused then .error .reserved
    else if !i.wf then .error .index
    else .ok i

/-- A word of format CW with RSV = 0: `OPC | D<<8 | A<<12 | B<<16 | C<<20` (R181). -/
def commandWord (opc : BitVec 8) (d a b c : Field) : Word :=
  place opc 0 ||| place d 8 ||| place a 12 ||| place b 16 ||| place c 20

/-- The word of a command (R181, R186). -/
def encode : Instr → Word
  | .nop => commandWord 0x00#8 0#4 0#4 0#4 0#4
  | .zeroize => commandWord 0x01#8 0#4 0#4 0#4 0#4
  | .montmul d a b c => commandWord 0x10#8 d a b c
  | .montr2 d c => commandWord 0x11#8 d 0#4 0#4 c
  | .modexp d a b c => commandWord 0x18#8 d a b c
  | .i2osp d a => commandWord 0x20#8 d a 0#4 0#4
  | .os2ip d a => commandWord 0x21#8 d a 0#4 0#4
  | .mrtest a => commandWord 0x30#8 0#4 a 0#4 0#4
  | .mgf1 d a => commandWord 0x40#8 d a 0#4 0#4
  | .pssenc d a => commandWord 0x50#8 d a 0#4 0#4
  | .pssver a b => commandWord 0x51#8 0#4 a b 0#4

/-- The match and mask of each row of spec/opcode_table.json (R193). -/
def tableRows : List (Word × Word) :=
  [(0x00000000#32, 0xFFFFFFFF#32), (0x00000001#32, 0xFFFFFFFF#32), (0x00000010#32, 0xFF0000FF#32),
   (0x00000011#32, 0xFF0FF0FF#32), (0x00000018#32, 0xFF0000FF#32), (0x00000020#32, 0xFFFF00FF#32),
   (0x00000021#32, 0xFFFF00FF#32), (0x00000030#32, 0xFFFF0FFF#32), (0x00000040#32, 0xFFFF00FF#32),
   (0x00000050#32, 0xFFFF00FF#32), (0x00000051#32, 0xFFF00FFF#32)]

/-- The number of a command's row in the table. -/
def Instr.row : Instr → Nat
  | .nop => 0
  | .zeroize => 1
  | .montmul _ _ _ _ => 2
  | .montr2 _ _ => 3
  | .modexp _ _ _ _ => 4
  | .i2osp _ _ => 5
  | .os2ip _ _ => 6
  | .mrtest _ => 7
  | .mgf1 _ _ => 8
  | .pssenc _ _ => 9
  | .pssver _ _ => 10

/-- The command word whose low `nbits` bits are those of `w` and whose other bits are 0. -/
def tableWord (nbits w : Nat) : Word := BitVec.ofNat 32 (w % 2 ^ nbits)

/-- The command that the decoder reads from a word of the opcode table (one 32-bit word, R180). -/
def decodeTableWord (nbits w : Nat) : Option Instr :=
  match decode (tableWord nbits w) with
  | .ok i => some i
  | .error _ => none

end Sys2Proof
end

