-- ==== Sys2Proof/Machine/Operands.lean ====
section
/-! DEFINITION. The operands a command takes from the snapshot: integer registers, buffer values, the scalar
arguments of the parameter registers (30_encoding.md R185), and the HASH port. -/

namespace Sys2Proof.Machine

/-- `V[i]`, as of acceptance (40_command_execution.md R235). -/
def State.opV (s : State) (i : Field) : Nat := s.inputs.getV i

/-- `BLEN[j]`, as of acceptance (R234). -/
def State.opLen (s : State) (j : Field) : Nat := s.inputs.getLen j

/-- `B[j][0..n)`, as of acceptance (R235). -/
def State.opBytes (s : State) (j : Field) (n : Nat) : List Byte := s.inputs.getBytes j n

/-- `buf(j) = B[j][0..BLEN[j])`, as of acceptance (10_state.md R56). -/
def State.opBuf (s : State) (j : Field) : List Byte := s.opBytes j (s.opLen j)

/-- `modBits` = PSS_MODBITS[13:0] (30_encoding.md R185). -/
def State.modBits (s : State) : Nat := s.inputs.pssModbits.toNat

/-- `sLen` = PSS_SLEN[15:0] (R185). -/
def State.saltLen (s : State) : Nat := s.inputs.pssSlen.toNat

/-- `t` = MR_ROUNDS[7:0] (R185). -/
def State.rounds (s : State) : Nat := s.inputs.mrRounds.toNat

/-- `maskLen` = MGF_LEN[15:0] (R185). -/
def State.maskLen (s : State) : Nat := s.inputs.mgfLen.toNat

/-- `len` = OSP_LEN[15:0] (R185). -/
def State.outLen (s : State) : Nat := s.inputs.ospLen.toNat

/-- The test hash TH32 (95_test_vectors.md §1). -/
def th32 (m : List Byte) : List Byte :=
  i2osp (m.foldl (fun (h : Word) b => (h ^^^ b.setWidth 32) * 0x01000193#32) 0x811C9DC5#32).toNat 4

/-- `HASH(m)` (00_scope.md R8): the function of the HASH port. -/
def Params.hashOf (p : Params) (m : List Byte) : List Byte :=
  match p.hash with
  | .port => (Config.hashPort p.hlen m).toList
  | .th32 => th32 m

end Sys2Proof.Machine
end

