-- ==== Sys2Proof/Machine/Primality.lean ====
section
/-! DEFINITION. The Miller–Rabin primality tester: MRTEST (44_primality.md). -/

namespace Sys2Proof.Machine

/-- Take out at most `k` factors 2 of `d`: (s, d') with d = 2^s · d'. -/
def splitTwos : Nat → Nat → Nat × Nat
  | 0, d => (0, d)
  | k + 1, d => if d % 2 = 0 then ((splitTwos k (d / 2)).1 + 1, (splitTwos k (d / 2)).2) else (0, d)

/-- `decompose(n)`: (s, d) with d odd and n − 1 = 2^s · d (R332). -/
def decompose (n : Nat) : Nat × Nat := splitTwos (bitlen n) (n - 1)

/-- Square x up to `k` times, passing as soon as it is n − 1 (R334). -/
def squaresPass : Nat → Nat → Nat → Bool
  | 0, _, _ => false
  | k + 1, n, x => if x ^ 2 % n = n - 1 then true else squaresPass k n (x ^ 2 % n)

/-- `mr_round(n, s, d, a)` (R334). -/
def mrRound (n s d a : Nat) : Bool :=
  let x := modPow a d n
  if x = 1 ∨ x = n - 1 then true else squaresPass (s - 1) n x

/-- What drawing a witness comes to: a witness, every attempt rejected, or bytes still awaited from the RNG port;
with the port's bytes that are left. -/
inductive Draw where
  | witness (a : Nat) (rest : List Byte)
  | exhausted (rest : List Byte)
  | awaiting
deriving DecidableEq, Repr

/-- `draw_witness(n)` with the attempts left, on the bytes the RNG port has delivered (R333). -/
def drawWitness : Nat → Nat → List Byte → Draw
  | 0, _, bytes => .exhausted bytes
  | attempts + 1, n, bytes =>
    let nb := ceilQuot (bitlen n) 8
    let w := os2ip (bytes.take nb) % 2 ^ bitlen n
    if bytes.length < nb then .awaiting
    else if 2 ≤ w ∧ w ≤ n - 2 then .witness w (bytes.drop nb)
    else drawWitness attempts n (bytes.drop nb)

/-- What the rounds of MRTEST come to. -/
inductive Verdict where
  | answer (prime : Bool) (rest : List Byte)
  | noWitness (rest : List Byte)
  | awaiting
deriving DecidableEq, Repr

/-- The rounds of MRTEST (R330, R335): at most `rounds` left, stopping at the first that fails. -/
def mrRounds (retry n s d : Nat) : Nat → List Byte → Verdict
  | 0, bytes => .answer true bytes
  | rounds + 1, bytes =>
    match drawWitness retry n bytes with
    | .awaiting => .awaiting
    | .exhausted rest => .noWitness rest
    | .witness a rest =>
      if mrRound n s d a then mrRounds retry n s d rounds rest else .answer false rest

/-- The most bytes that MRTEST can have taken of those delivered: what it takes up to its verdict; all of them, if it
still awaits more. -/
def Verdict.taken (delivered : List Byte) : Verdict → Nat
  | .answer _ rest => delivered.length - rest.length
  | .noWitness rest => delivered.length - rest.length
  | .awaiting => delivered.length

/-- Screening, then the rounds (R330, R331). -/
def mrTest (retry n rounds : Nat) (bytes : List Byte) : Verdict :=
  if n < 2 then .answer false bytes
  else if n = 2 ∨ n = 3 then .answer true bytes
  else if n % 2 = 0 then .answer false bytes
  else mrRounds retry n (decompose n).1 (decompose n).2 rounds bytes

/-- What the running MRTEST of V[A] comes to on the bytes delivered. -/
def State.mrVerdict (s : State) (a : Field) : Verdict :=
  mrTest s.params.mrRetry (s.opV a) s.rounds s.rng

/-- `MRTEST vA`: STATUS.RESULT ← "V[A] is probably prime" (R330). -/
def execMrtest (a : Field) (s : State) : Host.Outcome State Fault Refusal :=
  if (Instr.mrtest a).wf = false then s.raise .index
  else if s.rounds = 0 then s.raise .param
  else
    match s.mrVerdict a with
    | .answer prime rest => (s.withRng rest).succeed (.answer prime)
    | .noWitness rest => (s.withRng rest).raise .rng
    | .awaiting => s.waitForPort

end Sys2Proof.Machine
end

