-- ==== Sys2Proof/Machine/Mgf1.lean ====
section
/-! DEFINITION. The mask generator: the MGF1 function and the MGF1 command (45_mgf1.md). -/

namespace Sys2Proof.Machine

/-- The blocks `HASH(seed || I2OSP(C, 4))` for C = 0 .. ceil(maskLen/hLen) − 1, joined (R360). -/
def mgf1Blocks (hash : List Byte → List Byte) (hLen : Nat) (seed : List Byte) (maskLen : Nat) : List Byte :=
  (List.range (ceilQuot maskLen hLen)).flatMap fun c => hash (seed ++ i2osp c 4)

/-- `MGF1(seed, maskLen)`; none where it fails (R360). -/
def mgf1 (hash : List Byte → List Byte) (hLen : Nat) (seed : List Byte) (maskLen : Nat) : Option (List Byte) :=
  if 2 ^ 32 * hLen < maskLen then none
  else some ((mgf1Blocks hash hLen seed maskLen).take maskLen)

/-- `MGF1 bD, bA`: buffer D ← MGF1(buf(A), MGF_LEN) (R361). A mask of no bytes takes no HASH call. The
function's fail branch is a fault, never reached (R362). -/
def execMgf1 (d a : Field) (s : State) : Host.Outcome State Fault Refusal :=
  if (Instr.mgf1 d a).wf = false then s.raise .index
  else if s.params.bufBytes < s.opLen a then s.raise .len
  else if s.params.bufBytes < s.maskLen then s.raise .len
  else if s.awaitsHash (s.maskLen != 0) = true then s.waitForPort
  else
    match mgf1 (Params.hashOf s.params) s.params.hlen (s.opBuf a) s.maskLen with
    | none => .fault .mgfMaskTooLong
    | some mask => s.succeed (.setB d mask)

end Sys2Proof.Machine
end

