-- ==== Sys2Proof/Machine/Pss.lean ====
section
/-! DEFINITION. The PSS encoder and decoder: PSSENC and PSSVER (46_pss.md), with conflict C3 resolved as
90_conflicts.md says. -/

namespace Sys2Proof.Machine

/-- `emLen = ceil((modBits − 1)/8)` (R380). -/
def emLen (modBits : Nat) : Nat := ceilQuot (modBits - 1) 8

/-- `dbLen = emLen − hLen − 1` (R380). -/
def dbLen (modBits hLen : Nat) : Nat := emLen modBits - hLen - 1

/-- `psLen = emLen − sLen − hLen − 2` (R380). -/
def psLen (modBits hLen sLen : Nat) : Nat := emLen modBits - sLen - hLen - 2

/-- `nclr = 8·emLen − (modBits − 1)` (R380). -/
def clearedBits (modBits : Nat) : Nat := 8 * emLen modBits - (modBits - 1)

/-- `topmask = 0xFF >> nclr` (R380). -/
def topMask (modBits : Nat) : Byte := 0xFF#8 >>> clearedBits modBits

/-- A string with its byte 0 masked by topmask. -/
def maskTop (modBits : Nat) : List Byte → List Byte
  | [] => []
  | b :: bs => (b &&& topMask modBits) :: bs

/-- `maskedDB[0] AND (NOT topmask) = 0`: the bits cleared during encoding are zero (R383). -/
def topBitsClear (modBits : Nat) : List Byte → Bool
  | [] => true
  | b :: _ => b &&& ~~~(topMask modBits) == 0#8

/-- `M' = zeros(8) || mHash || salt`, hashed (R381, R383). -/
def saltedHash (hash : List Byte → List Byte) (mHash salt : List Byte) : List Byte :=
  hash (zeros 8 ++ mHash ++ salt)

/-- The encoding of R381 from `salt` on; none where MGF1 fails. -/
def pssEncode (hash : List Byte → List Byte) (hLen modBits : Nat) (mHash salt : List Byte) : Option (List Byte) :=
  let h := saltedHash hash mHash salt
  let db := zeros (psLen modBits hLen salt.length) ++ [0x01#8] ++ salt
  match mgf1 hash hLen h (dbLen modBits hLen) with
  | none => none
  | some dbMask => some (maskTop modBits (xorBytes db dbMask) ++ h ++ [0xBC#8])

/-- The checks of R383 that need no HASH call: the trailer, and the bits cleared during encoding. -/
def pssFirstChecks (hLen modBits : Nat) (em : List Byte) : Bool :=
  em[emLen modBits - 1]? == some 0xBC#8 && topBitsClear modBits (em.take (dbLen modBits hLen))

/-- The checks of R383 once the lengths agree; none where MGF1 fails. `em` has emLen bytes, `mHash` hLen. -/
def pssCheck (hash : List Byte → List Byte) (hLen modBits sLen : Nat) (mHash em : List Byte) : Option Bool :=
  let maskedDB := em.take (dbLen modBits hLen)
  let h' := (em.drop (dbLen modBits hLen)).take hLen
  match mgf1 hash hLen h' (dbLen modBits hLen) with
  | none => none
  | some dbMask =>
    let db := maskTop modBits (xorBytes maskedDB dbMask)
    let ps := psLen modBits hLen sLen
    some (pssFirstChecks hLen modBits em
      && db.take ps == zeros ps
      && db[ps]? == some 0x01#8
      && saltedHash hash mHash (db.drop (ps + 1)) == h')

/-- The error that PSSENC's value checks find, in check order (R381). -/
def State.pssencError (s : State) (a : Field) : Option ErrCode :=
  if s.modBits = 0 ∨ s.params.maxbits < s.modBits then some .param
  else if s.opLen a ≠ s.params.hlen then some .len
  else if emLen s.modBits < s.params.hlen + s.saltLen + 2 then some .encoding
  else none

/-- The most bytes that the running PSSENC can have taken of those delivered (R382): at most sLen, and none if a check
fails (40_command_execution.md R236). -/
def State.saltTaken (s : State) (a : Field) : Nat :=
  if (s.pssencError a).isSome then 0 else min s.saltLen s.rng.length

/-- `PSSENC bD, bA`: buffer D ← the EMSA-PSS encoding of the digest buf(A) (R381). The salt is the next sLen bytes
of the RNG port (R382). It waits for either port (70_reset_and_hazards.md R493). -/
def execPssenc (d a : Field) (s : State) : Host.Outcome State Fault Refusal :=
  if (Instr.pssenc d a).wf = false then s.raise .index
  else
    match s.pssencError a with
    | some code => s.raise code
    | none =>
      if s.rng.length < s.saltLen ∨ s.awaitsHash true = true then s.waitForPort
      else
        match pssEncode (Params.hashOf s.params) s.params.hlen s.modBits (s.opBytes a s.params.hlen)
            (s.rng.take s.saltLen) with
        | none => .fault .mgfMaskTooLong
        | some em => (s.withRng (s.rng.drop s.saltLen)).succeed (.setB d em)

/-- `PSSVER bA, bB`: STATUS.RESULT ← "EM = buf(B) is a valid encoding of mHash = buf(A)" (R383). While
the HASH port is silent it waits, but that a build may answer 0 where `pssFirstChecks` fail (log entry 24). -/
def execPssver (a b : Field) (s : State) : Host.Outcome State Fault Refusal :=
  if (Instr.pssver a b).wf = false then s.raise .index
  else if s.modBits = 0 ∨ s.params.maxbits < s.modBits then s.raise .param
  else if s.opLen a ≠ s.params.hlen ∨ s.opLen b ≠ emLen s.modBits
      ∨ emLen s.modBits < s.params.hlen + s.saltLen + 2 then s.succeed (.answer false)
  else if s.awaitsHash (!(Config.pssverEndsEarly
      && !pssFirstChecks s.params.hlen s.modBits (s.opBytes b (emLen s.modBits)))) = true then s.waitForPort
  else
    match pssCheck (Params.hashOf s.params) s.params.hlen s.modBits s.saltLen (s.opBytes a s.params.hlen)
        (s.opBytes b (emLen s.modBits)) with
    | none => .fault .mgfMaskTooLong
    | some valid => s.succeed (.answer valid)

end Sys2Proof.Machine
end

