-- ==== Sys2Proof/Machine/Reset.lean ====
section
/-! DEFINITION. Hardware reset, soft reset, and what aborting the running command leaves unspecified
(70_reset_and_hazards.md §1). -/

namespace Sys2Proof.Machine

/-- An unspecified value of an integer register: a free value below 2^MAXBITS (R483, R90). -/
def freeV (p : Params) (draw i : Nat) : Nat := Config.freeInteger draw i % 2 ^ p.maxbits

/-- Unspecified contents of buffer `j`: a free value for each of its bytes (R483, R90). -/
def freeBuf (p : Params) (draw j : Nat) : List Byte :=
  (List.range p.bufBytes).map fun k => Config.freeByte draw (bufOffset j + k)

/-- Integer register `d`, the destination of an aborted command, is unspecified (R483). -/
def State.scrambleV (s : State) (d : Field) : State :=
  { s with regs := s.regs.setV d (freeV s.params s.draws d.toNat), draws := s.draws + 1 }

/-- Buffer `d` and its length register, the destination of an aborted command, are unspecified (R483). -/
def State.scrambleB (s : State) (d : Field) : State :=
  { s with
    regs := (s.regs.setBuf d (freeBuf s.params s.draws d.toNat)).setLen d (Config.freeLength s.draws)
    draws := s.draws + 1 }

/-- An aborted command that draws RNG bytes had taken an unknown number of them, up to the `most` that it can have taken
(R87, 40_command_execution.md R236, R241; log entry 10). -/
def State.dropTaken (s : State) (most : Nat) : State :=
  { s with rng := s.rng.drop (min (Config.freeTaken s.draws) most), draws := s.draws + 1 }

/-- An integer after an aborted ZEROIZE: limb j is kept or 0, independently (R484); the sum of R136 over the `k`
lowest limbs. -/
def keepLimbs (keep : Nat → Bool) (x : Nat) : Nat → Nat
  | 0 => 0
  | k + 1 => keepLimbs keep x k + (if keep k then (limb x k).toNat * 2 ^ (32 * k) else 0)

/-- Buffer memory after an aborted ZEROIZE: each word at a multiple of 4 is kept or 0 (R484). -/
def keepWords (keep : Nat → Bool) (m : Memory) : Memory := m.filter fun c => keep (c.1 - c.1 % 4)

/-- The registers after an aborted ZEROIZE (R484), from those at acceptance: each V word, B word and BLEN holds its
value at acceptance or 0, the choice independent per word. -/
def RegFile.partZeroize (p : Params) (r accepted : RegFile) (keep : Nat → Bool) : RegFile :=
  { r with
    v := Vector.ofFn fun i : Fin 8 =>
      keepLimbs (fun j => keep (0x1000 + 0x400 * i.val + 4 * j)) accepted.v[i] p.limbs
    mem := keepWords keep accepted.mem
    blen := Vector.ofFn fun j : Fin 4 => if keep (0x40 + 4 * j.val) then accepted.blen[j] else 0#16 }

/-- A soft reset aborts ZEROIZE (R484). -/
def State.scrambleZeroize (s : State) : State :=
  { s with regs := s.regs.partZeroize s.params s.inputs (Config.freeKeep s.draws), draws := s.draws + 1 }

/-- The running command is aborted (R483, R484). A word that decodes to no command has no destination. -/
def State.abort (s : State) : State :=
  match s.inflight with
  | none => s
  | some snap =>
    match decode snap.word with
    | .error _ => s
    | .ok .nop => s
    | .ok .zeroize => s.scrambleZeroize
    | .ok (.montmul d _ _ _) => s.scrambleV d
    | .ok (.montr2 d _) => s.scrambleV d
    | .ok (.modexp d _ _ _) => s.scrambleV d
    | .ok (.i2osp d _) => s.scrambleB d
    | .ok (.os2ip d _) => s.scrambleV d
    | .ok (.mrtest a) => s.dropTaken ((s.mrVerdict a).taken s.rng)
    | .ok (.mgf1 d _) => s.scrambleB d
    | .ok (.pssenc d a) => (s.dropTaken (s.saltTaken a)).scrambleB d
    | .ok (.pssver _ _) => s

/-- The control and status state that both resets clear (10_state.md R90, R482): engine IDLE, CTRL, STATUS, CMD,
IRQ_STATUS and the scratch at 0. -/
def State.clearControl (s : State) : State :=
  { s with
    ie := false, cmd := 0#32
    done := false, result := false, errcode := .ok, lastop := 0#8
    doneP := false, ovrP := false
    inflight := none, scratch := 0 }

/-- Soft reset (R482): abort the running command, clear the control and status state, keep the rest. -/
def State.softReset (s : State) : State := s.abort.clearControl

/-- Unspecified contents of all four buffers (R90). -/
def freeMemory (p : Params) (draw : Nat) : Memory :=
  (List.range 4).foldl (fun m j => Memory.writeBytes m (bufOffset j) (freeBuf p draw j)) []

/-- The registers at their hardware-reset values, the V and B contents unspecified (R90, R481). -/
def State.scrambleAll (s : State) : State :=
  { s with
    regs := RegFile.resetWith s.params (Vector.ofFn fun i : Fin 8 => freeV s.params s.draws i.val)
      (freeMemory s.params s.draws)
    draws := s.draws + 1 }

/-- Hardware reset (R481): the reset column of R90; V and B contents unspecified; a command in flight is lost.
The bus response, the ports and the agenda lie outside the block and are kept, but that a lost command may have taken
RNG bytes. -/
def State.hardReset (s : State) : State := s.abort.clearControl.scrambleAll

end Sys2Proof.Machine
end

