-- ==== Sys2Proof/Machine/Bus.lean ====
section
/-! DEFINITION. Host accesses: the register map (10_state.md R60), legality and responses, the busy lock, the windows,
and the writes with effects (20_memory.md). -/

namespace Sys2Proof.Machine

/-- What a word offset of the block names (10_state.md R60). A window tail or a reserved offset is `reserved`
or a window word past its end. -/
inductive Loc where
  | id | cfg | ctrl | status | cmd | irqStatus
  | pssModbits | pssSlen | mrRounds | mgfLen | ospLen
  | blen (j : Field)
  /-- Word `k` of V window `i`. -/
  | vWord (i : Field) (k : Nat)
  /-- Word `k` of B window `j`. -/
  | bWord (j : Field) (k : Nat)
  | reserved
deriving DecidableEq, Repr

/-- The register map (R60), on offsets that are multiples of 4. -/
def locOf (off : Nat) : Loc :=
  if off = 0x000 then .id
  else if off = 0x004 then .cfg
  else if off = 0x008 then .ctrl
  else if off = 0x00C then .status
  else if off = 0x010 then .cmd
  else if off = 0x014 then .irqStatus
  else if off = 0x020 then .pssModbits
  else if off = 0x024 then .pssSlen
  else if off = 0x028 then .mrRounds
  else if off = 0x02C then .mgfLen
  else if off = 0x030 then .ospLen
  else if 0x040 ≤ off ∧ off < 0x050 then .blen (BitVec.ofNat 4 (off / 4 - 16))
  else if 0x1000 ≤ off ∧ off < 0x3000 then
    .vWord (BitVec.ofNat 4 (off / 0x400 - 4)) (off % 0x400 / 4)
  else if 0x4000 ≤ off ∧ off < 0x5000 then
    .bWord (BitVec.ofNat 4 (off / 0x400 - 16)) (off % 0x400 / 4)
  else .reserved

/-- The busy-locked locations (20_memory.md R135), window tails included. -/
def Loc.locked : Loc → Bool
  | .id | .cfg | .ctrl | .status | .cmd | .irqStatus | .reserved => false
  | .pssModbits | .pssSlen | .mrRounds | .mgfLen | .ospLen => true
  | .blen _ => true
  | .vWord _ _ => true
  | .bWord _ _ => true

/-- The word a host reads (10_state.md R61 to R80, 20_memory.md R133, R134, R136, R137). -/
def State.readLoc (s : State) : Loc → Word
  | .id => idWord
  | .cfg => cfgWord s.params
  | .ctrl => s.ctrlWord
  | .status => s.statusWord
  | .cmd => s.cmd
  | .irqStatus => s.irqStatusWord
  | .pssModbits => s.regs.pssModbits.setWidth 32
  | .pssSlen => s.regs.pssSlen.setWidth 32
  | .mrRounds => s.regs.mrRounds.setWidth 32
  | .mgfLen => s.regs.mgfLen.setWidth 32
  | .ospLen => s.regs.ospLen.setWidth 32
  | .blen j => (s.regs.blen[j.toNat]?.getD 0#16).setWidth 32
  | .vWord i k => if k < s.params.limbs then limb (s.regs.getV i) k else 0#32
  | .bWord j k =>
    if 4 * k < s.params.bufBytes then
      wordOfLanes (s.regs.getByte j (4 * k)) (s.regs.getByte j (4 * k + 1)) (s.regs.getByte j (4 * k + 2))
        (s.regs.getByte j (4 * k + 3))
    else 0#32
  | .reserved => 0#32

/-- A write of CTRL: SRST = 1 resets, whatever IE carries; else IE is stored (R64). -/
def State.writeCtrl (s : State) (w : Word) : State :=
  if w.getLsbD 1 then s.softReset else { s with ie := w.getLsbD 0 }

/-- A write of CMD: an acceptance on an idle engine (40_command_execution.md R231), else an overrun (R232). -/
def State.writeCmd (s : State) (w : Word) : State :=
  if s.busy then { s with ovrP := true } else s.accept w

/-- A write of IRQ_STATUS clears each bit written as 1 (R74). -/
def State.writeIrqStatus (s : State) (w : Word) : State :=
  { s with doneP := s.doneP && !w.getLsbD 0, ovrP := s.ovrP && !w.getLsbD 1 }

/-- A write of word `k` of V window `i`: that limb is replaced; a tail ignores it (R134, R136). -/
def RegFile.writeVWord (p : Params) (r : RegFile) (i : Field) (k : Nat) (w : Word) : RegFile :=
  if k < p.limbs then r.setV i (setLimb (r.getV i) k w) else r

/-- A write of word `k` of B window `j`: its four bytes are stored, BLEN is not; a tail ignores it (R134, R137). -/
def RegFile.writeBWord (p : Params) (r : RegFile) (j : Field) (k : Nat) (w : Word) : RegFile :=
  if 4 * k < p.bufBytes then
    { r with mem := Memory.writeBytes r.mem (bufOffset j.toNat + 4 * k) (lanesOfWord w) }
  else r

/-- The effect of a host write (10_state.md R61 to R80, 20_memory.md R142). -/
def State.writeLoc (s : State) (w : Word) : Loc → State
  | .id | .cfg | .status | .reserved => s
  | .ctrl => s.writeCtrl w
  | .cmd => s.writeCmd w
  | .irqStatus => s.writeIrqStatus w
  | .pssModbits => { s with regs := { s.regs with pssModbits := w.setWidth 14 } }
  | .pssSlen => { s with regs := { s.regs with pssSlen := w.setWidth 16 } }
  | .mrRounds => { s with regs := { s.regs with mrRounds := w.setWidth 8 } }
  | .mgfLen => { s with regs := { s.regs with mgfLen := w.setWidth 16 } }
  | .ospLen => { s with regs := { s.regs with ospLen := w.setWidth 16 } }
  | .blen j => { s with regs := s.regs.setLen j (w.setWidth 16) }
  | .vWord i k => { s with regs := s.regs.writeVWord s.params i k w }
  | .bWord j k => { s with regs := s.regs.writeBWord s.params j k w }

/-- 32 bits wide, at a multiple of 4, all four strobes active (20_memory.md R131). -/
def Access.legal (a : Access) (off : Nat) : Bool :=
  decide (a.size = 4) && decide (off % 4 = 0) && a.strobes == 0xF#4

/-- `MemRead(off, 4)`: a legal host read at a block offset (00_scope.md R14). -/
def memRead (p : Params) (off : Nat) : Access := ⟨p.baseAddr + off, 4, 0xF#4, none⟩

/-- `MemWrite(off, 4, v)`: a legal host write at a block offset (R14). -/
def memWrite (p : Params) (off : Nat) (v : Word) : Access := ⟨p.baseAddr + off, 4, 0xF#4, some v⟩

/-- The access is answered. -/
def State.respond (s : State) (slverr : Bool) (data : Word) : State := { s with resp := some ⟨slverr, data⟩ }

/-- One host access (R131 to R135): SLVERR with no effect and data 0 if it is illegal or busy-locked; else it is
served with OKAY. -/
def busAccess (s : State) (a : Access) : Host.Outcome State Fault Refusal :=
  let off := a.addr - s.params.baseAddr
  if a.addr < s.params.baseAddr ∨ s.params.baseAddr + 0x10000 ≤ a.addr then .fault (.outsideBlock a.addr)
  else if a.legal off = false ∨ (s.busy = true ∧ (locOf off).locked = true) then .next (s.respond true 0#32)
  else
    match a.data with
    | none => .next (s.respond false (s.readLoc (locOf off)))
    | some w => .next ((s.writeLoc w (locOf off)).respond false 0#32)

end Sys2Proof.Machine
end

