-- ==== Sys2Proof/Machine/Control.lean ====
section
/-! DEFINITION. The control commands NOP and ZEROIZE (47_control.md). -/

namespace Sys2Proof.Machine

/-- `NOP` does nothing but complete (R420). -/
def execNop (s : State) : Host.Outcome State Fault Refusal := s.succeed .nothing

/-- `ZEROIZE` clears every integer register, buffer and length register (R421). -/
def execZeroize (s : State) : Host.Outcome State Fault Refusal := s.succeed .zeroize

end Sys2Proof.Machine
end

