-- ==== Sys2Proof/Machine/Conversion.lean ====
section
/-! DEFINITION. The conversions I2OSP and OS2IP (43_conversion.md). -/

namespace Sys2Proof.Machine

/-- `I2OSP bD, vA`: buffer D ← V[A] as OSP_LEN bytes, big-endian (R310). -/
def execI2osp (d a : Field) (s : State) : Host.Outcome State Fault Refusal :=
  if (Instr.i2osp d a).wf = false then s.raise .index
  else if s.params.bufBytes < s.outLen then s.raise .len
  else if 256 ^ s.outLen ≤ s.opV a then s.raise .range
  else s.succeed (.setB d (i2osp (s.opV a) s.outLen))

/-- `OS2IP vD, bA`: V[D] ← the big-endian integer of buf(A) (R311). -/
def execOs2ip (d a : Field) (s : State) : Host.Outcome State Fault Refusal :=
  if (Instr.os2ip d a).wf = false then s.raise .index
  else if s.params.bufBytes < s.opLen a then s.raise .len
  else s.succeed (.setV d (os2ip (s.opBuf a)))

end Sys2Proof.Machine
end

