-- ==== Sys2Proof/Machine/ModExp.lean ====
section
/-! DEFINITION. The modular exponentiation engine: MODEXP (42_modexp.md). -/

namespace Sys2Proof.Machine

/-- `MODEXP vD, vA, vB, vC`: V[D] ← x^e mod m, for any modulus m ≥ 1 (R290). -/
def execModexp (d a b c : Field) (s : State) : Host.Outcome State Fault Refusal :=
  if (Instr.modexp d a b c).wf = false then s.raise .index
  else if s.opV c = 0 then s.raise .modZero
  else s.succeed (.setV d (modPow (s.opV a) (s.opV b) (s.opV c)))

end Sys2Proof.Machine
end

