-- ==== Sys2Proof/Machine/Montgomery.lean ====
section
/-! DEFINITION. The Montgomery multiplier: MONTMUL and MONTR2 (41_montgomery.md). -/

namespace Sys2Proof.Machine

/-- `MONTMUL vD, vA, vB, vC`: V[D] ← a·b·R(n)⁻¹ mod n (R271), with n = V[C], a = V[A], b = V[B]. -/
def execMontmul (d a b c : Field) (s : State) : Host.Outcome State Fault Refusal :=
  if (Instr.montmul d a b c).wf = false then s.raise .index
  else if s.opV c = 0 then s.raise .modZero
  else if s.opV c % 2 = 0 then s.raise .modEven
  else if s.opV c ≤ s.opV a ∨ s.opV c ≤ s.opV b then s.raise .range
  else s.succeed (.setV d (montProduct (s.opV a) (s.opV b) (s.opV c)))

/-- `MONTR2 vD, vC`: V[D] ← R(n)² mod n (R272), with n = V[C]. -/
def execMontr2 (d c : Field) (s : State) : Host.Outcome State Fault Refusal :=
  if (Instr.montr2 d c).wf = false then s.raise .index
  else if s.opV c = 0 then s.raise .modZero
  else if s.opV c % 2 = 0 then s.raise .modEven
  else s.succeed (.setV d (montRadix (s.opV c) ^ 2 % s.opV c))

end Sys2Proof.Machine
end

