-- ==== Sys2Proof/Machine/Dispatch.lean ====
section
/-! DEFINITION. One arm per command: the engine runs command i on the snapshot and completes it. -/

namespace Sys2Proof.Machine

def exec (i : Instr) (s : State) : Host.Outcome State Fault Refusal :=
  match i with
  | .nop => Sys2Proof.Machine.execNop s
  | .zeroize => Sys2Proof.Machine.execZeroize s
  | .montmul d a b c => Sys2Proof.Machine.execMontmul d a b c s
  | .montr2 d c => Sys2Proof.Machine.execMontr2 d c s
  | .modexp d a b c => Sys2Proof.Machine.execModexp d a b c s
  | .i2osp d a => Sys2Proof.Machine.execI2osp d a s
  | .os2ip d a => Sys2Proof.Machine.execOs2ip d a s
  | .mrtest a => Sys2Proof.Machine.execMrtest a s
  | .mgf1 d a => Sys2Proof.Machine.execMgf1 d a s
  | .pssenc d a => Sys2Proof.Machine.execPssenc d a s
  | .pssver a b => Sys2Proof.Machine.execPssver a b s

end Sys2Proof.Machine
end

