-- ==== Sys2Proof/Machine/Engine.lean ====
section
/-! DEFINITION. The engine's move, and what each event of the agenda does. -/

namespace Sys2Proof.Machine

/-- The engine's move (10_state.md R50, 40_command_execution.md R233): a running command's word is decoded and run to
completion, or completed with the decoder's error; an idle engine does nothing. -/
def engineStep (s : State) : Host.Outcome State Fault Refusal :=
  match s.inflight with
  | none => .next s
  | some snap =>
    match decode snap.word with
    | .ok i => exec i s
    | .error code => s.raise code

/-- The RNG port delivers a byte (00_scope.md R9). -/
def State.deliver (s : State) (b : Byte) : State := { s with rng := s.rng ++ [b] }

/-- What one event does. -/
def runEvent (s : State) : Event → Host.Outcome State Fault Refusal
  | .bus a => busAccess s a
  | .engine => engineStep s
  | .rng b => .next (s.deliver b)
  | .hash serves => .next (s.withHash serves)
  | .hardReset => .next s.hardReset

/-- A command word is in flight, as if the host had just written it to CMD, and the engine moves next
(log entry 4). -/
def State.placeCommand (s : State) (w : Word) : State :=
  (s.accept w).withAgenda (.engine :: s.agenda)

end Sys2Proof.Machine
end

