-- ==== Sys2Proof/Machine/Step.lean ====
section
/-! DEFINITION. One step of the machine: the next move on the agenda. -/

namespace Sys2Proof.Machine

/-- One step: the first event of the agenda happens; with none left, the engine moves (log entry 4). -/
def step (s : State) : Host.Outcome State Fault Refusal :=
  match s.agenda with
  | [] => engineStep s
  | e :: rest => runEvent (s.withAgenda rest) e

/-- The command word `w` placed in flight, so that the very next step runs it: the engine's fetch place is the
in-flight snapshot (40_command_execution.md R231). -/
def State.withFetchWord (s : State) (nbits w : Nat) : State := s.placeCommand (tableWord nbits w)

end Sys2Proof.Machine
end

