-- ==== Sys2Proof/Safety.lean ====
section
/-! DEFINITION. What a well-formed machine is: the relations between the parts of the state that the spec states, and
that every step keeps. -/

namespace Sys2Proof.Machine

/-- Every integer register holds a value below 2^MAXBITS (10_state.md R52, R54). -/
def RegFile.inRange (p : Params) (r : RegFile) : Prop := ∀ i : Fin 8, r.v[i] < 2 ^ p.maxbits

/-- Buffer memory is canonical, and lists bytes of the four buffers only (R55). -/
def RegFile.memOk (p : Params) (r : RegFile) : Prop :=
  Memory.wf r.mem ∧
    ∀ c ∈ r.mem, ∃ j, j < 4 ∧ bufOffset j ≤ c.1 ∧ c.1 < bufOffset j + p.bufBytes

/-- What no command changes: the build, CTRL, CMD, LASTOP, OVR_P, the bus response, the HASH port, the agenda and the
numbering of the free values. -/
structure State.SameControl (s t : State) : Prop where
  params : t.params = s.params
  ie : t.ie = s.ie
  cmd : t.cmd = s.cmd
  lastop : t.lastop = s.lastop
  ovrP : t.ovrP = s.ovrP
  resp : t.resp = s.resp
  hashServes : t.hashServes = s.hashServes
  agenda : t.agenda = s.agenda
  draws : t.draws = s.draws

/-- `t` is `s` after a completion with this code and boolean outcome, whatever was committed
(40_command_execution.md R238). -/
structure State.Completed (s t : State) (code : ErrCode) (result : Bool) : Prop where
  errcode : t.errcode = code
  result : t.result = result
  done : t.done = true
  idle : t.busy = false
  doneP : t.doneP = true
  scratch : t.scratch = 0
  same : s.SameControl t

/-- The parameter registers hold the same. -/
structure RegFile.SameParams (r u : RegFile) : Prop where
  pssModbits : u.pssModbits = r.pssModbits
  pssSlen : u.pssSlen = r.pssSlen
  mrRounds : u.mrRounds = r.mrRounds
  mgfLen : u.mgfLen = r.mgfLen
  ospLen : u.ospLen = r.ospLen

/-- The invariant of the machine. -/
structure State.Inv (s : State) : Prop where
  /-- The build is legal (00_scope.md R6). -/
  legal : s.params.legal
  /-- R52. -/
  inRange : s.regs.inRange s.params
  /-- R55. -/
  memOk : s.regs.memOk s.params
  /-- While BUSY the snapshot is what the registers hold, and CMD the running word (R73, R85). -/
  snapshot : ∀ snap, s.inflight = some snap → snap.word = s.cmd ∧ snap.regs = s.regs
  /-- While BUSY, DONE, RESULT and ERRCODE are 0 (R68 to R71). -/
  running : s.busy = true → s.done = false ∧ s.result = false ∧ s.errcode = .ok
  /-- An idle engine that has completed nothing since reset has STATUS and CMD at 0 (R90). -/
  fresh : s.busy = false → s.done = false → s.cmd = 0#32 ∧ s.result = false ∧ s.errcode = .ok
  /-- LASTOP is bits [7:0] of the last accepted word (R72, R73). -/
  lastop : s.lastop = s.cmd.extractLsb' 0 8
  /-- RESULT is 1 only after MRTEST or PSSVER without error (R70). -/
  result : s.result = true → s.errcode = .ok ∧ (s.lastop = 0x30#8 ∨ s.lastop = 0x51#8)
  /-- The scratch is cleared whenever no command runs (R86). -/
  scratch : s.busy = false → s.scratch = 0

/-- An event that is neither an engine move nor a reset, and does not silence the HASH port: a byte of the RNG port, the
HASH port beginning to answer, or an access of the block that is no write of CTRL with SRST = 1. -/
def Event.harmless (p : Params) : Event → Prop
  | .rng _ => True
  | .hash serves => serves = true
  | .bus a => p.baseAddr ≤ a.addr ∧ a.addr < p.baseAddr + 0x10000 ∧
      ∀ w, a.data = some w → a.addr = p.baseAddr + 0x008 → w.getLsbD 1 = false
  | .engine => False
  | .hardReset => False

end Sys2Proof.Machine
end

