-- ==== Sys2Proof/Certificates/Slice0/Obligations.lean ====
section
/-! DEFINITION. The statements about the model, each with the rule of spec/ it formalises. `expect` and the rest of
their entries stand in OBLIGATIONS.json. -/

open Sys2Proof Sys2Proof.Machine

/-! ### Encoding -/

/-- The words of 30_encoding.md R192 are those of the commands they stand for: each decodes to its command, and the
command's word is it. -/
def Obligations.SpecWordsDecode : Prop :=
  ∀ p ∈ [(0x00000000#32, Instr.nop), (0x00000001#32, .zeroize), (0x00240510#32, .montmul 5 0 4 2),
      (0x00200411#32, .montr2 4 2), (0x00210318#32, .modexp 3 0 1 2), (0x00003220#32, .i2osp 2 3),
      (0x00001021#32, .os2ip 0 1), (0x00000030#32, .mrtest 0), (0x00000140#32, .mgf1 1 0),
      (0x00000150#32, .pssenc 1 0), (0x00010051#32, .pssver 0 1)],
    decode p.1 = .ok p.2 ∧ encode p.2 = p.1

/-- Decoding the word of any command gives it back if its operands are legal, and E_INDEX if not
(30_encoding.md R181, R186, R189). -/
def Obligations.DecodeEncodeRoundTrip : Prop :=
  ∀ i : Instr, decode (encode i) = if i.wf then .ok i else .error .index

/-- A word that decodes to a command is that command's only word, and its operands are legal (R189). -/
def Obligations.EncodeDecodeRoundTrip : Prop :=
  ∀ (w : Word) (i : Instr), decode w = .ok i → encode i = w ∧ i.wf = true

/-- The rows of opcode_table.json, by their match and mask, as R193 gives them: a word of no row's opcode gives
E_OPCODE; a word of a row's opcode gives E_RESERVED exactly if it fails that row's test, and one that passes gives
that row's command or E_INDEX. -/
def Obligations.OpcodeTableMasks : Prop :=
  tableRows =
    [(0x00000000#32, 0xFFFFFFFF#32), (0x00000001#32, 0xFFFFFFFF#32), (0x00000010#32, 0xFF0000FF#32),
     (0x00000011#32, 0xFF0FF0FF#32), (0x00000018#32, 0xFF0000FF#32), (0x00000020#32, 0xFFFF00FF#32),
     (0x00000021#32, 0xFFFF00FF#32), (0x00000030#32, 0xFFFF0FFF#32), (0x00000040#32, 0xFFFF00FF#32),
     (0x00000050#32, 0xFFFF00FF#32), (0x00000051#32, 0xFFF00FFF#32)] ∧
  ∀ w : Word,
    (decode w = .error .opcode ↔ ∀ row ∈ tableRows, w &&& 0xFF#32 ≠ row.1) ∧
    ∀ (k : Nat) (row : Word × Word), tableRows[k]? = some row → w &&& 0xFF#32 = row.1 →
      (decode w = .error .reserved ↔ w &&& row.2 ≠ row.1) ∧
      (w &&& row.2 = row.1 →
        decode w = .error .index ∨ ∃ i, decode w = .ok i ∧ i.wf = true ∧ i.row = k)

/-- A word whose OPC is in no row of R186 is accepted, completes with E_OPCODE whatever its other fields hold, and
changes no V, B, BLEN or parameter register (R187). -/
def Obligations.IllegalOpcodeCompletes : Prop :=
  ∀ (s : State) (w : Word),
    s.busy = false →
    w.extractLsb' 0 8 ∉ [0x00#8, 0x01#8, 0x10#8, 0x11#8, 0x18#8, 0x20#8, 0x21#8, 0x30#8, 0x40#8, 0x50#8, 0x51#8] →
    ∃ u t, busAccess s (memWrite s.params 0x010 w) = .next u ∧ u.busy = true ∧ u.cmd = w ∧
      engineStep u = .next t ∧ u.Completed t .opcode false ∧ t.regs = s.regs

/-- The engine's move on a word that decodes to no command completes with the decoder's error code, commits nothing and
takes no RNG byte; and a command with an operand index out of range gives E_INDEX, the same way (R182, R189, R239;
log entry 15). -/
def Obligations.UndecodableWordCompletes : Prop :=
  (∀ (s : State) (snap : Snapshot) (c : ErrCode),
    s.inflight = some snap → decode snap.word = .error c →
      ∃ t, engineStep s = .next t ∧ s.Completed t c false ∧ c ≠ .ok ∧ t.regs = s.regs ∧ t.rng = s.rng) ∧
  ∀ (s : State) (i : Instr), i.wf = false →
    ∃ t, exec i s = .next t ∧ s.Completed t .index false ∧ t.regs = s.regs ∧ t.rng = s.rng

/-- When the engine moves next and the word in flight decodes to `i`, a step is `exec i` on the state without that move;
it is so too when the agenda is empty (the model's agenda: log entry 4). -/
def Obligations.StepRunsDecodedCommand : Prop :=
  ∀ (s : State) (snap : Snapshot) (i : Instr) (rest : List Event),
    s.inflight = some snap → decode snap.word = .ok i →
      (s.agenda = .engine :: rest → step s = exec i (s.withAgenda rest)) ∧
      (s.agenda = [] → step s = exec i s)

/-- How a command comes to run: a host writes its word to CMD of an idle engine, and the engine moves next
(40_command_execution.md R231, R233). `withFetchWord` places a word as such a write does (log entry 4). -/
def Obligations.CmdWriteThenEngineRunsCommand : Prop :=
  ∀ (s : State) (w : Word) (i : Instr) (rest : List Event), decode w = .ok i →
    (s.busy = false → s.agenda = .bus (memWrite s.params 0x010 w) :: .engine :: rest →
      Sys2Proof.core.run 2 s = exec i (((s.withAgenda rest).accept w).respond false 0#32)) ∧
    step (s.withFetchWord 32 w.toNat) = exec i (s.accept w)

/-! ### Reset and the whole machine -/

/-- A hardware reset (70_reset_and_hazards.md R481): the reset column of R90 for every register it gives a value;
a command in flight is lost, with no completion. -/
def Obligations.HardwareResetValues : Prop :=
  ∀ (s : State) (rest : List Event), s.agenda = .hardReset :: rest →
    ∃ t, step s = .next t ∧ t.agenda = rest ∧ t.params = s.params ∧
      t.busy = false ∧ t.readLoc .status = 0#32 ∧ t.readLoc .ctrl = 0#32 ∧ t.readLoc .cmd = 0#32 ∧
      t.readLoc .irqStatus = 0#32 ∧ t.irq = false ∧
      t.regs.pssModbits = 0#14 ∧ t.regs.pssSlen = BitVec.ofNat 16 s.params.hlen ∧ t.regs.mrRounds = 20#8 ∧
      t.regs.mgfLen = 0#16 ∧ t.regs.ospLen = 0#16 ∧ (∀ j : Field, t.regs.getLen j = 0) ∧
      t.scratch = 0

/-- The machine of every legal build right after power-on satisfies the invariant. That V and B hold 0 there is the
model's choice (log entries 5 and 6). -/
def Obligations.PowerOnInvariant : Prop :=
  ∀ p : Params, p.legal → (State.resetOf p).Inv

/-- Every step keeps the invariant: the integer registers stay below 2^MAXBITS (R54), buffer memory canonical, the
snapshot equal to the registers (R85), STATUS consistent (R68 to R72), the scratch clear on an idle engine (R86). -/
def Obligations.StepKeepsInvariant : Prop :=
  ∀ s t : State, s.Inv → step s = .next t → t.Inv

/-- The engine passes IDLE → BUSY only by an acceptance, and BUSY → IDLE only by a completion or a reset; after reset it
is IDLE (40_command_execution.md R230). -/
def Obligations.EngineStateTransitions : Prop :=
  (∀ p : Params, (State.resetOf p).busy = false) ∧
  ∀ s t : State, step s = .next t →
    (s.busy = false → t.busy = true →
      ∃ a w rest, s.agenda = .bus a :: rest ∧ a.legal (a.addr - s.params.baseAddr) = true ∧
        a.addr = s.params.baseAddr + 0x010 ∧ a.data = some w ∧ t.cmd = w) ∧
    (s.busy = true → t.busy = false →
      (t.done = true ∧ t.doneP = true ∧ (s.agenda = [] ∨ ∃ rest, s.agenda = .engine :: rest)) ∨
      (∃ a w rest, s.agenda = .bus a :: rest ∧ a.legal (a.addr - s.params.baseAddr) = true ∧
        a.addr = s.params.baseAddr + 0x008 ∧ a.data = some w ∧ w.getLsbD 1 = true) ∨
      ∃ rest, s.agenda = .hardReset :: rest)

/-- A pending interrupt bit is cleared only by a host write of 1 to it in IRQ_STATUS, by a soft reset or by a hardware
reset (60_exceptions.md R449). -/
def Obligations.PendingBitsClearedOnlyByHost : Prop :=
  ∀ s t : State, step s = .next t →
    (s.doneP = true ∧ t.doneP = false ∨ s.ovrP = true ∧ t.ovrP = false) →
      (∃ rest, s.agenda = .hardReset :: rest) ∨
      ∃ a w rest, s.agenda = .bus a :: rest ∧ a.legal (a.addr - s.params.baseAddr) = true ∧ a.data = some w ∧
        (a.addr = s.params.baseAddr + 0x008 ∧ w.getLsbD 1 = true ∨
         a.addr = s.params.baseAddr + 0x014 ∧
          ((s.doneP = true ∧ t.doneP = false → w.getLsbD 0 = true) ∧
           (s.ovrP = true ∧ t.ovrP = false → w.getLsbD 1 = true)))

/-- RNG bytes are taken only by the engine running MRTEST or PSSENC, or lost with such a command when a reset aborts it;
every other step leaves the delivered bytes, but for a byte the port delivers (10_state.md R87,
40_command_execution.md R236; log entries 3 and 10). Also an aborted command has taken bytes only where the rules take
them, and no more: MRTEST for an odd n ≥ 5 and t ≥ 1, at most t·MR_RETRY·ceil(bitlen(n)/8); PSSENC if its checks pass, at
most sLen (R236, R241). -/
def Obligations.RngTakenOnlyByDrawingCommands : Prop :=
  ∀ s t : State, step s = .next t → t.rng ≠ s.rng →
    (∃ b rest, s.agenda = .rng b :: rest ∧ t.rng = s.rng ++ [b]) ∨
    ((s.agenda = [] ∨ (∃ rest, s.agenda = .engine :: rest) ∨ (∃ rest, s.agenda = .hardReset :: rest) ∨
        ∃ a w rest, s.agenda = .bus a :: rest ∧ a.legal (a.addr - s.params.baseAddr) = true ∧
          a.addr = s.params.baseAddr + 0x008 ∧ a.data = some w ∧ w.getLsbD 1 = true) ∧
      ∃ snap, s.inflight = some snap ∧ t.rng <:+ s.rng ∧
        ((∃ a, decode snap.word = .ok (.mrtest a) ∧ 5 ≤ s.opV a ∧ s.opV a % 2 = 1 ∧ s.rounds ≠ 0 ∧
            s.rng.length ≤ t.rng.length + s.rounds * s.params.mrRetry * ((bitlen (s.opV a) + 7) / 8)) ∨
          ∃ d a, decode snap.word = .ok (.pssenc d a) ∧ 1 ≤ s.modBits ∧ s.modBits ≤ s.params.maxbits ∧
            s.opLen a = s.params.hlen ∧ s.params.hlen + s.saltLen + 2 ≤ (s.modBits - 1 + 7) / 8 ∧
            s.rng.length ≤ t.rng.length + s.saltLen))

/-! ### Host accesses -/

/-- The read-only registers, in every state, busy or not: ID reads 0x52500100 and CFG its four fields, 0x48200080 with the
defaults (10_state.md R62, R63); STATUS reads its fields, and 0 after reset (R66); a write of any of them has no effect
and gets OKAY. -/
def Obligations.ReadOnlyRegisters : Prop :=
  (∀ s : State, ∃ t, busAccess s (memRead s.params 0x000) = .next t ∧
    t.resp = some ⟨false, 0x52500100#32⟩) ∧
  (∀ s : State, s.params.legal → ∃ t d, busAccess s (memRead s.params 0x004) = .next t ∧ t.resp = some ⟨false, d⟩ ∧
    (d.extractLsb' 0 16).toNat = s.params.maxbits / 32 ∧ (d.extractLsb' 16 8).toNat = s.params.hlen ∧
    d.extractLsb' 24 4 = 8#4 ∧ d.extractLsb' 28 4 = 4#4) ∧
  (∀ (s t : State) (w : Word) (off : Nat), off = 0x000 ∨ off = 0x004 ∨ off = 0x00C →
    busAccess s (memWrite s.params off w) = .next t → t = s.respond false 0#32) ∧
  cfgWord { maxbits := 4096, hlen := 32, hash := .port, mrRetry := 64, baseAddr := 0 } = 0x48200080#32 ∧
  (∀ s : State, ∃ t d, busAccess s (memRead s.params 0x00C) = .next t ∧ t.resp = some ⟨false, d⟩ ∧
    d.getLsbD 0 = s.busy ∧ d.getLsbD 1 = s.done ∧ d.getLsbD 2 = decide (errByte s.errcode ≠ 0#8) ∧
    d.getLsbD 3 = s.result ∧ d.extractLsb' 4 4 = 0#4 ∧ d.extractLsb' 8 8 = errByte s.errcode ∧
    d.extractLsb' 16 8 = s.lastop ∧ d.extractLsb' 24 8 = 0#8) ∧
  ∀ p : Params, (State.resetOf p).readLoc .status = 0#32

/-- An access that is not 32 bits wide, 4-aligned and with all four strobes gets SLVERR, returns data 0 and changes no
state (20_memory.md R131). -/
def Obligations.IllegalAccessSlverr : Prop :=
  ∀ (s : State) (a : Access), s.params.baseAddr ≤ a.addr → a.addr < s.params.baseAddr + 0x10000 →
    (a.size ≠ 4 ∨ (a.addr - s.params.baseAddr) % 4 ≠ 0 ∨ a.strobes ≠ 0xF#4) →
      busAccess s a = .next (s.respond true 0#32)

/-- While BUSY, an access to a busy-locked offset gets SLVERR, data 0 and no effect; one to any other word of the block
is served normally, with OKAY (R135). -/
def Obligations.BusyLock : Prop :=
  ∀ (s : State) (off : Nat) (data : Option Word), s.busy = true → off % 4 = 0 → off < 0x10000 →
    (off = 0x020 ∨ off = 0x024 ∨ off = 0x028 ∨ off = 0x02C ∨ off = 0x030 ∨ (0x040 ≤ off ∧ off < 0x050) ∨
        (0x1000 ≤ off ∧ off < 0x3000) ∨ (0x4000 ≤ off ∧ off < 0x5000) →
      busAccess s ⟨s.params.baseAddr + off, 4, 0xF#4, data⟩ = .next (s.respond true 0#32)) ∧
    (¬(off = 0x020 ∨ off = 0x024 ∨ off = 0x028 ∨ off = 0x02C ∨ off = 0x030 ∨ (0x040 ≤ off ∧ off < 0x050) ∨
        (0x1000 ≤ off ∧ off < 0x3000) ∨ (0x4000 ≤ off ∧ off < 0x5000)) →
      (data = none → busAccess s ⟨s.params.baseAddr + off, 4, 0xF#4, data⟩ =
        .next (s.respond false (s.readLoc (locOf off)))) ∧
      ∀ w, data = some w → busAccess s ⟨s.params.baseAddr + off, 4, 0xF#4, data⟩ =
        .next ((s.writeLoc w (locOf off)).respond false 0#32))

/-- A legal access to a reserved offset, or while idle to a window tail, is OKAY: a read returns 0, a write is ignored
(R133, R134). -/
def Obligations.ReservedOffsetsAndTails : Prop :=
  ∀ (s : State) (off : Nat) (data : Option Word), off % 4 = 0 →
    (off = 0x018 ∨ off = 0x01C ∨ (0x034 ≤ off ∧ off < 0x040) ∨ (0x050 ≤ off ∧ off < 0x1000) ∨
        (0x3000 ≤ off ∧ off < 0x4000) ∨ (0x5000 ≤ off ∧ off < 0x10000) ∨
      (s.busy = false ∧
        ((∃ i j, i < 8 ∧ s.params.limbs ≤ j ∧ j < 256 ∧ off = 0x1000 + 0x400 * i + 4 * j) ∨
          ∃ j k, j < 4 ∧ s.params.bufBytes ≤ k ∧ k < 1024 ∧ s.params.maxbits % 32 = 0 ∧
            off = 0x4000 + 0x400 * j + k))) →
    busAccess s ⟨s.params.baseAddr + off, 4, 0xF#4, data⟩ = .next (s.respond false 0#32)

/-- The word at 0x1000 + 0x400·i + 4·j is limb j of V[i]: a read returns it, a write replaces it and leaves every other
limb, and all else, unchanged; the value of V[i] is the sum of its limbs (R136). -/
def Obligations.IntegerWindow : Prop :=
  ∀ (s : State) (i j : Nat), s.busy = false → i < 8 → j < s.params.limbs → s.params.maxbits ≤ 8192 →
    (s.params.maxbits % 32 = 0 → s.regs.getV (BitVec.ofNat 4 i) < 2 ^ s.params.maxbits →
      s.regs.getV (BitVec.ofNat 4 i) =
        ((List.range s.params.limbs).map fun l =>
          s.regs.getV (BitVec.ofNat 4 i) / 2 ^ (32 * l) % 2 ^ 32 * 2 ^ (32 * l)).sum) ∧
    (∃ t, busAccess s (memRead s.params (0x1000 + 0x400 * i + 4 * j)) = .next t ∧
      t.resp = some ⟨false, BitVec.ofNat 32 (s.regs.getV (BitVec.ofNat 4 i) / 2 ^ (32 * j) % 2 ^ 32)⟩) ∧
    ∀ w : Word, ∃ t, busAccess s (memWrite s.params (0x1000 + 0x400 * i + 4 * j) w) = .next t ∧
      t = { s with regs := { s.regs with v := t.regs.v }, resp := some ⟨false, 0#32⟩ } ∧
      (∀ k : Field, k ≠ BitVec.ofNat 4 i → t.regs.getV k = s.regs.getV k) ∧
      t.regs.getV (BitVec.ofNat 4 i) =
        s.regs.getV (BitVec.ofNat 4 i) - s.regs.getV (BitVec.ofNat 4 i) / 2 ^ (32 * j) % 2 ^ 32 * 2 ^ (32 * j) +
          w.toNat * 2 ^ (32 * j) ∧
      limb (t.regs.getV (BitVec.ofNat 4 i)) j = w ∧
      ∀ l, l ≠ j → limb (t.regs.getV (BitVec.ofNat 4 i)) l = limb (s.regs.getV (BitVec.ofNat 4 i)) l

/-- The word at 0x4000 + 0x400·j + 4·m holds bytes 4m .. 4m+3 of buffer j, the lowest index in the least significant
lane: a read returns them, a write stores all four, and changes no other byte, no BLEN and nothing else (R137). -/
def Obligations.BufferWindow : Prop :=
  ∀ (s : State) (j m : Nat), s.busy = false → j < 4 → 4 * m < s.params.bufBytes → s.params.maxbits ≤ 8192 →
    (∃ t d, busAccess s (memRead s.params (0x4000 + 0x400 * j + 4 * m)) = .next t ∧ t.resp = some ⟨false, d⟩ ∧
      ∀ k, k < 4 → d.extractLsb' (8 * k) 8 = s.regs.getByte (BitVec.ofNat 4 j) (4 * m + k)) ∧
    ∀ w : Word, Memory.wf s.regs.mem →
      ∃ t, busAccess s (memWrite s.params (0x4000 + 0x400 * j + 4 * m) w) = .next t ∧
        t = { s with regs := { s.regs with mem := t.regs.mem }, resp := some ⟨false, 0#32⟩ } ∧
        (∀ k, k < 4 → t.regs.getByte (BitVec.ofNat 4 j) (4 * m + k) = w.extractLsb' (8 * k) 8) ∧
        ∀ a, (a < 0x4000 + 0x400 * j + 4 * m ∨ 0x4000 + 0x400 * j + 4 * m + 4 ≤ a) →
          Memory.read t.regs.mem a = Memory.read s.regs.mem a

/-- The parameter and length registers, on an idle engine: a write stores the bits of the field, whatever the value,
and changes nothing else; a read returns the stored bits, zero-extended (10_state.md R61, R75 to R80). -/
def Obligations.ParameterRegistersStore : Prop :=
  ∀ (s : State) (off width : Nat), s.busy = false →
    (off, width) ∈ [(0x020, 14), (0x024, 16), (0x028, 8), (0x02C, 16), (0x030, 16), (0x040, 16), (0x044, 16),
      (0x048, 16), (0x04C, 16)] →
    ∀ w : Word, ∃ t u, busAccess s (memWrite s.params off w) = .next t ∧ t.resp = some ⟨false, 0#32⟩ ∧
      t = { s with regs := t.regs, resp := t.resp } ∧ t.regs.v = s.regs.v ∧ t.regs.mem = s.regs.mem ∧
      busAccess t (memRead s.params off) = .next u ∧
      u.resp = some ⟨false, BitVec.ofNat 32 (w.toNat % 2 ^ width)⟩ ∧
      ∀ off', off' ≠ off → off' % 4 = 0 → off' < 0x1000 →
        t.readLoc (locOf off') = s.readLoc (locOf off')

/-- A host read changes nothing but the response, and the same read again returns the same, whatever reads and RNG
bytes came between (R141). -/
def Obligations.ReadsHaveNoSideEffect : Prop :=
  ∀ (s t : State) (a : Access), a.data = none → busAccess s a = .next t →
    (∃ r, t = { s with resp := r }) ∧
    ∀ (r : Option BusResp) (bytes : List Byte) (events : List Event),
      ∃ u, busAccess { s with resp := r, rng := bytes, agenda := events } a = .next u ∧ u.resp = t.resp

/-- A write of CTRL, busy or not: with SRST = 1 the soft reset happens and CTRL ends with IE = 0, whatever IE it
carried; with SRST = 0 only IE changes. CTRL reads IE in bit 0 and 0 elsewhere, and 0 after reset (10_state.md R64,
R65). -/
def Obligations.CtrlWrite : Prop :=
  (∀ (s : State) (w : Word),
    (w.getLsbD 1 = true →
      busAccess s (memWrite s.params 0x008 w) = .next (s.softReset.respond false 0#32) ∧ s.softReset.ie = false) ∧
    (w.getLsbD 1 = false →
      busAccess s (memWrite s.params 0x008 w) = .next { s with ie := w.getLsbD 0, resp := some ⟨false, 0#32⟩ })) ∧
  (∀ s : State, ∃ t, busAccess s (memRead s.params 0x008) = .next t ∧
    t.resp = some ⟨false, if s.ie then 1#32 else 0#32⟩) ∧
  ∀ p : Params, (State.resetOf p).ie = false

/-- A CMD write while the engine is IDLE accepts the word, any word, in one step (40_command_execution.md R231); what the
scratch holds from then on is a free value. A CMD write while it is BUSY is an overrun: OVR_P is set, the response is
OKAY, and nothing else changes (R232). A read of CMD, busy or not, returns the last accepted word, and 0 after reset
(10_state.md R73). -/
def Obligations.CmdWriteAcceptsOrOverruns : Prop :=
  (∀ (s : State) (w : Word),
    (s.busy = false →
      ∃ t, busAccess s (memWrite s.params 0x010 w) = .next t ∧ t.resp = some ⟨false, 0#32⟩ ∧
        t.cmd = w ∧ t.busy = true ∧ t.done = false ∧ t.result = false ∧ t.errcode = .ok ∧ t.err = false ∧
        t.lastop = w.extractLsb' 0 8 ∧ t.inflight = some ⟨w, s.regs⟩ ∧
        t.doneP = s.doneP ∧ t.ovrP = s.ovrP ∧
        t.regs = s.regs ∧ t.ie = s.ie ∧ t.params = s.params ∧ t.rng = s.rng ∧ t.hashServes = s.hashServes ∧
        t.agenda = s.agenda) ∧
    (s.busy = true →
      busAccess s (memWrite s.params 0x010 w) = .next { s with ovrP := true, resp := some ⟨false, 0#32⟩ })) ∧
  (∀ s : State, busAccess s (memRead s.params 0x010) = .next { s with resp := some ⟨false, s.cmd⟩ }) ∧
  ∀ p : Params, (State.resetOf p).cmd = 0#32

/-- A write of IRQ_STATUS clears each pending bit written as 1, busy or not, and changes nothing else; its read returns
the two bits. `irq` is IE ∧ (DONE_P ∨ OVR_P), so it follows at once (10_state.md R74, R88; 60_exceptions.md R447). -/
def Obligations.IrqStatusWriteOneClears : Prop :=
  ∀ (s : State) (w : Word),
    (∃ t, busAccess s (memWrite s.params 0x014 w) = .next t ∧
      t = { s with doneP := t.doneP, ovrP := t.ovrP, resp := some ⟨false, 0#32⟩ } ∧
      t.doneP = (s.doneP && !w.getLsbD 0) ∧ t.ovrP = (s.ovrP && !w.getLsbD 1) ∧
      (t.irq = true ↔ s.ie = true ∧ (s.doneP = true ∧ w.getLsbD 0 = false ∨ s.ovrP = true ∧ w.getLsbD 1 = false))) ∧
    ∃ t, busAccess s (memRead s.params 0x014) = .next t ∧
      t.resp = some ⟨false, BitVec.ofNat 32 ((if s.doneP then 1 else 0) + (if s.ovrP then 2 else 0))⟩

/-- A bus access outside the 64 KiB of the block stops the model by name: it is no access of this block
(20_memory.md R130; the fault is the model's, log entry 13). -/
def Obligations.AccessOutsideBlockFaults : Prop :=
  ∀ (s : State) (a : Access), a.addr < s.params.baseAddr ∨ s.params.baseAddr + 0x10000 ≤ a.addr →
    busAccess s a = .fault (.outsideBlock a.addr)

/-! ### Soft reset and abort -/

/-- A write of CTRL with bit 1 set (70_reset_and_hazards.md R482): engine IDLE, CTRL, STATUS, CMD, IRQ_STATUS and the
scratch 0, OKAY; the parameter registers are kept always, and on an idle engine everything R482 does not clear; a new
command is accepted at once. -/
def Obligations.SoftResetEffect : Prop :=
  ∀ (s : State) (w : Word), w.getLsbD 1 = true →
    ∃ t, busAccess s (memWrite s.params 0x008 w) = .next t ∧ t.resp = some ⟨false, 0#32⟩ ∧
      t.busy = false ∧ t.readLoc .ctrl = 0#32 ∧ t.readLoc .status = 0#32 ∧ t.readLoc .cmd = 0#32 ∧
      t.readLoc .irqStatus = 0#32 ∧ t.irq = false ∧ t.scratch = 0 ∧
      s.regs.SameParams t.regs ∧
      (s.busy = false → t.regs = s.regs ∧ t.rng = s.rng) ∧
      ∀ w' : Word, ∃ u, busAccess t (memWrite s.params 0x010 w') = .next u ∧ u.busy = true ∧ u.cmd = w'

/-- A soft reset that aborts a command other than ZEROIZE changes nothing but the destination that the command would
write: integer register d (still below 2^MAXBITS), or buffer d's bytes [0, BUFBYTES) and its BLEN; nothing for MRTEST,
PSSVER, NOP and a word that decodes to no command (which commits nothing, R239). No completion happens: DONE, DONE_P and
ERRCODE read 0 (R483). -/
def Obligations.AbortScramblesOnlyDestination : Prop :=
  ∀ (s : State) (snap : Snapshot), s.inflight = some snap →
    (∀ d : Field,
      ((∃ a b c, decode snap.word = .ok (.montmul d a b c)) ∨ (∃ c, decode snap.word = .ok (.montr2 d c)) ∨
        (∃ a b c, decode snap.word = .ok (.modexp d a b c)) ∨ ∃ a, decode snap.word = .ok (.os2ip d a)) →
      s.softReset.regs = { s.regs with v := s.softReset.regs.v } ∧
      (∀ i, i ≠ d → s.softReset.regs.getV i = s.regs.getV i) ∧ s.softReset.regs.getV d < 2 ^ s.params.maxbits) ∧
    (∀ d : Field,
      ((∃ a, decode snap.word = .ok (.i2osp d a)) ∨ (∃ a, decode snap.word = .ok (.mgf1 d a)) ∨
        ∃ a, decode snap.word = .ok (.pssenc d a)) →
      s.softReset.regs = { s.regs with mem := s.softReset.regs.mem, blen := s.softReset.regs.blen } ∧
      (∀ i, i ≠ d → s.softReset.regs.getLen i = s.regs.getLen i) ∧
      ∀ a, (a < bufOffset d.toNat ∨ bufOffset d.toNat + s.params.bufBytes ≤ a) →
        Memory.read s.softReset.regs.mem a = Memory.read s.regs.mem a) ∧
    (((∃ a, decode snap.word = .ok (.mrtest a)) ∨ (∃ a b, decode snap.word = .ok (.pssver a b)) ∨
        decode snap.word = .ok .nop ∨ ∃ c, decode snap.word = .error c) → s.softReset.regs = s.regs) ∧
    s.softReset.done = false ∧ s.softReset.doneP = false ∧ errByte s.softReset.errcode = 0x00#8

/-- A soft reset that aborts ZEROIZE leaves each word of a V or B window, and each BLEN, as it was at acceptance or 0;
the parameter registers are kept (R484). -/
def Obligations.AbortedZeroizeKeepsOrClears : Prop :=
  ∀ (s : State) (snap : Snapshot), s.inflight = some snap → decode snap.word = .ok .zeroize →
    (∀ (i : Field) (j : Nat), limb (s.softReset.regs.getV i) j = limb (snap.regs.getV i) j ∨
      limb (s.softReset.regs.getV i) j = 0#32) ∧
    (∀ a, a % 4 = 0 →
      (∀ k, k < 4 → Memory.read s.softReset.regs.mem (a + k) = Memory.read snap.regs.mem (a + k)) ∨
      ∀ k, k < 4 → Memory.read s.softReset.regs.mem (a + k) = 0#8) ∧
    (∀ j : Field, s.softReset.regs.getLen j = snap.regs.getLen j ∨ s.softReset.regs.getLen j = 0) ∧
    s.regs.SameParams s.softReset.regs

/-! ### Commands as transactions -/

/-- A command is one atomic transaction (40_command_execution.md R243): if it would end at once, then after any number of
host accesses (CMD writes and writes of operands among them) and of bytes delivered by the RNG port, but no reset and no
falling silent of the HASH port (log entry 2), it ends with the same registers, error code and result. -/
def Obligations.CommandIsAtomicTransaction : Prop :=
  ∀ (s t : State) (events : List Event), s.busy = true → engineStep s = .next t → t.busy = false →
    (∀ e ∈ events, Event.harmless s.params e) →
    ∃ u : State, Sys2Proof.core.run (events.length + 1) (s.withAgenda (events ++ [.engine])) = .next u ∧
      u.regs = t.regs ∧ u.errcode = t.errcode ∧ u.result = t.result ∧ u.busy = false ∧ u.done = true

/-- A command computes from the snapshot, not from the registers of the moment (R235): of two states with the same
snapshot inputs, build and ports, both end or neither, with the same code and result, and what one writes to an
integer register or buffer byte that it changes is what the other holds there. -/
def Obligations.CommandReadsOnlyItsSnapshot : Prop :=
  ∀ (i : Instr) (s s' t : State) (snap : Snapshot), s.inflight = some snap → s'.inflight = some snap →
    s'.params = s.params → s'.rng = s.rng → s'.hashServes = s.hashServes → exec i s = .next t → t.busy = false →
    ∃ t', exec i s' = .next t' ∧ t'.busy = false ∧ t'.errcode = t.errcode ∧ t'.result = t.result ∧ t'.rng = t.rng ∧
      (∀ j : Field, t.regs.getV j ≠ s.regs.getV j → t'.regs.getV j = t.regs.getV j) ∧
      (∀ j : Field, t.regs.getLen j ≠ s.regs.getLen j → t'.regs.getLen j = t.regs.getLen j) ∧
      (Memory.wf s.regs.mem → Memory.wf s'.regs.mem → ∀ a, Memory.read t.regs.mem a ≠ Memory.read s.regs.mem a →
        Memory.read t'.regs.mem a = Memory.read t.regs.mem a)

/-- A command that ends with an error completes with that code and commits nothing: every V, buffer byte, BLEN and
parameter register holds what it held, and that is what it held at acceptance (R239). -/
def Obligations.ErrorCommitsNothing : Prop :=
  ∀ (s t : State), s.busy = true → engineStep s = .next t → t.busy = false → t.errcode ≠ .ok →
    s.Completed t t.errcode false ∧ t.regs = s.regs ∧
      (s.Inv → ∀ snap, s.inflight = some snap → t.regs = snap.regs)

/-- With legal parameters no command faults or is refused; so the fail branch of the MGF1 function is never taken
(45_mgf1.md R362). -/
def Obligations.CommandsNeverFault : Prop :=
  ∀ (i : Instr) (s : State), s.params.legal → ∃ t, exec i s = .next t

/-! ### Control commands -/

/-- NOP completes and changes no register (47_control.md R420). ZEROIZE completes with every integer register, buffer
byte and BLEN 0; the parameter registers and every byte outside the buffers are unchanged (R421). -/
def Obligations.ControlCommandResults : Prop :=
  (∀ s : State, ∃ t, exec .nop s = .next t ∧ s.Completed t .ok false ∧ t.regs = s.regs ∧ t.rng = s.rng) ∧
  ∀ s : State, ∃ t, exec .zeroize s = .next t ∧ s.Completed t .ok false ∧ t.rng = s.rng ∧
    (∀ i : Field, t.regs.getV i = 0) ∧
    (∀ j : Field, t.regs.getLen j = 0) ∧
    (∀ (j : Field) (k : Nat), j.toNat < 4 → k < s.params.bufBytes → t.regs.getByte j k = 0#8) ∧
    (∀ a, (∀ j, j < 4 → a < bufOffset j ∨ bufOffset j + s.params.bufBytes ≤ a) →
      Memory.read t.regs.mem a = Memory.read s.regs.mem a) ∧
    s.regs.SameParams t.regs

/-! ### Modular arithmetic -/

/-- The Montgomery radix (41_montgomery.md R270), for every modulus an integer register holds, with the rule's
examples. -/
def Obligations.MontgomeryRadix : Prop :=
  (∀ n l : Nat, 1 ≤ n → n < 2 ^ (32 * l) →
    montRadix n = 2 ^ (32 * montLimbs n) ∧ montLimbs n = (bitlen n + 31) / 32 ∧
    1 ≤ montLimbs n ∧ montLimbs n ≤ l ∧ n < montRadix n ∧ (n % 2 = 1 → Nat.Coprime (montRadix n) n)) ∧
  montRadix 497 = 2 ^ 32 ∧ montRadix (2 ^ 32 - 1) = 2 ^ 32 ∧ montRadix (2 ^ 32 + 1) = 2 ^ 64 ∧
    montRadix (2 ^ 33 + 1) = 2 ^ 64

/-- MONTMUL on an odd modulus n > 0 and operands below it (R271): V[D] ← the r < n with r·R(n) ≡ a·b (mod n), that is
a·b·R(n)⁻¹ mod n. -/
def Obligations.MontmulResult : Prop :=
  ∀ (d a b c : Field) (s : State), (Instr.montmul d a b c).wf = true →
    s.opV c % 2 = 1 → s.opV a < s.opV c → s.opV b < s.opV c →
    ∃ t r, exec (.montmul d a b c) s = .next t ∧ s.Completed t .ok false ∧ t.rng = s.rng ∧
      t.regs.getV d = r ∧ r < s.opV c ∧ r * montRadix (s.opV c) % s.opV c = s.opV a * s.opV b % s.opV c

/-- MONTR2 on an odd modulus n (R272): V[D] ← R(n)² mod n. -/
def Obligations.Montr2Result : Prop :=
  ∀ (d c : Field) (s : State), (Instr.montr2 d c).wf = true → s.opV c % 2 = 1 →
    ∃ t, exec (.montr2 d c) s = .next t ∧ s.Completed t .ok false ∧ t.rng = s.rng ∧
      t.regs.getV d = 2 ^ (64 * ((bitlen (s.opV c) + 31) / 32)) % s.opV c

/-- MODEXP on any modulus m ≥ 1 (42_modexp.md R290): V[D] ← x^e mod m, with x^0 = 1. -/
def Obligations.ModexpResult : Prop :=
  ∀ (d a b c : Field) (s : State), (Instr.modexp d a b c).wf = true → 1 ≤ s.opV c →
    ∃ t, exec (.modexp d a b c) s = .next t ∧ s.Completed t .ok false ∧ t.rng = s.rng ∧
      t.regs.getV d = s.opV a ^ s.opV b % s.opV c

/-- The identities of the Montgomery domain (41_montgomery.md R273), on the functions MONTMUL and MONTR2 compute. -/
def Obligations.MontgomeryIdentities : Prop :=
  ∀ n x y : Nat, n % 2 = 1 → x < n → y < n →
    montProduct x (montRadix n ^ 2 % n) n = x * montRadix n % n ∧
    montProduct (x * montRadix n % n) (y * montRadix n % n) n = x * y * montRadix n % n ∧
    (1 < n → montProduct (x * montRadix n % n) 1 n = x ∧
      montProduct (x * y * montRadix n % n) 1 n = x * y % n)

/-! ### Conversion -/

/-- I2OSP when len ≤ BUFBYTES and x < 256^len (43_conversion.md R310): byte i of buffer D ← (x / 256^(len−1−i)) mod 256,
BLEN[D] ← len, the buffer's other bytes unchanged. -/
def Obligations.I2ospResult : Prop :=
  ∀ (d a : Field) (s : State), (Instr.i2osp d a).wf = true → s.params.legal → Memory.wf s.regs.mem →
    s.outLen ≤ s.params.bufBytes → s.opV a < 256 ^ s.outLen →
    ∃ t, exec (.i2osp d a) s = .next t ∧ s.Completed t .ok false ∧ t.rng = s.rng ∧
      (∀ i, i < s.outLen → (t.regs.getByte d i).toNat = s.opV a / 256 ^ (s.outLen - 1 - i) % 256) ∧
      (∀ k, s.outLen ≤ k → t.regs.getByte d k = s.regs.getByte d k) ∧
      t.regs.getLen d = s.outLen

/-- OS2IP when BLEN[A] ≤ BUFBYTES (43_conversion.md R311): V[D] ← Σ B[A][i]·256^(n−1−i) over i < n = BLEN[A], which is
below 256^n. -/
def Obligations.Os2ipResult : Prop :=
  ∀ (d a : Field) (s : State), (Instr.os2ip d a).wf = true → s.opLen a ≤ s.params.bufBytes →
    ∃ t, exec (.os2ip d a) s = .next t ∧ s.Completed t .ok false ∧ t.rng = s.rng ∧
      t.regs.getV d =
        ((List.range (s.opLen a)).map fun i => (s.inputs.getByte a i).toNat * 256 ^ (s.opLen a - 1 - i)).sum ∧
      t.regs.getV d < 256 ^ s.opLen a

/-- The round trips of the two conversions (43_conversion.md R312). -/
def Obligations.ConversionRoundTrip : Prop :=
  (∀ x len : Nat, x < 256 ^ len → os2ip (i2osp x len) = x) ∧ ∀ s : List Byte, i2osp (os2ip s) s.length = s

/-- The errors of the modular commands, the conversions and MGF1, in the check order of 60_exceptions.md R444: E_LEN,
E_MOD_ZERO, E_MOD_EVEN, E_RANGE (R271, R272, R290, R310, R311, R361); nothing is committed. -/
def Obligations.OperandErrors : Prop :=
  (∀ (d a b c : Field) (s : State), (Instr.montmul d a b c).wf = true →
    (s.opV c = 0 → ∃ t, exec (.montmul d a b c) s = .next t ∧ s.Completed t .modZero false ∧ t.regs = s.regs) ∧
    (s.opV c ≠ 0 → s.opV c % 2 = 0 →
      ∃ t, exec (.montmul d a b c) s = .next t ∧ s.Completed t .modEven false ∧ t.regs = s.regs) ∧
    (s.opV c % 2 = 1 → s.opV c ≤ s.opV a ∨ s.opV c ≤ s.opV b →
      ∃ t, exec (.montmul d a b c) s = .next t ∧ s.Completed t .range false ∧ t.regs = s.regs)) ∧
  (∀ (d c : Field) (s : State), (Instr.montr2 d c).wf = true →
    (s.opV c = 0 → ∃ t, exec (.montr2 d c) s = .next t ∧ s.Completed t .modZero false ∧ t.regs = s.regs) ∧
    (s.opV c ≠ 0 → s.opV c % 2 = 0 →
      ∃ t, exec (.montr2 d c) s = .next t ∧ s.Completed t .modEven false ∧ t.regs = s.regs)) ∧
  (∀ (d a b c : Field) (s : State), (Instr.modexp d a b c).wf = true → s.opV c = 0 →
    ∃ t, exec (.modexp d a b c) s = .next t ∧ s.Completed t .modZero false ∧ t.regs = s.regs) ∧
  (∀ (d a : Field) (s : State), (Instr.i2osp d a).wf = true →
    (s.params.bufBytes < s.outLen →
      ∃ t, exec (.i2osp d a) s = .next t ∧ s.Completed t .len false ∧ t.regs = s.regs) ∧
    (s.outLen ≤ s.params.bufBytes → 256 ^ s.outLen ≤ s.opV a →
      ∃ t, exec (.i2osp d a) s = .next t ∧ s.Completed t .range false ∧ t.regs = s.regs)) ∧
  (∀ (d a : Field) (s : State), (Instr.os2ip d a).wf = true → s.params.bufBytes < s.opLen a →
    ∃ t, exec (.os2ip d a) s = .next t ∧ s.Completed t .len false ∧ t.regs = s.regs) ∧
  ∀ (d a : Field) (s : State), (Instr.mgf1 d a).wf = true →
    s.params.bufBytes < s.opLen a ∨ s.params.bufBytes < s.maskLen →
    ∃ t, exec (.mgf1 d a) s = .next t ∧ s.Completed t .len false ∧ t.regs = s.regs

/-! ### Primality -/

/-- MRTEST without rounds (44_primality.md R330, R331): t = 0 gives E_PARAM; else n < 2 is composite, 2 and 3 prime, every
other even n composite; no RNG byte is taken and no register written. -/
def Obligations.MrtestScreening : Prop :=
  ∀ (a : Field) (s : State), (Instr.mrtest a).wf = true →
    (s.rounds = 0 →
      ∃ t, exec (.mrtest a) s = .next t ∧ s.Completed t .param false ∧ t.regs = s.regs ∧ t.rng = s.rng) ∧
    (s.rounds ≠ 0 → (s.opV a < 4 ∨ s.opV a % 2 = 0) →
      ∃ t, exec (.mrtest a) s = .next t ∧
        s.Completed t .ok (decide (s.opV a = 2 ∨ s.opV a = 3)) ∧ t.regs = s.regs ∧ t.rng = s.rng)

/-- The decomposition (R332): for odd n ≥ 5 it is the unique (s, d) with s ≥ 1, d odd and n − 1 = 2^s·d. -/
def Obligations.DecomposeUnique : Prop :=
  (∀ n : Nat, n % 2 = 1 → 5 ≤ n →
    (1 ≤ (decompose n).1 ∧ (decompose n).2 % 2 = 1 ∧ n - 1 = 2 ^ (decompose n).1 * (decompose n).2) ∧
    ∀ s d : Nat, 1 ≤ s → d % 2 = 1 → n - 1 = 2 ^ s * d → (s, d) = decompose n) ∧
  decompose 561 = (4, 35)

/-- A round passes exactly if a^d ≡ 1, or a^(2^r·d) ≡ −1 (mod n) for some r < s (R334). -/
def Obligations.RoundTestMeaning : Prop :=
  ∀ n s d a : Nat, 1 ≤ s →
    (mrRound n s d a = true ↔ a ^ d % n = 1 ∨ ∃ r, r < s ∧ a ^ (2 ^ r * d) % n = n - 1)

/-- A witness draw (R333) on the bytes the port has delivered. The witness is the first attempt, of at most the given
number, whose bytes, big-endian and reduced mod 2^bitlen(n), lie in [2, n−2]; the bytes of the attempts made are taken.
It is exhausted if every attempt had its bytes and was rejected, and all their bytes are taken. It awaits the port if
some attempt, all before it rejected, lacks bytes (log entry 3). -/
def Obligations.WitnessDrawMeaning : Prop :=
  ∀ (attempts n : Nat) (bytes : List Byte),
    let nb := (bitlen n + 7) / 8
    let drawn := fun k => os2ip ((bytes.drop (k * nb)).take nb) % 2 ^ bitlen n
    (∀ w rest, drawWitness attempts n bytes = .witness w rest ↔
      2 ≤ w ∧ w ≤ n - 2 ∧
      ∃ k, k < attempts ∧ (k + 1) * nb ≤ bytes.length ∧ rest = bytes.drop ((k + 1) * nb) ∧ w = drawn k ∧
        ∀ j, j < k → ¬(2 ≤ drawn j ∧ drawn j ≤ n - 2)) ∧
    (∀ rest, drawWitness attempts n bytes = .exhausted rest ↔
      rest = bytes.drop (attempts * nb) ∧
      ∀ j, j < attempts → (j + 1) * nb ≤ bytes.length ∧ ¬(2 ≤ drawn j ∧ drawn j ≤ n - 2)) ∧
    (drawWitness attempts n bytes = .awaiting ↔
      ∃ k, k < attempts ∧ bytes.length < (k + 1) * nb ∧
        ∀ j, j < k → (j + 1) * nb ≤ bytes.length ∧ ¬(2 ≤ drawn j ∧ drawn j ≤ n - 2))

/-- MRTEST never calls a prime composite: for a prime candidate, whatever bytes the port has delivered, it ends with
RESULT = 1, or with E_RNG, or waits for the port (R336). -/
def Obligations.MrtestNeverRejectsPrime : Prop :=
  ∀ (a : Field) (s : State), (Instr.mrtest a).wf = true → s.rounds ≠ 0 → Nat.Prime (s.opV a) →
    ∃ t, exec (.mrtest a) s = .next t ∧ (s.Completed t .ok true ∨ s.Completed t .rng false ∨ t = s)

/-- MRTEST ends as soon as the port has delivered t·MR_RETRY·ceil(bitlen(n)/8) bytes, and takes no more than that
(40_command_execution.md R241; log entry 3): with the verdict of the rounds, or E_RNG; no register is written. -/
def Obligations.MrtestCompletesOnceBytesDelivered : Prop :=
  ∀ (a : Field) (s : State), (Instr.mrtest a).wf = true → s.rounds ≠ 0 →
    s.rounds * s.params.mrRetry * ((bitlen (s.opV a) + 7) / 8) ≤ s.rng.length →
    ∃ t taken, exec (.mrtest a) s = .next t ∧ t.regs = s.regs ∧
      (s.Completed t .ok true ∨ s.Completed t .ok false ∨ s.Completed t .rng false) ∧
      t.rng = s.rng.drop taken ∧ taken ≤ s.rounds * s.params.mrRetry * ((bitlen (s.opV a) + 7) / 8)

/-- The rounds of MRTEST on an odd candidate n ≥ 5, one at a time (R330, R333, R335). If the first draw is exhausted, it
ends with E_RNG; if the draw awaits bytes, MRTEST waits, and nothing changes (70_reset_and_hazards.md R493; log entry 3).
Else the first witness decides: if its round fails, the result is 0 and only its bytes are taken; if it passes and no
round is left, the result is 1; if it passes and rounds are left, MRTEST ends, or waits, as it does with one round less
on the bytes that are left. -/
def Obligations.MrtestRoundByRound : Prop :=
  ∀ (a : Field) (s : State), (Instr.mrtest a).wf = true → 5 ≤ s.opV a → s.opV a % 2 = 1 → s.rounds ≠ 0 →
    (∀ rest, drawWitness s.params.mrRetry (s.opV a) s.rng = .exhausted rest →
      ∃ t, exec (.mrtest a) s = .next t ∧ s.Completed t .rng false ∧ t.regs = s.regs ∧ t.rng = rest) ∧
    (drawWitness s.params.mrRetry (s.opV a) s.rng = .awaiting → exec (.mrtest a) s = .next s) ∧
    ∀ (w : Nat) (rest : List Byte), drawWitness s.params.mrRetry (s.opV a) s.rng = .witness w rest →
      (mrRound (s.opV a) (decompose (s.opV a)).1 (decompose (s.opV a)).2 w = false →
        ∃ t, exec (.mrtest a) s = .next t ∧ s.Completed t .ok false ∧ t.rng = rest) ∧
      (mrRound (s.opV a) (decompose (s.opV a)).1 (decompose (s.opV a)).2 w = true → s.rounds = 1 →
        ∃ t, exec (.mrtest a) s = .next t ∧ s.Completed t .ok true ∧ t.rng = rest) ∧
      (mrRound (s.opV a) (decompose (s.opV a)).1 (decompose (s.opV a)).2 w = true →
        ∀ s' : State, s'.params = s.params → s'.opV a = s.opV a → s'.rounds ≠ 0 → s'.rounds + 1 = s.rounds →
          s'.rng = rest →
          ∃ t t', exec (.mrtest a) s = .next t ∧ exec (.mrtest a) s' = .next t' ∧
            ((t = s ∧ t' = s') ∨
              (s.Completed t t'.errcode t'.result ∧ s'.Completed t' t'.errcode t'.result ∧ t.rng = t'.rng)))

/-! ### MGF1 and PSS -/

/-- MGF1 when BLEN[A] and MGF_LEN are at most BUFBYTES (45_mgf1.md R360, R361): buffer D ← the first maskLen bytes of
HASH(seed || I2OSP(C, 4)) for C = 0, 1, …, BLEN[D] ← maskLen, the buffer's other bytes unchanged. It needs the HASH port,
but for a mask of no bytes: while the port is silent it waits, and nothing changes (70_reset_and_hazards.md R493; log
entry 2). -/
def Obligations.Mgf1Result : Prop :=
  ∀ (d a : Field) (s : State), (Instr.mgf1 d a).wf = true → s.opLen a ≤ s.params.bufBytes →
    s.maskLen ≤ s.params.bufBytes →
    (s.params.legal → Memory.wf s.regs.mem → s.hashServes = true ∨ s.maskLen = 0 →
      ∃ t, exec (.mgf1 d a) s = .next t ∧ s.Completed t .ok false ∧ t.rng = s.rng ∧
        t.regs.getBytes d s.maskLen =
          ((List.range ((s.maskLen + s.params.hlen - 1) / s.params.hlen)).flatMap fun c =>
            Params.hashOf s.params (s.opBuf a ++ i2osp c 4)).take s.maskLen ∧
        t.regs.getLen d = s.maskLen ∧
        ∀ k, s.maskLen ≤ k → t.regs.getByte d k = s.regs.getByte d k) ∧
    (s.hashServes = false → s.maskLen ≠ 0 → exec (.mgf1 d a) s = .next s)

/-- PSSENC when its checks pass, the port has delivered the salt and the HASH port answers (46_pss.md R381, R382): buffer
D ← EM, step for step, with the MGF1 of 45_mgf1.md R360, BLEN[D] ← emLen, the buffer's other bytes unchanged, and exactly
sLen RNG bytes taken. -/
def Obligations.PssencResult : Prop :=
  ∀ (d a : Field) (s : State), (Instr.pssenc d a).wf = true → s.params.legal → Memory.wf s.regs.mem →
    let emLen := (s.modBits - 1 + 7) / 8
    let dbLen := emLen - s.params.hlen - 1
    1 ≤ s.modBits → s.modBits ≤ s.params.maxbits → s.opLen a = s.params.hlen →
    s.params.hlen + s.saltLen + 2 ≤ emLen → s.saltLen ≤ s.rng.length → s.hashServes = true →
    let salt := s.rng.take s.saltLen
    let h := Params.hashOf s.params (List.replicate 8 0#8 ++ s.opBuf a ++ salt)
    let db := List.replicate (emLen - s.saltLen - s.params.hlen - 2) 0#8 ++ [0x01#8] ++ salt
    let dbMask := ((List.range ((dbLen + s.params.hlen - 1) / s.params.hlen)).flatMap fun c =>
      Params.hashOf s.params (h ++ i2osp c 4)).take dbLen
    ∃ t first others, exec (.pssenc d a) s = .next t ∧ s.Completed t .ok false ∧
      List.zipWith (· ^^^ ·) db dbMask = first :: others ∧
      t.regs.getBytes d emLen =
        (first &&& (0xFF#8 >>> (8 * emLen - (s.modBits - 1)))) :: others ++ h ++ [0xBC#8] ∧
      t.regs.getLen d = emLen ∧
      (∀ k, emLen ≤ k → t.regs.getByte d k = s.regs.getByte d k) ∧
      t.rng = s.rng.drop s.saltLen

/-- The errors of PSSENC and PSSVER in check order (R381, R383): E_PARAM, then for PSSENC E_LEN and E_ENCODING; nothing is
committed and no RNG byte taken. PSSENC whose checks pass waits, and nothing changes, while the RNG port has delivered
fewer than sLen bytes or the HASH port is silent (R382; 70_reset_and_hazards.md R493; log entries 2 and 3). -/
def Obligations.PssErrorsAndWait : Prop :=
  (∀ (d a : Field) (s : State), (Instr.pssenc d a).wf = true →
    (s.modBits = 0 ∨ s.params.maxbits < s.modBits →
      ∃ t, exec (.pssenc d a) s = .next t ∧ s.Completed t .param false ∧ t.regs = s.regs ∧ t.rng = s.rng) ∧
    (1 ≤ s.modBits → s.modBits ≤ s.params.maxbits → s.opLen a ≠ s.params.hlen →
      ∃ t, exec (.pssenc d a) s = .next t ∧ s.Completed t .len false ∧ t.regs = s.regs ∧ t.rng = s.rng) ∧
    (1 ≤ s.modBits → s.modBits ≤ s.params.maxbits → s.opLen a = s.params.hlen →
      (s.modBits - 1 + 7) / 8 < s.params.hlen + s.saltLen + 2 →
      ∃ t, exec (.pssenc d a) s = .next t ∧ s.Completed t .encoding false ∧ t.regs = s.regs ∧ t.rng = s.rng) ∧
    (1 ≤ s.modBits → s.modBits ≤ s.params.maxbits → s.opLen a = s.params.hlen →
      s.params.hlen + s.saltLen + 2 ≤ (s.modBits - 1 + 7) / 8 →
      s.rng.length < s.saltLen ∨ s.hashServes = false →
      exec (.pssenc d a) s = .next s)) ∧
  ∀ (a b : Field) (s : State), (Instr.pssver a b).wf = true → s.modBits = 0 ∨ s.params.maxbits < s.modBits →
    ∃ t, exec (.pssver a b) s = .next t ∧ s.Completed t .param false ∧ t.regs = s.regs ∧ t.rng = s.rng

/-- Every EM that PSSENC writes ends in 0xBC and is, as an integer, below 2^(modBits − 1), so below every modulus of
bit length modBits (R388). -/
def Obligations.PssencRepresentativeBound : Prop :=
  ∀ (d a : Field) (s t : State), s.params.legal → Memory.wf s.regs.mem → exec (.pssenc d a) s = .next t →
    s.busy = true → t.busy = false → t.errcode = .ok →
    os2ip (t.regs.getBytes d (t.regs.getLen d)) < 2 ^ (s.modBits - 1) ∧
    (∀ n, bitlen n = s.modBits → os2ip (t.regs.getBytes d (t.regs.getLen d)) < n) ∧
    (t.regs.getBytes d (t.regs.getLen d)).getLast? = some 0xBC#8

/-- The outcome of PSSVER on a legal modBits (R383, R384, R386): it raises no error and writes no register. If the lengths
do not agree, RESULT is 0. Else, with the HASH port answering, RESULT is 1 exactly if the four checks pass, DB[0] masked
(conflict C3), with the MGF1 of 45_mgf1.md R360. While the HASH port is silent it waits, and nothing changes, but that a
build may end with 0 at a failed check that needs no HASH call (70_reset_and_hazards.md R493; log entries 2 and 24). -/
def Obligations.PssverOutcome : Prop :=
  ∀ (a b : Field) (s : State), (Instr.pssver a b).wf = true → s.params.legal →
    1 ≤ s.modBits → s.modBits ≤ s.params.maxbits →
    let emLen := (s.modBits - 1 + 7) / 8
    let dbLen := emLen - s.params.hlen - 1
    let topmask := 0xFF#8 >>> (8 * emLen - (s.modBits - 1))
    let agree := s.opLen a = s.params.hlen ∧ s.opLen b = emLen ∧ s.params.hlen + s.saltLen + 2 ≤ emLen
    (¬agree → ∃ t, exec (.pssver a b) s = .next t ∧ s.Completed t .ok false ∧ t.regs = s.regs ∧ t.rng = s.rng) ∧
    (agree → s.hashServes = true →
      ∃ t, exec (.pssver a b) s = .next t ∧ s.Completed t .ok t.result ∧ t.regs = s.regs ∧ t.rng = s.rng ∧
        (t.result = true ↔
          ∃ first others h' x xs salt,
            (first :: others).length = dbLen ∧ h'.length = s.params.hlen ∧ salt.length = s.saltLen ∧
            s.opBuf b = first :: others ++ h' ++ [0xBC#8] ∧
            first &&& ~~~topmask = 0#8 ∧
            List.zipWith (· ^^^ ·) (first :: others)
              (((List.range ((dbLen + s.params.hlen - 1) / s.params.hlen)).flatMap fun c =>
                Params.hashOf s.params (h' ++ i2osp c 4)).take dbLen) = x :: xs ∧
            (x &&& topmask) :: xs =
              List.replicate (emLen - s.saltLen - s.params.hlen - 2) 0#8 ++ [0x01#8] ++ salt ∧
            Params.hashOf s.params (List.replicate 8 0#8 ++ s.opBuf a ++ salt) = h')) ∧
    (agree → s.hashServes = false →
      exec (.pssver a b) s = .next s ∨
      ((s.opBuf b).getLast? ≠ some 0xBC#8 ∨ ∃ first, (s.opBuf b).head? = some first ∧ first &&& ~~~topmask ≠ 0#8) ∧
        ∃ t, exec (.pssver a b) s = .next t ∧ s.Completed t .ok false ∧ t.regs = s.regs ∧ t.rng = s.rng)

/-- The PSS round trip (R387): if PSSENC ends without error and writes EM, then PSSVER, in any later state of the build
with the same modBits and sLen where one buffer holds the mHash and another the EM, gives RESULT = 1; while the HASH port
is silent it waits (70_reset_and_hazards.md R493; log entry 2). -/
def Obligations.PssRoundTrip : Prop :=
  ∀ (d a a' b' : Field) (s t u : State), s.params.legal → Memory.wf s.regs.mem →
    exec (.pssenc d a) s = .next t → s.busy = true → t.busy = false → t.errcode = .ok →
    (Instr.pssver a' b').wf = true → u.params = s.params → u.modBits = s.modBits → u.saltLen = s.saltLen →
    u.opBuf a' = s.opBuf a → u.opBuf b' = t.regs.getBytes d (t.regs.getLen d) →
    (u.hashServes = true → ∃ v, exec (.pssver a' b') u = .next v ∧ u.Completed v .ok true) ∧
    (u.hashServes = false → exec (.pssver a' b') u = .next u)

/-! ### Frames -/

/-- What MONTMUL, MONTR2, MODEXP and OS2IP leave unchanged: every integer register but D, every buffer byte, BLEN and
parameter register, the RNG bytes, and all of the control state but what a completion sets (10_state.md R53, R57). -/
def Obligations.IntegerCommandsFrame : Prop :=
  ∀ (i : Instr) (d : Field) (s t : State),
    (∃ a b c, i = .montmul d a b c) ∨ (∃ c, i = .montr2 d c) ∨ (∃ a b c, i = .modexp d a b c) ∨
      (∃ a, i = .os2ip d a) →
    exec i s = .next t →
    (∀ j : Field, j ≠ d → t.regs.getV j = s.regs.getV j) ∧
    (∀ a, Memory.read t.regs.mem a = Memory.read s.regs.mem a) ∧
    (∀ j : Field, t.regs.getLen j = s.regs.getLen j) ∧
    s.regs.SameParams t.regs ∧ t.rng = s.rng ∧ s.SameControl t

/-- What I2OSP, MGF1 and PSSENC leave unchanged: every integer register and parameter register, every BLEN but D's,
and every byte of memory but the stored ones, which start at buffer D's offset and are OSP_LEN, MGF_LEN or emLen many;
and all of the control state but what a completion sets. I2OSP and MGF1 take no RNG byte. -/
def Obligations.BufferCommandsFrame : Prop :=
  ∀ (i : Instr) (d : Field) (n : Nat) (s t : State), s.params.legal →
    (∃ a, i = .i2osp d a ∧ n = s.outLen) ∨ (∃ a, i = .mgf1 d a ∧ n = s.maskLen) ∨
      (∃ a, i = .pssenc d a ∧ n = emLen s.modBits) →
    exec i s = .next t →
    (∀ j : Field, t.regs.getV j = s.regs.getV j) ∧
    (∀ a, (a < bufOffset d.toNat ∨ bufOffset d.toNat + n ≤ a) →
      Memory.read t.regs.mem a = Memory.read s.regs.mem a) ∧
    (∀ j : Field, j ≠ d → t.regs.getLen j = s.regs.getLen j) ∧
    s.regs.SameParams t.regs ∧ s.SameControl t ∧
    ((∃ a, i = .pssenc d a) ∨ t.rng = s.rng)

/-- NOP, MRTEST and PSSVER write no V, buffer byte, BLEN or parameter register; NOP and PSSVER take no RNG byte; and
none changes the control state but what a completion sets (10_state.md R53, R57). -/
def Obligations.AnswerCommandsFrame : Prop :=
  ∀ (i : Instr) (s t : State),
    i = .nop ∨ (∃ a, i = .mrtest a) ∨ (∃ a b, i = .pssver a b) →
    exec i s = .next t →
    t.regs = s.regs ∧ s.SameControl t ∧ ((∃ a, i = .mrtest a) ∨ t.rng = s.rng)

/-- Memories in canonical form that read the same at every address are the same. That memory has this form is the model's
choice (log entry 6); no rule of the spec speaks of it. -/
def Obligations.CanonicalMemoriesEqual : Prop :=
  ∀ m m' : Memory, m.wf → m'.wf → (∀ a, m.read a = m'.read a) → m = m'
end

