-- ==== Sys2Proof/Laws/Arith.lean ====
section
/-! SUPPORT. Laws of the arithmetic: modular powers, the Montgomery radix, big-endian strings, limbs. -/

namespace Sys2Proof.Machine

theorem lt_two_pow_bitlen (x : Nat) : x < 2 ^ bitlen x := by
  unfold bitlen
  split
  · omega
  · exact Nat.lt_log2_self

theorem two_pow_le_of_bitlen {x : Nat} (h : x ≠ 0) : 2 ^ (bitlen x - 1) ≤ x := by
  simp only [bitlen, h, if_false, Nat.add_sub_cancel]
  exact Nat.log2_self_le h

theorem bitlen_le_of_lt {x k : Nat} (h : x < 2 ^ k) : bitlen x ≤ k := by
  unfold bitlen
  split
  · omega
  · next hx => exact (Nat.log2_lt hx).2 h

theorem le_ceilQuot_mul (a : Nat) {b : Nat} (h : 0 < b) : a ≤ ceilQuot a b * b := by
  have h1 := Nat.div_add_mod (a + b - 1) b
  have h2 := Nat.mod_lt (a + b - 1) h
  rw [Nat.mul_comm] at h1
  unfold ceilQuot
  omega

theorem ceilQuot_le {a b k : Nat} (hb : 0 < b) (h : a ≤ k * b) : ceilQuot a b ≤ k := by
  unfold ceilQuot
  rw [← Nat.lt_succ_iff, Nat.div_lt_iff_lt_mul hb, Nat.succ_mul]
  omega

/-! ### Modular powers -/

theorem modPowBits_eq (k x e m : Nat) (h : e < 2 ^ k) : modPowBits k x e m = x ^ e % m := by
  induction k generalizing x e with
  | zero =>
    obtain rfl : e = 0 := by simpa using h
    simp [modPowBits]
  | succ k ih =>
    have hk : e / 2 < 2 ^ k := by rw [Nat.pow_succ] at h; omega
    have hx : (x * x % m) ^ (e / 2) % m = x ^ (2 * (e / 2)) % m := by
      rw [← Nat.pow_mod, ← pow_two, ← pow_mul]
    simp only [modPowBits, ih _ _ hk, hx]
    split
    · have he : e = 2 * (e / 2) + 1 := by omega
      conv_rhs => rw [he, pow_succ]
      rw [Nat.mul_mod, Nat.mod_mod, ← Nat.mul_mod, Nat.mul_comm]
    · have he : 2 * (e / 2) = e := by omega
      rw [he]

/-- The modular power is the power, reduced (42_modexp.md R290). -/
theorem modPow_eq (x e m : Nat) : modPow x e m = x ^ e % m := modPowBits_eq _ _ _ _ (lt_two_pow_bitlen e)

/-! ### The Montgomery radix -/

theorem lt_montRadix (n : Nat) : n < montRadix n :=
  lt_of_lt_of_le (lt_two_pow_bitlen n) <| Nat.pow_le_pow_right (by omega) <| by
    rw [Nat.mul_comm]; exact le_ceilQuot_mul _ (by omega)

/-- `montRadixInv n` is the inverse of R(n) modulo odd n. -/
theorem montRadix_mul_inv {n : Nat} (h : n % 2 = 1) : montRadixInv n * montRadix n % n = 1 % n := by
  have h2 : ((n + 1) / 2 * 2) % n = 1 % n := by
    have : (n + 1) / 2 * 2 = n + 1 := by omega
    rw [this, Nat.add_mod_left]
  rw [montRadixInv, modPow_eq, montRadix, Nat.mod_mul_mod, ← Nat.mul_pow, Nat.pow_mod, h2, ← Nat.pow_mod,
    one_pow]

theorem montProduct_lt {n : Nat} (a b : Nat) (h : 0 < n) : montProduct a b n < n := Nat.mod_lt _ h

/-- The Montgomery product times R(n) is the product (41_montgomery.md R271). -/
theorem montProduct_mul_radix {n : Nat} (a b : Nat) (h : n % 2 = 1) :
    montProduct a b n * montRadix n % n = a * b % n := by
  rw [montProduct, Nat.mod_mul_mod, Nat.mul_assoc, Nat.mul_mod, montRadix_mul_inv h, ← Nat.mul_mod, Nat.mul_one]

/-! ### Big-endian strings -/

@[simp] theorem zeros_length (k : Nat) : (zeros k).length = k := by simp [zeros]

@[simp] theorem i2osp_length (x len : Nat) : (i2osp x len).length = len := by simp [i2osp]

theorem i2osp_getElem (x len i : Nat) (h : i < (i2osp x len).length) :
    (i2osp x len)[i] = BitVec.ofNat 8 (x / 256 ^ (len - 1 - i) % 256) := by simp [i2osp]

@[simp] theorem os2ip_nil : os2ip [] = 0 := rfl

theorem foldl_os2ip (s : List Byte) (acc : Nat) :
    s.foldl (fun acc b => acc * 256 + b.toNat) acc = acc * 256 ^ s.length + os2ip s := by
  induction s generalizing acc with
  | nil => simp
  | cons b s ih =>
    simp only [os2ip, List.foldl_cons, List.length_cons, Nat.zero_mul, Nat.zero_add]
    rw [ih, ih b.toNat]
    ring

theorem os2ip_cons (b : Byte) (s : List Byte) : os2ip (b :: s) = b.toNat * 256 ^ s.length + os2ip s := by
  simp only [os2ip, List.foldl_cons, Nat.zero_mul, Nat.zero_add]
  exact foldl_os2ip s b.toNat

theorem os2ip_append (s t : List Byte) : os2ip (s ++ t) = os2ip s * 256 ^ t.length + os2ip t := by
  simp only [os2ip, List.foldl_append]
  exact foldl_os2ip t _

/-- A string's integer has no more bytes than the string. -/
theorem os2ip_lt (s : List Byte) : os2ip s < 256 ^ s.length := by
  induction s with
  | nil => simp
  | cons b s ih =>
    have hb : b.toNat ≤ 255 := by have := b.isLt; omega
    rw [os2ip_cons, List.length_cons, Nat.pow_succ]
    nlinarith [Nat.mul_le_mul_right (256 ^ s.length) hb]

/-! ### Limbs -/

theorem limb_toNat (x j : Nat) : (limb x j).toNat = x / 2 ^ (32 * j) % 2 ^ 32 := by simp [limb]

/-- An integer is its limbs above j, limb j, and what lies below. -/
theorem limb_split (x j : Nat) :
    x = (x / 2 ^ (32 * j) / 2 ^ 32 * 2 ^ 32 + (limb x j).toNat) * 2 ^ (32 * j) + x % 2 ^ (32 * j) := by
  rw [limb_toNat, Nat.div_add_mod', Nat.div_add_mod']

/-- Replacing limb j keeps the limbs above and what lies below. -/
theorem setLimb_eq (x j : Nat) (w : Word) :
    setLimb x j w = (x / 2 ^ (32 * j) / 2 ^ 32 * 2 ^ 32 + w.toNat) * 2 ^ (32 * j) + x % 2 ^ (32 * j) := by
  have h := limb_split x j
  simp only [setLimb]
  generalize (limb x j).toNat = l at h ⊢
  generalize x / 2 ^ (32 * j) / 2 ^ 32 * 2 ^ 32 = q at h ⊢
  generalize x % 2 ^ (32 * j) = r at h ⊢
  rw [Nat.add_mul] at h ⊢
  generalize l * 2 ^ (32 * j) = lp at h ⊢
  generalize q * 2 ^ (32 * j) = qp at h ⊢
  generalize w.toNat * 2 ^ (32 * j) = wp at h ⊢
  omega

theorem limb_setLimb_same (x j : Nat) (w : Word) : limb (setLimb x j w) j = w := by
  apply BitVec.eq_of_toNat_eq
  rw [limb_toNat, setLimb_eq, Nat.mul_comm _ (2 ^ (32 * j)), Nat.mul_add_div (by positivity),
    Nat.div_eq_of_lt (Nat.mod_lt _ (by positivity)), Nat.add_zero, Nat.mul_comm, Nat.mul_add_mod]
  exact Nat.mod_eq_of_lt w.isLt

/-- Limb l above j does not depend on limb j, nor one below. -/
theorem limb_other (q r v j l : Nat) (hv : v < 2 ^ 32) (hr : r < 2 ^ (32 * j)) (h : l ≠ j) :
    ((q * 2 ^ 32 + v) * 2 ^ (32 * j) + r) / 2 ^ (32 * l) % 2 ^ 32 =
      (q * 2 ^ 32 * 2 ^ (32 * j) + r) / 2 ^ (32 * l) % 2 ^ 32 := by
  rcases Nat.lt_or_gt_of_ne h with h | h
  · obtain ⟨c, rfl⟩ := Nat.exists_eq_add_of_lt h
    have e : ∀ A : Nat, (A * 2 ^ (32 * (l + c + 1)) + r) / 2 ^ (32 * l) % 2 ^ 32 = r / 2 ^ (32 * l) % 2 ^ 32 := by
      intro A
      rw [show A * 2 ^ (32 * (l + c + 1)) = 2 ^ (32 * l) * (2 ^ 32 * (A * 2 ^ (32 * c))) by ring,
        Nat.mul_add_div (by positivity), Nat.mul_add_mod]
    rw [e, e]
  · obtain ⟨c, rfl⟩ := Nat.exists_eq_add_of_lt h
    have e : ∀ u, u < 2 ^ 32 → ((q * 2 ^ 32 + u) * 2 ^ (32 * j) + r) / 2 ^ (32 * (j + c + 1)) = q / 2 ^ (32 * c) := by
      intro u hu
      rw [show 2 ^ (32 * (j + c + 1)) = 2 ^ (32 * j) * 2 ^ 32 * 2 ^ (32 * c) by ring, ← Nat.div_div_eq_div_mul,
        ← Nat.div_div_eq_div_mul, Nat.mul_comm _ (2 ^ (32 * j)), Nat.mul_add_div (by positivity),
        Nat.div_eq_of_lt hr, Nat.add_zero, Nat.mul_comm q, Nat.mul_add_div (by positivity), Nat.div_eq_of_lt hu,
        Nat.add_zero]
    have e0 := e 0 (by positivity)
    rw [Nat.add_zero] at e0
    rw [e v hv, e0]

theorem limb_setLimb_other (x j l : Nat) (w : Word) (h : l ≠ j) : limb (setLimb x j w) l = limb x l := by
  apply BitVec.eq_of_toNat_eq
  have hr : x % 2 ^ (32 * j) < 2 ^ (32 * j) := Nat.mod_lt _ (by positivity)
  rw [limb_toNat, limb_toNat, setLimb_eq, limb_other _ _ _ _ _ w.isLt hr h]
  conv_rhs => rw [limb_split x j]
  rw [limb_other _ _ _ _ _ (limb x j).isLt hr h]

end Sys2Proof.Machine
end

