-- ==== Sys2Proof/Laws/State.lean ====
section
/-! SUPPORT. What each named update of the state leaves in each field: one lemma per field per update. -/

namespace Sys2Proof.Machine

/-! ### Updates of the state -/

@[simp] theorem State.accept_params (s : State) (w : Word) : (s.accept w).params = s.params := rfl
@[simp] theorem State.accept_regs (s : State) (w : Word) : (s.accept w).regs = s.regs := rfl
@[simp] theorem State.accept_ie (s : State) (w : Word) : (s.accept w).ie = s.ie := rfl
@[simp] theorem State.accept_cmd (s : State) (w : Word) : (s.accept w).cmd = w := rfl
@[simp] theorem State.accept_done (s : State) (w : Word) : (s.accept w).done = false := rfl
@[simp] theorem State.accept_result (s : State) (w : Word) : (s.accept w).result = false := rfl
@[simp] theorem State.accept_errcode (s : State) (w : Word) : (s.accept w).errcode = .ok := rfl
@[simp] theorem State.accept_lastop (s : State) (w : Word) : (s.accept w).lastop = w.extractLsb' 0 8 := rfl
@[simp] theorem State.accept_doneP (s : State) (w : Word) : (s.accept w).doneP = s.doneP := rfl
@[simp] theorem State.accept_ovrP (s : State) (w : Word) : (s.accept w).ovrP = s.ovrP := rfl
@[simp] theorem State.accept_inflight (s : State) (w : Word) : (s.accept w).inflight = some ⟨w, s.regs⟩ := rfl
@[simp] theorem State.accept_scratch (s : State) (w : Word) : (s.accept w).scratch = Config.freeScratch s.draws := rfl
@[simp] theorem State.accept_resp (s : State) (w : Word) : (s.accept w).resp = s.resp := rfl
@[simp] theorem State.accept_hashServes (s : State) (w : Word) : (s.accept w).hashServes = s.hashServes := rfl
@[simp] theorem State.accept_rng (s : State) (w : Word) : (s.accept w).rng = s.rng := rfl
@[simp] theorem State.accept_agenda (s : State) (w : Word) : (s.accept w).agenda = s.agenda := rfl
@[simp] theorem State.accept_draws (s : State) (w : Word) : (s.accept w).draws = s.draws + 1 := rfl

@[simp] theorem State.complete_params (s : State) (c : ErrCode) (r : Bool) : (s.complete c r).params = s.params := rfl
@[simp] theorem State.complete_regs (s : State) (c : ErrCode) (r : Bool) : (s.complete c r).regs = s.regs := rfl
@[simp] theorem State.complete_ie (s : State) (c : ErrCode) (r : Bool) : (s.complete c r).ie = s.ie := rfl
@[simp] theorem State.complete_cmd (s : State) (c : ErrCode) (r : Bool) : (s.complete c r).cmd = s.cmd := rfl
@[simp] theorem State.complete_done (s : State) (c : ErrCode) (r : Bool) : (s.complete c r).done = true := rfl
@[simp] theorem State.complete_result (s : State) (c : ErrCode) (r : Bool) : (s.complete c r).result = r := rfl
@[simp] theorem State.complete_errcode (s : State) (c : ErrCode) (r : Bool) : (s.complete c r).errcode = c := rfl
@[simp] theorem State.complete_lastop (s : State) (c : ErrCode) (r : Bool) : (s.complete c r).lastop = s.lastop := rfl
@[simp] theorem State.complete_doneP (s : State) (c : ErrCode) (r : Bool) : (s.complete c r).doneP = true := rfl
@[simp] theorem State.complete_ovrP (s : State) (c : ErrCode) (r : Bool) : (s.complete c r).ovrP = s.ovrP := rfl
@[simp] theorem State.complete_inflight (s : State) (c : ErrCode) (r : Bool) : (s.complete c r).inflight = none := rfl
@[simp] theorem State.complete_scratch (s : State) (c : ErrCode) (r : Bool) : (s.complete c r).scratch = 0 := rfl
@[simp] theorem State.complete_resp (s : State) (c : ErrCode) (r : Bool) : (s.complete c r).resp = s.resp := rfl
@[simp] theorem State.complete_hashServes (s : State) (c : ErrCode) (r : Bool) : (s.complete c r).hashServes = s.hashServes := rfl
@[simp] theorem State.complete_rng (s : State) (c : ErrCode) (r : Bool) : (s.complete c r).rng = s.rng := rfl
@[simp] theorem State.complete_agenda (s : State) (c : ErrCode) (r : Bool) : (s.complete c r).agenda = s.agenda := rfl
@[simp] theorem State.complete_draws (s : State) (c : ErrCode) (r : Bool) : (s.complete c r).draws = s.draws := rfl

@[simp] theorem State.committed_params (s : State) (e : Effect) : (s.committed e).params = s.params := rfl
@[simp] theorem State.committed_regs (s : State) (e : Effect) : (s.committed e).regs = s.regs.commit s.params e := rfl
@[simp] theorem State.committed_ie (s : State) (e : Effect) : (s.committed e).ie = s.ie := rfl
@[simp] theorem State.committed_cmd (s : State) (e : Effect) : (s.committed e).cmd = s.cmd := rfl
@[simp] theorem State.committed_done (s : State) (e : Effect) : (s.committed e).done = true := rfl
@[simp] theorem State.committed_result (s : State) (e : Effect) : (s.committed e).result = e.result := rfl
@[simp] theorem State.committed_errcode (s : State) (e : Effect) : (s.committed e).errcode = .ok := rfl
@[simp] theorem State.committed_lastop (s : State) (e : Effect) : (s.committed e).lastop = s.lastop := rfl
@[simp] theorem State.committed_doneP (s : State) (e : Effect) : (s.committed e).doneP = true := rfl
@[simp] theorem State.committed_ovrP (s : State) (e : Effect) : (s.committed e).ovrP = s.ovrP := rfl
@[simp] theorem State.committed_inflight (s : State) (e : Effect) : (s.committed e).inflight = none := rfl
@[simp] theorem State.committed_scratch (s : State) (e : Effect) : (s.committed e).scratch = 0 := rfl
@[simp] theorem State.committed_resp (s : State) (e : Effect) : (s.committed e).resp = s.resp := rfl
@[simp] theorem State.committed_hashServes (s : State) (e : Effect) : (s.committed e).hashServes = s.hashServes := rfl
@[simp] theorem State.committed_rng (s : State) (e : Effect) : (s.committed e).rng = s.rng := rfl
@[simp] theorem State.committed_agenda (s : State) (e : Effect) : (s.committed e).agenda = s.agenda := rfl
@[simp] theorem State.committed_draws (s : State) (e : Effect) : (s.committed e).draws = s.draws := rfl

@[simp] theorem State.withRng_params (s : State) (l : List Byte) : (s.withRng l).params = s.params := rfl
@[simp] theorem State.withRng_regs (s : State) (l : List Byte) : (s.withRng l).regs = s.regs := rfl
@[simp] theorem State.withRng_ie (s : State) (l : List Byte) : (s.withRng l).ie = s.ie := rfl
@[simp] theorem State.withRng_cmd (s : State) (l : List Byte) : (s.withRng l).cmd = s.cmd := rfl
@[simp] theorem State.withRng_done (s : State) (l : List Byte) : (s.withRng l).done = s.done := rfl
@[simp] theorem State.withRng_result (s : State) (l : List Byte) : (s.withRng l).result = s.result := rfl
@[simp] theorem State.withRng_errcode (s : State) (l : List Byte) : (s.withRng l).errcode = s.errcode := rfl
@[simp] theorem State.withRng_lastop (s : State) (l : List Byte) : (s.withRng l).lastop = s.lastop := rfl
@[simp] theorem State.withRng_doneP (s : State) (l : List Byte) : (s.withRng l).doneP = s.doneP := rfl
@[simp] theorem State.withRng_ovrP (s : State) (l : List Byte) : (s.withRng l).ovrP = s.ovrP := rfl
@[simp] theorem State.withRng_inflight (s : State) (l : List Byte) : (s.withRng l).inflight = s.inflight := rfl
@[simp] theorem State.withRng_scratch (s : State) (l : List Byte) : (s.withRng l).scratch = s.scratch := rfl
@[simp] theorem State.withRng_resp (s : State) (l : List Byte) : (s.withRng l).resp = s.resp := rfl
@[simp] theorem State.withRng_hashServes (s : State) (l : List Byte) : (s.withRng l).hashServes = s.hashServes := rfl
@[simp] theorem State.withRng_rng (s : State) (l : List Byte) : (s.withRng l).rng = l := rfl
@[simp] theorem State.withRng_agenda (s : State) (l : List Byte) : (s.withRng l).agenda = s.agenda := rfl
@[simp] theorem State.withRng_draws (s : State) (l : List Byte) : (s.withRng l).draws = s.draws := rfl

@[simp] theorem State.withAgenda_params (s : State) (l : List Event) : (s.withAgenda l).params = s.params := rfl
@[simp] theorem State.withAgenda_regs (s : State) (l : List Event) : (s.withAgenda l).regs = s.regs := rfl
@[simp] theorem State.withAgenda_ie (s : State) (l : List Event) : (s.withAgenda l).ie = s.ie := rfl
@[simp] theorem State.withAgenda_cmd (s : State) (l : List Event) : (s.withAgenda l).cmd = s.cmd := rfl
@[simp] theorem State.withAgenda_done (s : State) (l : List Event) : (s.withAgenda l).done = s.done := rfl
@[simp] theorem State.withAgenda_result (s : State) (l : List Event) : (s.withAgenda l).result = s.result := rfl
@[simp] theorem State.withAgenda_errcode (s : State) (l : List Event) : (s.withAgenda l).errcode = s.errcode := rfl
@[simp] theorem State.withAgenda_lastop (s : State) (l : List Event) : (s.withAgenda l).lastop = s.lastop := rfl
@[simp] theorem State.withAgenda_doneP (s : State) (l : List Event) : (s.withAgenda l).doneP = s.doneP := rfl
@[simp] theorem State.withAgenda_ovrP (s : State) (l : List Event) : (s.withAgenda l).ovrP = s.ovrP := rfl
@[simp] theorem State.withAgenda_inflight (s : State) (l : List Event) : (s.withAgenda l).inflight = s.inflight := rfl
@[simp] theorem State.withAgenda_scratch (s : State) (l : List Event) : (s.withAgenda l).scratch = s.scratch := rfl
@[simp] theorem State.withAgenda_resp (s : State) (l : List Event) : (s.withAgenda l).resp = s.resp := rfl
@[simp] theorem State.withAgenda_hashServes (s : State) (l : List Event) : (s.withAgenda l).hashServes = s.hashServes := rfl
@[simp] theorem State.withAgenda_rng (s : State) (l : List Event) : (s.withAgenda l).rng = s.rng := rfl
@[simp] theorem State.withAgenda_agenda (s : State) (l : List Event) : (s.withAgenda l).agenda = l := rfl
@[simp] theorem State.withAgenda_draws (s : State) (l : List Event) : (s.withAgenda l).draws = s.draws := rfl

@[simp] theorem State.deliver_params (s : State) (b : Byte) : (s.deliver b).params = s.params := rfl
@[simp] theorem State.deliver_regs (s : State) (b : Byte) : (s.deliver b).regs = s.regs := rfl
@[simp] theorem State.deliver_ie (s : State) (b : Byte) : (s.deliver b).ie = s.ie := rfl
@[simp] theorem State.deliver_cmd (s : State) (b : Byte) : (s.deliver b).cmd = s.cmd := rfl
@[simp] theorem State.deliver_done (s : State) (b : Byte) : (s.deliver b).done = s.done := rfl
@[simp] theorem State.deliver_result (s : State) (b : Byte) : (s.deliver b).result = s.result := rfl
@[simp] theorem State.deliver_errcode (s : State) (b : Byte) : (s.deliver b).errcode = s.errcode := rfl
@[simp] theorem State.deliver_lastop (s : State) (b : Byte) : (s.deliver b).lastop = s.lastop := rfl
@[simp] theorem State.deliver_doneP (s : State) (b : Byte) : (s.deliver b).doneP = s.doneP := rfl
@[simp] theorem State.deliver_ovrP (s : State) (b : Byte) : (s.deliver b).ovrP = s.ovrP := rfl
@[simp] theorem State.deliver_inflight (s : State) (b : Byte) : (s.deliver b).inflight = s.inflight := rfl
@[simp] theorem State.deliver_scratch (s : State) (b : Byte) : (s.deliver b).scratch = s.scratch := rfl
@[simp] theorem State.deliver_resp (s : State) (b : Byte) : (s.deliver b).resp = s.resp := rfl
@[simp] theorem State.deliver_hashServes (s : State) (b : Byte) : (s.deliver b).hashServes = s.hashServes := rfl
@[simp] theorem State.deliver_rng (s : State) (b : Byte) : (s.deliver b).rng = s.rng ++ [b] := rfl
@[simp] theorem State.deliver_agenda (s : State) (b : Byte) : (s.deliver b).agenda = s.agenda := rfl
@[simp] theorem State.deliver_draws (s : State) (b : Byte) : (s.deliver b).draws = s.draws := rfl

@[simp] theorem State.withHash_params (s : State) (b : Bool) : (s.withHash b).params = s.params := rfl
@[simp] theorem State.withHash_regs (s : State) (b : Bool) : (s.withHash b).regs = s.regs := rfl
@[simp] theorem State.withHash_ie (s : State) (b : Bool) : (s.withHash b).ie = s.ie := rfl
@[simp] theorem State.withHash_cmd (s : State) (b : Bool) : (s.withHash b).cmd = s.cmd := rfl
@[simp] theorem State.withHash_done (s : State) (b : Bool) : (s.withHash b).done = s.done := rfl
@[simp] theorem State.withHash_result (s : State) (b : Bool) : (s.withHash b).result = s.result := rfl
@[simp] theorem State.withHash_errcode (s : State) (b : Bool) : (s.withHash b).errcode = s.errcode := rfl
@[simp] theorem State.withHash_lastop (s : State) (b : Bool) : (s.withHash b).lastop = s.lastop := rfl
@[simp] theorem State.withHash_doneP (s : State) (b : Bool) : (s.withHash b).doneP = s.doneP := rfl
@[simp] theorem State.withHash_ovrP (s : State) (b : Bool) : (s.withHash b).ovrP = s.ovrP := rfl
@[simp] theorem State.withHash_inflight (s : State) (b : Bool) : (s.withHash b).inflight = s.inflight := rfl
@[simp] theorem State.withHash_scratch (s : State) (b : Bool) : (s.withHash b).scratch = s.scratch := rfl
@[simp] theorem State.withHash_resp (s : State) (b : Bool) : (s.withHash b).resp = s.resp := rfl
@[simp] theorem State.withHash_rng (s : State) (b : Bool) : (s.withHash b).rng = s.rng := rfl
@[simp] theorem State.withHash_agenda (s : State) (b : Bool) : (s.withHash b).agenda = s.agenda := rfl
@[simp] theorem State.withHash_draws (s : State) (b : Bool) : (s.withHash b).draws = s.draws := rfl
@[simp] theorem State.withHash_hashServes (s : State) (b : Bool) : (s.withHash b).hashServes = b := rfl

@[simp] theorem State.placeCommand_params (s : State) (w : Word) : (s.placeCommand w).params = s.params := rfl
@[simp] theorem State.placeCommand_regs (s : State) (w : Word) : (s.placeCommand w).regs = s.regs := rfl
@[simp] theorem State.placeCommand_ie (s : State) (w : Word) : (s.placeCommand w).ie = s.ie := rfl
@[simp] theorem State.placeCommand_cmd (s : State) (w : Word) : (s.placeCommand w).cmd = w := rfl
@[simp] theorem State.placeCommand_done (s : State) (w : Word) : (s.placeCommand w).done = false := rfl
@[simp] theorem State.placeCommand_result (s : State) (w : Word) : (s.placeCommand w).result = false := rfl
@[simp] theorem State.placeCommand_errcode (s : State) (w : Word) : (s.placeCommand w).errcode = .ok := rfl
@[simp] theorem State.placeCommand_lastop (s : State) (w : Word) : (s.placeCommand w).lastop = w.extractLsb' 0 8 := rfl
@[simp] theorem State.placeCommand_doneP (s : State) (w : Word) : (s.placeCommand w).doneP = s.doneP := rfl
@[simp] theorem State.placeCommand_ovrP (s : State) (w : Word) : (s.placeCommand w).ovrP = s.ovrP := rfl
@[simp] theorem State.placeCommand_inflight (s : State) (w : Word) : (s.placeCommand w).inflight = some ⟨w, s.regs⟩ := rfl
@[simp] theorem State.placeCommand_scratch (s : State) (w : Word) : (s.placeCommand w).scratch = Config.freeScratch s.draws := rfl
@[simp] theorem State.placeCommand_resp (s : State) (w : Word) : (s.placeCommand w).resp = s.resp := rfl
@[simp] theorem State.placeCommand_hashServes (s : State) (w : Word) : (s.placeCommand w).hashServes = s.hashServes := rfl
@[simp] theorem State.placeCommand_rng (s : State) (w : Word) : (s.placeCommand w).rng = s.rng := rfl
@[simp] theorem State.placeCommand_agenda (s : State) (w : Word) : (s.placeCommand w).agenda = .engine :: s.agenda := rfl
@[simp] theorem State.placeCommand_draws (s : State) (w : Word) : (s.placeCommand w).draws = s.draws + 1 := rfl

@[simp] theorem State.respond_params (s : State) (e : Bool) (d : Word) : (s.respond e d).params = s.params := rfl
@[simp] theorem State.respond_regs (s : State) (e : Bool) (d : Word) : (s.respond e d).regs = s.regs := rfl
@[simp] theorem State.respond_ie (s : State) (e : Bool) (d : Word) : (s.respond e d).ie = s.ie := rfl
@[simp] theorem State.respond_cmd (s : State) (e : Bool) (d : Word) : (s.respond e d).cmd = s.cmd := rfl
@[simp] theorem State.respond_done (s : State) (e : Bool) (d : Word) : (s.respond e d).done = s.done := rfl
@[simp] theorem State.respond_result (s : State) (e : Bool) (d : Word) : (s.respond e d).result = s.result := rfl
@[simp] theorem State.respond_errcode (s : State) (e : Bool) (d : Word) : (s.respond e d).errcode = s.errcode := rfl
@[simp] theorem State.respond_lastop (s : State) (e : Bool) (d : Word) : (s.respond e d).lastop = s.lastop := rfl
@[simp] theorem State.respond_doneP (s : State) (e : Bool) (d : Word) : (s.respond e d).doneP = s.doneP := rfl
@[simp] theorem State.respond_ovrP (s : State) (e : Bool) (d : Word) : (s.respond e d).ovrP = s.ovrP := rfl
@[simp] theorem State.respond_inflight (s : State) (e : Bool) (d : Word) : (s.respond e d).inflight = s.inflight := rfl
@[simp] theorem State.respond_scratch (s : State) (e : Bool) (d : Word) : (s.respond e d).scratch = s.scratch := rfl
@[simp] theorem State.respond_resp (s : State) (e : Bool) (d : Word) : (s.respond e d).resp = some ⟨e, d⟩ := rfl
@[simp] theorem State.respond_hashServes (s : State) (e : Bool) (d : Word) : (s.respond e d).hashServes = s.hashServes := rfl
@[simp] theorem State.respond_rng (s : State) (e : Bool) (d : Word) : (s.respond e d).rng = s.rng := rfl
@[simp] theorem State.respond_agenda (s : State) (e : Bool) (d : Word) : (s.respond e d).agenda = s.agenda := rfl
@[simp] theorem State.respond_draws (s : State) (e : Bool) (d : Word) : (s.respond e d).draws = s.draws := rfl

@[simp] theorem State.clearControl_params (s : State) : (s.clearControl).params = s.params := rfl
@[simp] theorem State.clearControl_regs (s : State) : (s.clearControl).regs = s.regs := rfl
@[simp] theorem State.clearControl_ie (s : State) : (s.clearControl).ie = false := rfl
@[simp] theorem State.clearControl_cmd (s : State) : (s.clearControl).cmd = 0#32 := rfl
@[simp] theorem State.clearControl_done (s : State) : (s.clearControl).done = false := rfl
@[simp] theorem State.clearControl_result (s : State) : (s.clearControl).result = false := rfl
@[simp] theorem State.clearControl_errcode (s : State) : (s.clearControl).errcode = .ok := rfl
@[simp] theorem State.clearControl_lastop (s : State) : (s.clearControl).lastop = 0#8 := rfl
@[simp] theorem State.clearControl_doneP (s : State) : (s.clearControl).doneP = false := rfl
@[simp] theorem State.clearControl_ovrP (s : State) : (s.clearControl).ovrP = false := rfl
@[simp] theorem State.clearControl_inflight (s : State) : (s.clearControl).inflight = none := rfl
@[simp] theorem State.clearControl_scratch (s : State) : (s.clearControl).scratch = 0 := rfl
@[simp] theorem State.clearControl_resp (s : State) : (s.clearControl).resp = s.resp := rfl
@[simp] theorem State.clearControl_hashServes (s : State) : (s.clearControl).hashServes = s.hashServes := rfl
@[simp] theorem State.clearControl_rng (s : State) : (s.clearControl).rng = s.rng := rfl
@[simp] theorem State.clearControl_agenda (s : State) : (s.clearControl).agenda = s.agenda := rfl
@[simp] theorem State.clearControl_draws (s : State) : (s.clearControl).draws = s.draws := rfl

@[simp] theorem State.scrambleV_params (s : State) (d : Field) : (s.scrambleV d).params = s.params := rfl
@[simp] theorem State.scrambleV_regs (s : State) (d : Field) : (s.scrambleV d).regs = s.regs.setV d (freeV s.params s.draws d.toNat) := rfl
@[simp] theorem State.scrambleV_ie (s : State) (d : Field) : (s.scrambleV d).ie = s.ie := rfl
@[simp] theorem State.scrambleV_cmd (s : State) (d : Field) : (s.scrambleV d).cmd = s.cmd := rfl
@[simp] theorem State.scrambleV_done (s : State) (d : Field) : (s.scrambleV d).done = s.done := rfl
@[simp] theorem State.scrambleV_result (s : State) (d : Field) : (s.scrambleV d).result = s.result := rfl
@[simp] theorem State.scrambleV_errcode (s : State) (d : Field) : (s.scrambleV d).errcode = s.errcode := rfl
@[simp] theorem State.scrambleV_lastop (s : State) (d : Field) : (s.scrambleV d).lastop = s.lastop := rfl
@[simp] theorem State.scrambleV_doneP (s : State) (d : Field) : (s.scrambleV d).doneP = s.doneP := rfl
@[simp] theorem State.scrambleV_ovrP (s : State) (d : Field) : (s.scrambleV d).ovrP = s.ovrP := rfl
@[simp] theorem State.scrambleV_inflight (s : State) (d : Field) : (s.scrambleV d).inflight = s.inflight := rfl
@[simp] theorem State.scrambleV_scratch (s : State) (d : Field) : (s.scrambleV d).scratch = s.scratch := rfl
@[simp] theorem State.scrambleV_resp (s : State) (d : Field) : (s.scrambleV d).resp = s.resp := rfl
@[simp] theorem State.scrambleV_hashServes (s : State) (d : Field) : (s.scrambleV d).hashServes = s.hashServes := rfl
@[simp] theorem State.scrambleV_rng (s : State) (d : Field) : (s.scrambleV d).rng = s.rng := rfl
@[simp] theorem State.scrambleV_agenda (s : State) (d : Field) : (s.scrambleV d).agenda = s.agenda := rfl
@[simp] theorem State.scrambleV_draws (s : State) (d : Field) : (s.scrambleV d).draws = s.draws + 1 := rfl

@[simp] theorem State.scrambleB_params (s : State) (d : Field) : (s.scrambleB d).params = s.params := rfl
@[simp] theorem State.scrambleB_regs (s : State) (d : Field) : (s.scrambleB d).regs = (s.regs.setBuf d (freeBuf s.params s.draws d.toNat)).setLen d (Config.freeLength s.draws) := rfl
@[simp] theorem State.scrambleB_ie (s : State) (d : Field) : (s.scrambleB d).ie = s.ie := rfl
@[simp] theorem State.scrambleB_cmd (s : State) (d : Field) : (s.scrambleB d).cmd = s.cmd := rfl
@[simp] theorem State.scrambleB_done (s : State) (d : Field) : (s.scrambleB d).done = s.done := rfl
@[simp] theorem State.scrambleB_result (s : State) (d : Field) : (s.scrambleB d).result = s.result := rfl
@[simp] theorem State.scrambleB_errcode (s : State) (d : Field) : (s.scrambleB d).errcode = s.errcode := rfl
@[simp] theorem State.scrambleB_lastop (s : State) (d : Field) : (s.scrambleB d).lastop = s.lastop := rfl
@[simp] theorem State.scrambleB_doneP (s : State) (d : Field) : (s.scrambleB d).doneP = s.doneP := rfl
@[simp] theorem State.scrambleB_ovrP (s : State) (d : Field) : (s.scrambleB d).ovrP = s.ovrP := rfl
@[simp] theorem State.scrambleB_inflight (s : State) (d : Field) : (s.scrambleB d).inflight = s.inflight := rfl
@[simp] theorem State.scrambleB_scratch (s : State) (d : Field) : (s.scrambleB d).scratch = s.scratch := rfl
@[simp] theorem State.scrambleB_resp (s : State) (d : Field) : (s.scrambleB d).resp = s.resp := rfl
@[simp] theorem State.scrambleB_hashServes (s : State) (d : Field) : (s.scrambleB d).hashServes = s.hashServes := rfl
@[simp] theorem State.scrambleB_rng (s : State) (d : Field) : (s.scrambleB d).rng = s.rng := rfl
@[simp] theorem State.scrambleB_agenda (s : State) (d : Field) : (s.scrambleB d).agenda = s.agenda := rfl
@[simp] theorem State.scrambleB_draws (s : State) (d : Field) : (s.scrambleB d).draws = s.draws + 1 := rfl

@[simp] theorem State.scrambleZeroize_params (s : State) : (s.scrambleZeroize).params = s.params := rfl
@[simp] theorem State.scrambleZeroize_regs (s : State) : (s.scrambleZeroize).regs = s.regs.partZeroize s.params s.inputs (Config.freeKeep s.draws) := rfl
@[simp] theorem State.scrambleZeroize_ie (s : State) : (s.scrambleZeroize).ie = s.ie := rfl
@[simp] theorem State.scrambleZeroize_cmd (s : State) : (s.scrambleZeroize).cmd = s.cmd := rfl
@[simp] theorem State.scrambleZeroize_done (s : State) : (s.scrambleZeroize).done = s.done := rfl
@[simp] theorem State.scrambleZeroize_result (s : State) : (s.scrambleZeroize).result = s.result := rfl
@[simp] theorem State.scrambleZeroize_errcode (s : State) : (s.scrambleZeroize).errcode = s.errcode := rfl
@[simp] theorem State.scrambleZeroize_lastop (s : State) : (s.scrambleZeroize).lastop = s.lastop := rfl
@[simp] theorem State.scrambleZeroize_doneP (s : State) : (s.scrambleZeroize).doneP = s.doneP := rfl
@[simp] theorem State.scrambleZeroize_ovrP (s : State) : (s.scrambleZeroize).ovrP = s.ovrP := rfl
@[simp] theorem State.scrambleZeroize_inflight (s : State) : (s.scrambleZeroize).inflight = s.inflight := rfl
@[simp] theorem State.scrambleZeroize_scratch (s : State) : (s.scrambleZeroize).scratch = s.scratch := rfl
@[simp] theorem State.scrambleZeroize_resp (s : State) : (s.scrambleZeroize).resp = s.resp := rfl
@[simp] theorem State.scrambleZeroize_hashServes (s : State) : (s.scrambleZeroize).hashServes = s.hashServes := rfl
@[simp] theorem State.scrambleZeroize_rng (s : State) : (s.scrambleZeroize).rng = s.rng := rfl
@[simp] theorem State.scrambleZeroize_agenda (s : State) : (s.scrambleZeroize).agenda = s.agenda := rfl
@[simp] theorem State.scrambleZeroize_draws (s : State) : (s.scrambleZeroize).draws = s.draws + 1 := rfl

@[simp] theorem State.dropTaken_params (s : State) (most : Nat) : (s.dropTaken most).params = s.params := rfl
@[simp] theorem State.dropTaken_regs (s : State) (most : Nat) : (s.dropTaken most).regs = s.regs := rfl
@[simp] theorem State.dropTaken_ie (s : State) (most : Nat) : (s.dropTaken most).ie = s.ie := rfl
@[simp] theorem State.dropTaken_cmd (s : State) (most : Nat) : (s.dropTaken most).cmd = s.cmd := rfl
@[simp] theorem State.dropTaken_done (s : State) (most : Nat) : (s.dropTaken most).done = s.done := rfl
@[simp] theorem State.dropTaken_result (s : State) (most : Nat) : (s.dropTaken most).result = s.result := rfl
@[simp] theorem State.dropTaken_errcode (s : State) (most : Nat) : (s.dropTaken most).errcode = s.errcode := rfl
@[simp] theorem State.dropTaken_lastop (s : State) (most : Nat) : (s.dropTaken most).lastop = s.lastop := rfl
@[simp] theorem State.dropTaken_doneP (s : State) (most : Nat) : (s.dropTaken most).doneP = s.doneP := rfl
@[simp] theorem State.dropTaken_ovrP (s : State) (most : Nat) : (s.dropTaken most).ovrP = s.ovrP := rfl
@[simp] theorem State.dropTaken_inflight (s : State) (most : Nat) : (s.dropTaken most).inflight = s.inflight := rfl
@[simp] theorem State.dropTaken_scratch (s : State) (most : Nat) : (s.dropTaken most).scratch = s.scratch := rfl
@[simp] theorem State.dropTaken_resp (s : State) (most : Nat) : (s.dropTaken most).resp = s.resp := rfl
@[simp] theorem State.dropTaken_hashServes (s : State) (most : Nat) : (s.dropTaken most).hashServes = s.hashServes := rfl
@[simp] theorem State.dropTaken_rng (s : State) (most : Nat) : (s.dropTaken most).rng = s.rng.drop (min (Config.freeTaken s.draws) most) := rfl
@[simp] theorem State.dropTaken_agenda (s : State) (most : Nat) : (s.dropTaken most).agenda = s.agenda := rfl
@[simp] theorem State.dropTaken_draws (s : State) (most : Nat) : (s.dropTaken most).draws = s.draws + 1 := rfl

@[simp] theorem State.writeIrqStatus_params (s : State) (w : Word) : (s.writeIrqStatus w).params = s.params := rfl
@[simp] theorem State.writeIrqStatus_regs (s : State) (w : Word) : (s.writeIrqStatus w).regs = s.regs := rfl
@[simp] theorem State.writeIrqStatus_ie (s : State) (w : Word) : (s.writeIrqStatus w).ie = s.ie := rfl
@[simp] theorem State.writeIrqStatus_cmd (s : State) (w : Word) : (s.writeIrqStatus w).cmd = s.cmd := rfl
@[simp] theorem State.writeIrqStatus_done (s : State) (w : Word) : (s.writeIrqStatus w).done = s.done := rfl
@[simp] theorem State.writeIrqStatus_result (s : State) (w : Word) : (s.writeIrqStatus w).result = s.result := rfl
@[simp] theorem State.writeIrqStatus_errcode (s : State) (w : Word) : (s.writeIrqStatus w).errcode = s.errcode := rfl
@[simp] theorem State.writeIrqStatus_lastop (s : State) (w : Word) : (s.writeIrqStatus w).lastop = s.lastop := rfl
@[simp] theorem State.writeIrqStatus_doneP (s : State) (w : Word) : (s.writeIrqStatus w).doneP = (s.doneP && !w.getLsbD 0) := rfl
@[simp] theorem State.writeIrqStatus_ovrP (s : State) (w : Word) : (s.writeIrqStatus w).ovrP = (s.ovrP && !w.getLsbD 1) := rfl
@[simp] theorem State.writeIrqStatus_inflight (s : State) (w : Word) : (s.writeIrqStatus w).inflight = s.inflight := rfl
@[simp] theorem State.writeIrqStatus_scratch (s : State) (w : Word) : (s.writeIrqStatus w).scratch = s.scratch := rfl
@[simp] theorem State.writeIrqStatus_resp (s : State) (w : Word) : (s.writeIrqStatus w).resp = s.resp := rfl
@[simp] theorem State.writeIrqStatus_hashServes (s : State) (w : Word) : (s.writeIrqStatus w).hashServes = s.hashServes := rfl
@[simp] theorem State.writeIrqStatus_rng (s : State) (w : Word) : (s.writeIrqStatus w).rng = s.rng := rfl
@[simp] theorem State.writeIrqStatus_agenda (s : State) (w : Word) : (s.writeIrqStatus w).agenda = s.agenda := rfl
@[simp] theorem State.writeIrqStatus_draws (s : State) (w : Word) : (s.writeIrqStatus w).draws = s.draws := rfl

/-! ### Updates of the register file -/

@[simp] theorem RegFile.setV_v (r : RegFile) (i : Field) (x : Nat) : (r.setV i x).v = r.v.setIfInBounds i.toNat x := rfl
@[simp] theorem RegFile.setV_mem (r : RegFile) (i : Field) (x : Nat) : (r.setV i x).mem = r.mem := rfl
@[simp] theorem RegFile.setV_blen (r : RegFile) (i : Field) (x : Nat) : (r.setV i x).blen = r.blen := rfl
@[simp] theorem RegFile.setV_pssModbits (r : RegFile) (i : Field) (x : Nat) : (r.setV i x).pssModbits = r.pssModbits := rfl
@[simp] theorem RegFile.setV_pssSlen (r : RegFile) (i : Field) (x : Nat) : (r.setV i x).pssSlen = r.pssSlen := rfl
@[simp] theorem RegFile.setV_mrRounds (r : RegFile) (i : Field) (x : Nat) : (r.setV i x).mrRounds = r.mrRounds := rfl
@[simp] theorem RegFile.setV_mgfLen (r : RegFile) (i : Field) (x : Nat) : (r.setV i x).mgfLen = r.mgfLen := rfl
@[simp] theorem RegFile.setV_ospLen (r : RegFile) (i : Field) (x : Nat) : (r.setV i x).ospLen = r.ospLen := rfl

@[simp] theorem RegFile.setLen_v (r : RegFile) (j : Field) (n : BitVec 16) : (r.setLen j n).v = r.v := rfl
@[simp] theorem RegFile.setLen_mem (r : RegFile) (j : Field) (n : BitVec 16) : (r.setLen j n).mem = r.mem := rfl
@[simp] theorem RegFile.setLen_blen (r : RegFile) (j : Field) (n : BitVec 16) : (r.setLen j n).blen = r.blen.setIfInBounds j.toNat n := rfl
@[simp] theorem RegFile.setLen_pssModbits (r : RegFile) (j : Field) (n : BitVec 16) : (r.setLen j n).pssModbits = r.pssModbits := rfl
@[simp] theorem RegFile.setLen_pssSlen (r : RegFile) (j : Field) (n : BitVec 16) : (r.setLen j n).pssSlen = r.pssSlen := rfl
@[simp] theorem RegFile.setLen_mrRounds (r : RegFile) (j : Field) (n : BitVec 16) : (r.setLen j n).mrRounds = r.mrRounds := rfl
@[simp] theorem RegFile.setLen_mgfLen (r : RegFile) (j : Field) (n : BitVec 16) : (r.setLen j n).mgfLen = r.mgfLen := rfl
@[simp] theorem RegFile.setLen_ospLen (r : RegFile) (j : Field) (n : BitVec 16) : (r.setLen j n).ospLen = r.ospLen := rfl

@[simp] theorem RegFile.setBuf_v (r : RegFile) (j : Field) (b : List Byte) : (r.setBuf j b).v = r.v := rfl
@[simp] theorem RegFile.setBuf_mem (r : RegFile) (j : Field) (b : List Byte) : (r.setBuf j b).mem = Memory.writeBytes r.mem (bufOffset j.toNat) b := rfl
@[simp] theorem RegFile.setBuf_blen (r : RegFile) (j : Field) (b : List Byte) : (r.setBuf j b).blen = r.blen.setIfInBounds j.toNat (BitVec.ofNat 16 b.length) := rfl
@[simp] theorem RegFile.setBuf_pssModbits (r : RegFile) (j : Field) (b : List Byte) : (r.setBuf j b).pssModbits = r.pssModbits := rfl
@[simp] theorem RegFile.setBuf_pssSlen (r : RegFile) (j : Field) (b : List Byte) : (r.setBuf j b).pssSlen = r.pssSlen := rfl
@[simp] theorem RegFile.setBuf_mrRounds (r : RegFile) (j : Field) (b : List Byte) : (r.setBuf j b).mrRounds = r.mrRounds := rfl
@[simp] theorem RegFile.setBuf_mgfLen (r : RegFile) (j : Field) (b : List Byte) : (r.setBuf j b).mgfLen = r.mgfLen := rfl
@[simp] theorem RegFile.setBuf_ospLen (r : RegFile) (j : Field) (b : List Byte) : (r.setBuf j b).ospLen = r.ospLen := rfl

@[simp] theorem RegFile.zeroize_v (r : RegFile) (p : Params) : (r.zeroize p).v = Vector.replicate 8 0 := rfl
@[simp] theorem RegFile.zeroize_mem (r : RegFile) (p : Params) : (r.zeroize p).mem = r.mem.clearBuffers p.bufBytes := rfl
@[simp] theorem RegFile.zeroize_blen (r : RegFile) (p : Params) : (r.zeroize p).blen = Vector.replicate 4 0#16 := rfl
@[simp] theorem RegFile.zeroize_pssModbits (r : RegFile) (p : Params) : (r.zeroize p).pssModbits = r.pssModbits := rfl
@[simp] theorem RegFile.zeroize_pssSlen (r : RegFile) (p : Params) : (r.zeroize p).pssSlen = r.pssSlen := rfl
@[simp] theorem RegFile.zeroize_mrRounds (r : RegFile) (p : Params) : (r.zeroize p).mrRounds = r.mrRounds := rfl
@[simp] theorem RegFile.zeroize_mgfLen (r : RegFile) (p : Params) : (r.zeroize p).mgfLen = r.mgfLen := rfl
@[simp] theorem RegFile.zeroize_ospLen (r : RegFile) (p : Params) : (r.zeroize p).ospLen = r.ospLen := rfl

/-! ### The engine's views -/

@[simp] theorem State.busy_accept (s : State) (w : Word) : (s.accept w).busy = true := rfl
@[simp] theorem State.busy_complete (s : State) (c : ErrCode) (r : Bool) : (s.complete c r).busy = false := rfl
@[simp] theorem State.busy_committed (s : State) (e : Effect) : (s.committed e).busy = false := rfl
@[simp] theorem State.busy_withRng (s : State) (l : List Byte) : (s.withRng l).busy = s.busy := rfl
@[simp] theorem State.busy_withAgenda (s : State) (l : List Event) : (s.withAgenda l).busy = s.busy := rfl
@[simp] theorem State.busy_withHash (s : State) (b : Bool) : (s.withHash b).busy = s.busy := rfl
@[simp] theorem State.busy_respond (s : State) (e : Bool) (d : Word) : (s.respond e d).busy = s.busy := rfl
@[simp] theorem State.busy_clearControl (s : State) : s.clearControl.busy = false := rfl
@[simp] theorem State.inputs_accept (s : State) (w : Word) : (s.accept w).inputs = s.regs := rfl
@[simp] theorem State.inputs_withRng (s : State) (l : List Byte) : (s.withRng l).inputs = s.inputs := rfl
@[simp] theorem State.inputs_withAgenda (s : State) (l : List Event) : (s.withAgenda l).inputs = s.inputs := rfl
@[simp] theorem State.inputs_withHash (s : State) (b : Bool) : (s.withHash b).inputs = s.inputs := rfl

/-- A running command reads its snapshot. -/
theorem State.inputs_of_inflight {s : State} {snap : Snapshot} (h : s.inflight = some snap) :
    s.inputs = snap.regs := by
  simp [State.inputs, h]

/-- Under the invariant, a command reads what the registers hold (10_state.md R85). -/
theorem State.inputs_eq_regs {s : State} (h : s.Inv) : s.inputs = s.regs := by
  unfold State.inputs
  split
  · exact (h.snapshot _ ‹_›).2
  · rfl

/-! ### Reading registers after an update -/

theorem RegFile.getV_setV_same (r : RegFile) {i : Field} (h : i.toNat < 8) (x : Nat) :
    (r.setV i x).getV i = x := by
  simp [RegFile.getV, h]

theorem RegFile.getV_setV_other (r : RegFile) {i j : Field} (h : i ≠ j) (x : Nat) :
    (r.setV i x).getV j = r.getV j := by
  have : i.toNat ≠ j.toNat := fun e => h (BitVec.eq_of_toNat_eq e)
  simp [RegFile.getV, Vector.getElem?_setIfInBounds_ne this]

@[simp] theorem RegFile.getV_setBuf (r : RegFile) (i j : Field) (b : List Byte) :
    (r.setBuf j b).getV i = r.getV i := rfl

@[simp] theorem RegFile.getLen_setV (r : RegFile) (i j : Field) (x : Nat) :
    (r.setV i x).getLen j = r.getLen j := rfl

@[simp] theorem RegFile.getByte_setV (r : RegFile) (i j : Field) (x k : Nat) :
    (r.setV i x).getByte j k = r.getByte j k := rfl

theorem RegFile.getLen_setBuf_same (r : RegFile) {j : Field} (h : j.toNat < 4) (b : List Byte) :
    (r.setBuf j b).getLen j = b.length % 65536 := by
  simp [RegFile.getLen, h]

theorem RegFile.getLen_setBuf_other (r : RegFile) {i j : Field} (h : j ≠ i) (b : List Byte) :
    (r.setBuf j b).getLen i = r.getLen i := by
  have : j.toNat ≠ i.toNat := fun e => h (BitVec.eq_of_toNat_eq e)
  simp [RegFile.getLen, Vector.getElem?_setIfInBounds_ne this]

end Sys2Proof.Machine
end

