-- ==== Sys2Proof/Laws/Bus.lean ====
section
/-! SUPPORT. What one host access, and one step, can do, said once. -/

namespace Sys2Proof.Machine

/-- How a host access that gives a next state was answered. -/
inductive Served (s : State) (a : Access) : State → Prop where
  /-- SLVERR, no effect. -/
  | slverr : Served s a (s.respond true 0#32)
  /-- A read, OKAY. -/
  | read : a.data = none → a.legal (a.addr - s.params.baseAddr) = true →
      Served s a (s.respond false (s.readLoc (locOf (a.addr - s.params.baseAddr))))
  /-- A write, OKAY. -/
  | write (w : Word) : a.data = some w → a.legal (a.addr - s.params.baseAddr) = true →
      (s.busy = true → (locOf (a.addr - s.params.baseAddr)).locked = false) →
      Served s a ((s.writeLoc w (locOf (a.addr - s.params.baseAddr))).respond false 0#32)

theorem busAccess_cases {s t : State} {a : Access} (h : busAccess s a = .next t) :
    (s.params.baseAddr ≤ a.addr ∧ a.addr < s.params.baseAddr + 0x10000) ∧ Served s a t := by
  simp only [busAccess] at h
  split at h
  · exact nomatch h
  next hr =>
    refine ⟨by omega, ?_⟩
    split at h
    · obtain rfl := Host.Outcome.next.inj h
      exact .slverr
    next hl =>
      have hleg : a.legal (a.addr - s.params.baseAddr) = true := by
        cases hx : a.legal (a.addr - s.params.baseAddr) <;> simp_all
      have hlock : s.busy = true → (locOf (a.addr - s.params.baseAddr)).locked = false := by
        intro hb
        cases hx : (locOf (a.addr - s.params.baseAddr)).locked <;> simp_all
      split at h
      · obtain rfl := Host.Outcome.next.inj h
        exact .read ‹_› hleg
      · obtain rfl := Host.Outcome.next.inj h
        exact .write _ ‹_› hleg hlock

/-- A legal access to a word of the block that the busy lock does not stop. -/
theorem busAccess_served (s : State) {off : Nat} (data : Option Word) (h4 : off % 4 = 0) (hr : off < 0x10000)
    (hb : s.busy = false ∨ (locOf off).locked = false) :
    busAccess s ⟨s.params.baseAddr + off, 4, 0xF#4, data⟩ =
      match data with
      | none => .next (s.respond false (s.readLoc (locOf off)))
      | some w => .next ((s.writeLoc w (locOf off)).respond false 0#32) := by
  have h1 : ¬(s.params.baseAddr + off < s.params.baseAddr ∨
      s.params.baseAddr + 0x10000 ≤ s.params.baseAddr + off) := by omega
  have h2 : ¬(Access.legal ⟨s.params.baseAddr + off, 4, 0xF#4, data⟩ off = false ∨
      (s.busy = true ∧ (locOf off).locked = true)) := by
    rcases hb with hb | hb <;> simp [Access.legal, h4, hb]
  cases data <;> simp only [busAccess, Nat.add_sub_cancel_left, if_neg h1, if_neg h2]

theorem memRead_served (s : State) {off : Nat} (h4 : off % 4 = 0) (hr : off < 0x10000)
    (hb : s.busy = false ∨ (locOf off).locked = false) :
    busAccess s (memRead s.params off) = .next (s.respond false (s.readLoc (locOf off))) :=
  busAccess_served s none h4 hr hb

theorem memWrite_served (s : State) {off : Nat} (w : Word) (h4 : off % 4 = 0) (hr : off < 0x10000)
    (hb : s.busy = false ∨ (locOf off).locked = false) :
    busAccess s (memWrite s.params off w) = .next ((s.writeLoc w (locOf off)).respond false 0#32) :=
  busAccess_served s (some w) h4 hr hb

/-- An access that the busy lock stops. -/
theorem busAccess_locked (s : State) {off : Nat} (data : Option Word) (hr : off < 0x10000)
    (hb : s.busy = true) (hl : (locOf off).locked = true) :
    busAccess s ⟨s.params.baseAddr + off, 4, 0xF#4, data⟩ = .next (s.respond true 0#32) := by
  have h1 : ¬(s.params.baseAddr + off < s.params.baseAddr ∨
      s.params.baseAddr + 0x10000 ≤ s.params.baseAddr + off) := by omega
  simp only [busAccess, Nat.add_sub_cancel_left, if_neg h1, hb, hl, and_self, or_true, if_true]

/-- Window i, word j of the integer registers (10_state.md R60). -/
theorem locOf_vWord {i j : Nat} (hi : i < 8) (hj : j < 256) :
    locOf (0x1000 + 0x400 * i + 4 * j) = .vWord (BitVec.ofNat 4 i) j := by
  have h1 : (0x1000 + 0x400 * i + 4 * j) / 0x400 - 4 = i := by omega
  have h2 : (0x1000 + 0x400 * i + 4 * j) % 0x400 / 4 = j := by omega
  unfold locOf
  rw [h1, h2]
  repeat rw [if_neg (by omega)]
  rw [if_pos (by omega)]

/-- Window j, word m of the buffers (R60). -/
theorem locOf_bWord {j m : Nat} (hj : j < 4) (hm : m < 256) :
    locOf (0x4000 + 0x400 * j + 4 * m) = .bWord (BitVec.ofNat 4 j) m := by
  have h1 : (0x4000 + 0x400 * j + 4 * m) / 0x400 - 16 = j := by omega
  have h2 : (0x4000 + 0x400 * j + 4 * m) % 0x400 / 4 = m := by omega
  unfold locOf
  rw [h1, h2]
  repeat rw [if_neg (by omega)]
  rw [if_pos (by omega)]

/-- Above the first 64 offsets the map has three ranges of registers; the rest is reserved (10_state.md R60). -/
theorem locOf_high {off : Nat} (h : 0x40 ≤ off) :
    (off < 0x050 ∧ locOf off = .blen (BitVec.ofNat 4 (off / 4 - 16))) ∨
    (0x1000 ≤ off ∧ off < 0x3000 ∧ locOf off = .vWord (BitVec.ofNat 4 (off / 0x400 - 4)) (off % 0x400 / 4)) ∨
    (0x4000 ≤ off ∧ off < 0x5000 ∧ locOf off = .bWord (BitVec.ofNat 4 (off / 0x400 - 16)) (off % 0x400 / 4)) ∨
    locOf off = .reserved := by
  by_cases h1 : 0x040 ≤ off ∧ off < 0x050
  · refine .inl ⟨h1.2, ?_⟩
    unfold locOf
    repeat rw [if_neg (by omega)]
    rw [if_pos h1]
  by_cases h2 : 0x1000 ≤ off ∧ off < 0x3000
  · refine .inr (.inl ⟨h2.1, h2.2, ?_⟩)
    unfold locOf
    repeat rw [if_neg (by omega)]
    rw [if_pos h2]
  by_cases h3 : 0x4000 ≤ off ∧ off < 0x5000
  · refine .inr (.inr (.inl ⟨h3.1, h3.2, ?_⟩))
    unfold locOf
    repeat rw [if_neg (by omega)]
    rw [if_pos h3]
  · refine .inr (.inr (.inr ?_))
    unfold locOf
    rw [if_neg h1, if_neg h2, if_neg h3]
    repeat rw [if_neg (by omega)]

theorem locOf_eq_ctrl {off : Nat} (h : locOf off = .ctrl) : off = 0x008 := by
  by_cases h0 : off < 0x40
  · interval_cases off <;> first | rfl | exact absurd h (by decide)
  · rcases locOf_high (Nat.not_lt.1 h0) with ⟨-, e⟩ | ⟨-, -, e⟩ | ⟨-, -, e⟩ | e <;> rw [e] at h <;> nomatch h

theorem locOf_eq_cmd {off : Nat} (h : locOf off = .cmd) : off = 0x010 := by
  by_cases h0 : off < 0x40
  · interval_cases off <;> first | rfl | exact absurd h (by decide)
  · rcases locOf_high (Nat.not_lt.1 h0) with ⟨-, e⟩ | ⟨-, -, e⟩ | ⟨-, -, e⟩ | e <;> rw [e] at h <;> nomatch h

theorem locOf_eq_irqStatus {off : Nat} (h : locOf off = .irqStatus) : off = 0x014 := by
  by_cases h0 : off < 0x40
  · interval_cases off <;> first | rfl | exact absurd h (by decide)
  · rcases locOf_high (Nat.not_lt.1 h0) with ⟨-, e⟩ | ⟨-, -, e⟩ | ⟨-, -, e⟩ | e <;> rw [e] at h <;> nomatch h

/-- A buffer window is one of the four. -/
theorem locOf_eq_bWord {off k : Nat} {j : Field} (h : locOf off = .bWord j k) : j.toNat < 4 ∧ k < 256 := by
  by_cases h0 : off < 0x40
  · interval_cases off <;> exact nomatch h
  · rcases locOf_high (Nat.not_lt.1 h0) with ⟨-, e⟩ | ⟨-, -, e⟩ | ⟨h1, h2, e⟩ | e <;> rw [e] at h
    · nomatch h
    · nomatch h
    · simp only [Loc.bWord.injEq] at h
      rw [← h.1, ← h.2, BitVec.toNat_ofNat]
      omega
    · nomatch h

/-- The busy-locked offsets (20_memory.md R135). -/
theorem locked_locOf (off : Nat) : (locOf off).locked = true ↔
    off = 0x020 ∨ off = 0x024 ∨ off = 0x028 ∨ off = 0x02C ∨ off = 0x030 ∨ (0x040 ≤ off ∧ off < 0x050) ∨
      (0x1000 ≤ off ∧ off < 0x3000) ∨ (0x4000 ≤ off ∧ off < 0x5000) := by
  by_cases h0 : off < 0x40
  · interval_cases off <;> decide
  unfold locOf
  repeat rw [if_neg (by omega)]
  by_cases h1 : 0x040 ≤ off ∧ off < 0x050
  · rw [if_pos h1]; simp only [Loc.locked, true_iff]; omega
  rw [if_neg h1]
  by_cases h2 : 0x1000 ≤ off ∧ off < 0x3000
  · rw [if_pos h2]; simp only [Loc.locked, true_iff]; omega
  rw [if_neg h2]
  by_cases h3 : 0x4000 ≤ off ∧ off < 0x5000
  · rw [if_pos h3]; simp only [Loc.locked, true_iff]; omega
  · rw [if_neg h3]; simp only [Loc.locked, Bool.false_eq_true, false_iff]; omega

/-- What one step did. -/
inductive Stepped (s : State) : State → Prop where
  /-- The engine moved. -/
  | engine (r : State) : (s.agenda = [] ∧ r = s ∨ ∃ rest, s.agenda = .engine :: rest ∧ r = s.withAgenda rest) →
      ∀ {t}, engineStep r = .next t → Stepped s t
  /-- The host accessed the block. -/
  | bus (a : Access) (rest : List Event) : s.agenda = .bus a :: rest →
      (s.params.baseAddr ≤ a.addr ∧ a.addr < s.params.baseAddr + 0x10000) →
      ∀ {t}, Served (s.withAgenda rest) a t → Stepped s t
  /-- The RNG port delivered a byte. -/
  | rng (b : Byte) (rest : List Event) : s.agenda = .rng b :: rest → Stepped s ((s.withAgenda rest).deliver b)
  /-- The HASH port began or ceased to answer. -/
  | hash (serves : Bool) (rest : List Event) : s.agenda = .hash serves :: rest →
      Stepped s ((s.withAgenda rest).withHash serves)
  /-- The reset input. -/
  | hardReset (rest : List Event) : s.agenda = .hardReset :: rest → Stepped s (s.withAgenda rest).hardReset

theorem step_cases {s t : State} (h : step s = .next t) : Stepped s t := by
  unfold step at h
  split at h
  · exact .engine s (.inl ⟨‹_›, rfl⟩) h
  next e rest he =>
    cases e with
    | bus a =>
      have hb := busAccess_cases (s := s.withAgenda rest) h
      exact .bus a rest he hb.1 hb.2
    | engine => exact .engine _ (.inr ⟨rest, he, rfl⟩) h
    | rng b =>
      obtain rfl := Host.Outcome.next.inj h
      exact .rng b rest he
    | hash serves =>
      obtain rfl := Host.Outcome.next.inj h
      exact .hash serves rest he
    | hardReset =>
      obtain rfl := Host.Outcome.next.inj h
      exact .hardReset rest he

end Sys2Proof.Machine
end

