-- ==== Sys2Proof/Laws/Pss.lean ====
section
/-! SUPPORT. Laws of the HASH port, MGF1 and the PSS lengths. -/

namespace Sys2Proof.Machine

/-- A digest has HLEN bytes (00_scope.md R8). -/
theorem hashOf_length {p : Params} (h : p.legal) (m : List Byte) : (Params.hashOf p m).length = p.hlen := by
  unfold Params.hashOf
  split
  · simp
  · next hh => simp [th32, h.2.2.2.2.2.2.2.2.2 hh]

/-- The MGF1 function below its limit (45_mgf1.md R360, R362). -/
theorem mgf1_eq_some {hash : List Byte → List Byte} {hLen maskLen : Nat} {seed : List Byte}
    (h : maskLen ≤ 2 ^ 32 * hLen) :
    mgf1 hash hLen seed maskLen = some ((mgf1Blocks hash hLen seed maskLen).take maskLen) := by
  rw [mgf1, if_neg (by omega)]

theorem flatMap_length_const {α β : Type} (f : α → List β) (n : Nat) (l : List α) (h : ∀ a, (f a).length = n) :
    (l.flatMap f).length = l.length * n := by
  induction l with
  | nil => simp
  | cons a l ih => simp [ih, h, Nat.add_mul]; omega

/-- A mask has maskLen bytes (R360). -/
theorem mgf1_length {hash : List Byte → List Byte} {hLen maskLen : Nat} {seed mask : List Byte} (hL : 1 ≤ hLen)
    (hh : ∀ m, (hash m).length = hLen) (h : mgf1 hash hLen seed maskLen = some mask) : mask.length = maskLen := by
  unfold mgf1 at h
  split at h
  · exact nomatch h
  · obtain rfl := Option.some.inj h
    have := le_ceilQuot_mul maskLen (b := hLen) hL
    simp only [List.length_take, mgf1Blocks, flatMap_length_const _ hLen _ (fun a => hh _), List.length_range]
    omega

theorem mgf1_length_le {hash : List Byte → List Byte} {hLen maskLen : Nat} {seed mask : List Byte}
    (h : mgf1 hash hLen seed maskLen = some mask) : mask.length ≤ maskLen := by
  unfold mgf1 at h
  split at h
  · exact nomatch h
  · obtain rfl := Option.some.inj h
    simp

theorem emLen_eq (m : Nat) : emLen m = (m - 1 + 7) / 8 := by simp [emLen, ceilQuot]

/-- EM fits in a buffer (46_pss.md R380). -/
theorem emLen_le_bufBytes {p : Params} {m : Nat} (h : p.legal) (hm : m ≤ p.maxbits) : emLen m ≤ p.bufBytes := by
  have := h.1
  simp only [emLen_eq, Params.bufBytes]
  omega

/-- The mask of PSS is below the limit of MGF1 (45_mgf1.md R362). -/
theorem dbLen_le {p : Params} {m : Nat} (h : p.legal) (hm : m ≤ p.maxbits) : dbLen m p.hlen ≤ 2 ^ 32 * p.hlen := by
  have h1 := emLen_le_bufBytes h hm
  have h2 : p.bufBytes ≤ 1024 := by have := h.2.2.1; simp only [Params.bufBytes]; omega
  have h3 := h.2.2.2.1
  simp only [dbLen]
  omega

@[simp] theorem maskTop_length (m : Nat) (s : List Byte) : (maskTop m s).length = s.length := by
  cases s <;> rfl

@[simp] theorem xorBytes_length (s t : List Byte) : (xorBytes s t).length = min s.length t.length := by
  simp [xorBytes]

/-- EM has emLen bytes (46_pss.md R381). -/
theorem pssEncode_length {hash : List Byte → List Byte} {hLen m : Nat} {mHash salt em : List Byte} (hL : 1 ≤ hLen)
    (hh : ∀ x, (hash x).length = hLen) (hs : hLen + salt.length + 2 ≤ emLen m)
    (h : pssEncode hash hLen m mHash salt = some em) : em.length = emLen m := by
  simp only [pssEncode] at h
  split at h
  · exact nomatch h
  next mask hm =>
    obtain rfl := Option.some.inj h
    have := mgf1_length hL hh hm
    simp [this, saltedHash, hh, zeros_length, psLen, dbLen]
    omega

end Sys2Proof.Machine
end

