-- ==== Sys2Proof/Laws/Exec.lean ====
section
/-! SUPPORT. What running a command can do, said once: it waits, it completes with an error, or it commits an output
of its kind. -/

namespace Sys2Proof.Machine

/-- The outputs a command of each kind may commit (10_state.md R53, R57, R70). -/
def Effect.fits : Effect → Instr → Prop
  | .nothing, .nop => True
  | .zeroize, .zeroize => True
  | .setV d _, .montmul d' _ _ _ => d = d'
  | .setV d _, .montr2 d' _ => d = d'
  | .setV d _, .modexp d' _ _ _ => d = d'
  | .setV d _, .os2ip d' _ => d = d'
  | .setB d _, .i2osp d' _ => d = d'
  | .setB d _, .mgf1 d' _ => d = d'
  | .setB d _, .pssenc d' _ => d = d'
  | .answer _, .mrtest _ => True
  | .answer _, .pssver _ _ => True
  | _, _ => False

/-- The outputs fit their places (R54, R56): an integer stays below 2^MAXBITS, a byte string within BUFBYTES. -/
def Effect.bounded (s : State) : Effect → Prop
  | .setV _ x => s.inputs.inRange s.params → x < 2 ^ s.params.maxbits
  | .setB _ b => s.params.legal → b.length ≤ s.params.bufBytes
  | _ => True

/-- How a command that gives a next state has ended, if it has. -/
inductive Ended (i : Instr) (s : State) : State → Prop where
  /-- It waits for a port. -/
  | waits : Ended i s s
  /-- It completed with an error, having taken some RNG bytes. -/
  | failed (rest : List Byte) (c : ErrCode) : rest <:+ s.rng → c ≠ .ok →
      Ended i s ((s.withRng rest).complete c false)
  /-- It committed an output of its kind, having taken some RNG bytes. -/
  | ended (rest : List Byte) (e : Effect) : rest <:+ s.rng → e.fits i → i.wf = true → e.bounded s →
      Ended i s ((s.withRng rest).committed e)

/-- A completion is a completion, whatever was committed or taken before it. -/
theorem State.completed_complete (s : State) (c : ErrCode) (r : Bool) : s.Completed (s.complete c r) c r :=
  ⟨rfl, rfl, rfl, rfl, rfl, rfl, ⟨rfl, rfl, rfl, rfl, rfl, rfl, rfl, rfl, rfl⟩⟩

theorem State.completed_withRng (s : State) (rest : List Byte) (c : ErrCode) (r : Bool) :
    s.Completed ((s.withRng rest).complete c r) c r :=
  ⟨rfl, rfl, rfl, rfl, rfl, rfl, ⟨rfl, rfl, rfl, rfl, rfl, rfl, rfl, rfl, rfl⟩⟩

theorem State.completed_committed (s : State) (rest : List Byte) (e : Effect) :
    s.Completed ((s.withRng rest).committed e) .ok e.result :=
  ⟨rfl, rfl, rfl, rfl, rfl, rfl, ⟨rfl, rfl, rfl, rfl, rfl, rfl, rfl, rfl, rfl⟩⟩

@[simp] theorem State.withRng_self (s : State) : s.withRng s.rng = s := rfl

theorem Ended.raise {i : Instr} {s t : State} {c : ErrCode} (hc : c ≠ .ok) (h : s.raise c = .next t) :
    Ended i s t := by
  obtain rfl : s.complete c false = t := by simpa [State.raise] using h
  exact .failed s.rng c (List.suffix_refl _) hc

theorem Ended.succeed {i : Instr} {s t : State} {e : Effect} (h : s.succeed e = .next t) (hi : ¬ i.wf = false)
    (he : e.fits i) (hb : e.bounded s) : Ended i s t := by
  obtain rfl : s.committed e = t := by simpa [State.succeed] using h
  exact .ended s.rng e (List.suffix_refl _) he (by simpa using hi) hb

theorem State.opV_lt {s : State} {p : Params} (h : s.inputs.inRange p) (i : Field) : s.opV i < 2 ^ p.maxbits := by
  unfold State.opV RegFile.getV
  by_cases hi : i.toNat < 8
  · simpa [hi] using h ⟨i.toNat, hi⟩
  · simp [hi]

@[simp] theorem RegFile.getBytes_length (r : RegFile) (j : Field) (n : Nat) : (r.getBytes j n).length = n := by
  simp [RegFile.getBytes]

@[simp] theorem State.opBuf_length (s : State) (j : Field) : (s.opBuf j).length = s.opLen j := by
  simp [State.opBuf, State.opBytes]

theorem State.os2ip_opBuf_lt {s : State} {j : Field} (h : s.opLen j ≤ s.params.bufBytes) :
    os2ip (s.opBuf j) < 2 ^ s.params.maxbits := by
  refine (os2ip_lt _).trans_le ?_
  rw [State.opBuf_length, show (256 : Nat) = 2 ^ 8 from rfl, ← Nat.pow_mul]
  refine Nat.pow_le_pow_right (by omega) ?_
  simp only [Params.bufBytes] at h
  omega

theorem drawWitness_rest (k n : Nat) (bytes : List Byte) :
    match drawWitness k n bytes with
    | .witness a rest => rest <:+ bytes ∧ 2 ≤ a ∧ a ≤ n - 2
    | .exhausted rest => rest <:+ bytes
    | .awaiting => True := by
  induction k generalizing bytes with
  | zero => exact List.suffix_refl _
  | succ k ih =>
    simp only [drawWitness]
    by_cases h1 : bytes.length < ceilQuot (bitlen n) 8
    · simp [h1]
    by_cases h2 : 2 ≤ os2ip (bytes.take (ceilQuot (bitlen n) 8)) % 2 ^ bitlen n ∧
        os2ip (bytes.take (ceilQuot (bitlen n) 8)) % 2 ^ bitlen n ≤ n - 2
    · simp only [if_neg h1, if_pos h2]
      exact ⟨List.drop_suffix _ _, h2⟩
    · simp only [if_neg h1, if_neg h2]
      have := ih (bytes.drop (ceilQuot (bitlen n) 8))
      revert this
      cases drawWitness k n (bytes.drop (ceilQuot (bitlen n) 8)) with
      | witness a rest => exact fun h => ⟨h.1.trans (List.drop_suffix _ _), h.2⟩
      | exhausted rest => exact fun h => h.trans (List.drop_suffix _ _)
      | awaiting => exact id

theorem mrRounds_rest (retry n s d k : Nat) (bytes : List Byte) :
    match mrRounds retry n s d k bytes with
    | .answer _ rest => rest <:+ bytes
    | .noWitness rest => rest <:+ bytes
    | .awaiting => True := by
  induction k generalizing bytes with
  | zero => exact List.suffix_refl _
  | succ k ih =>
    simp only [mrRounds]
    have hd := drawWitness_rest retry n bytes
    revert hd
    cases drawWitness retry n bytes with
    | awaiting => exact id
    | exhausted rest => exact id
    | witness a rest =>
      intro hd
      by_cases hr : mrRound n s d a = true
      · simp only [hr, if_true]
        have := ih rest
        revert this
        cases mrRounds retry n s d k rest with
        | answer _ _ => exact fun h => h.trans hd.1
        | noWitness _ => exact fun h => h.trans hd.1
        | awaiting => exact id
      · simp only [hr]
        exact hd.1

theorem mrTest_rest (retry n k : Nat) (bytes : List Byte) :
    match mrTest retry n k bytes with
    | .answer _ rest => rest <:+ bytes
    | .noWitness rest => rest <:+ bytes
    | .awaiting => True := by
  unfold mrTest
  by_cases h1 : n < 2
  · simp [h1]
  by_cases h2 : n = 2 ∨ n = 3
  · simp [h1, h2]
  by_cases h3 : n % 2 = 0
  · simp [h1, h2, h3]
  · simp only [h1, h2, h3, if_false]
    exact mrRounds_rest ..

theorem execNop_cases {s t : State} (h : execNop s = .next t) : Ended .nop s t :=
  .succeed h (by decide) trivial trivial

theorem execZeroize_cases {s t : State} (h : execZeroize s = .next t) : Ended .zeroize s t :=
  .succeed h (by decide) trivial trivial

theorem execMontmul_cases {d a b c : Field} {s t : State} (h : execMontmul d a b c s = .next t) :
    Ended (.montmul d a b c) s t := by
  unfold execMontmul at h
  repeat' split at h
  all_goals first
    | exact .raise (by decide) h
    | exact .succeed h ‹_› rfl (fun hr => (montProduct_lt _ _ (by omega)).trans (State.opV_lt hr _))

theorem execMontr2_cases {d c : Field} {s t : State} (h : execMontr2 d c s = .next t) :
    Ended (.montr2 d c) s t := by
  unfold execMontr2 at h
  repeat' split at h
  all_goals first
    | exact .raise (by decide) h
    | exact .succeed h ‹_› rfl (fun hr => (Nat.mod_lt _ (by omega)).trans (State.opV_lt hr _))

theorem execModexp_cases {d a b c : Field} {s t : State} (h : execModexp d a b c s = .next t) :
    Ended (.modexp d a b c) s t := by
  unfold execModexp at h
  repeat' split at h
  all_goals first
    | exact .raise (by decide) h
    | exact .succeed h ‹_› rfl (fun hr => by rw [modPow_eq]; exact (Nat.mod_lt _ (by omega)).trans (State.opV_lt hr _))

theorem execI2osp_cases {d a : Field} {s t : State} (h : execI2osp d a s = .next t) :
    Ended (.i2osp d a) s t := by
  unfold execI2osp at h
  repeat' split at h
  all_goals first
    | exact .raise (by decide) h
    | exact .succeed h ‹_› rfl (fun _ => by rw [i2osp_length]; omega)

theorem execOs2ip_cases {d a : Field} {s t : State} (h : execOs2ip d a s = .next t) :
    Ended (.os2ip d a) s t := by
  unfold execOs2ip at h
  repeat' split at h
  all_goals first
    | exact .raise (by decide) h
    | exact .succeed h ‹_› rfl (fun _ => State.os2ip_opBuf_lt (by omega))

theorem execMrtest_cases {a : Field} {s t : State} (h : execMrtest a s = .next t) :
    Ended (.mrtest a) s t := by
  unfold execMrtest at h
  split at h
  · exact .raise (by decide) h
  · next hi =>
    split at h
    · exact .raise (by decide) h
    · have hr : match s.mrVerdict a with
          | .answer _ rest => rest <:+ s.rng
          | .noWitness rest => rest <:+ s.rng
          | .awaiting => True := mrTest_rest s.params.mrRetry (s.opV a) s.rounds s.rng
      split at h
      · next he =>
        rw [he] at hr
        obtain rfl := Host.Outcome.next.inj h
        exact .ended _ _ hr trivial (by simpa using hi) trivial
      · next he =>
        rw [he] at hr
        obtain rfl := Host.Outcome.next.inj h
        exact .failed _ _ hr (by decide)
      · obtain rfl := Host.Outcome.next.inj h
        exact .waits

/-- A command that waits changes nothing. -/
theorem Ended.wait {i : Instr} {s t : State} (h : s.waitForPort = .next t) : Ended i s t := by
  obtain rfl := Host.Outcome.next.inj h
  exact .waits

theorem execMgf1_cases {d a : Field} {s t : State} (h : execMgf1 d a s = .next t) :
    Ended (.mgf1 d a) s t := by
  unfold execMgf1 at h
  repeat' split at h
  all_goals first
    | exact .raise (by decide) h
    | exact .wait h
    | exact .succeed h ‹_› rfl (fun _ => (mgf1_length_le ‹_›).trans (by omega))
    | simp at h

/-- The value checks of PSSENC pass exactly so (46_pss.md R381). -/
theorem State.pssencError_eq_none {s : State} {a : Field} : s.pssencError a = none ↔
    1 ≤ s.modBits ∧ s.modBits ≤ s.params.maxbits ∧ s.opLen a = s.params.hlen ∧
      s.params.hlen + s.saltLen + 2 ≤ emLen s.modBits := by
  unfold State.pssencError
  split
  · simp only [reduceCtorEq, false_iff]; omega
  split
  · simp only [reduceCtorEq, false_iff]; omega
  split
  · simp only [reduceCtorEq, false_iff]; omega
  · simp only [true_iff]; omega

theorem State.pssencError_ne_ok {s : State} {a : Field} {c : ErrCode} (h : s.pssencError a = some c) : c ≠ .ok := by
  unfold State.pssencError at h
  repeat' split at h
  all_goals first
    | (obtain rfl := Option.some.inj h; decide)
    | exact nomatch h

theorem execPssenc_cases {d a : Field} {s t : State} (h : execPssenc d a s = .next t) :
    Ended (.pssenc d a) s t := by
  unfold execPssenc at h
  split at h
  · exact .raise (by decide) h
  next hi =>
    split at h
    · exact .raise (State.pssencError_ne_ok ‹_›) h
    next hc =>
      have hok := State.pssencError_eq_none.mp hc
      split at h
      · exact .wait h
      split at h
      · exact nomatch h
      · next em he =>
        obtain rfl := Host.Outcome.next.inj h
        refine .ended _ _ (List.drop_suffix _ _) rfl (by simpa using hi) fun hl => ?_
        rw [pssEncode_length hl.2.2.2.1 (hashOf_length hl) (by simp only [List.length_take]; omega) he]
        exact emLen_le_bufBytes hl hok.2.1

theorem execPssver_cases {a b : Field} {s t : State} (h : execPssver a b s = .next t) :
    Ended (.pssver a b) s t := by
  unfold execPssver at h
  repeat' split at h
  all_goals first
    | exact .raise (by decide) h
    | exact .wait h
    | exact .succeed h ‹_› trivial trivial
    | simp at h

/-- Everything a command can do when it gives a next state. -/
theorem exec_cases {i : Instr} {s t : State} (h : exec i s = .next t) : Ended i s t := by
  cases i with
  | nop => exact execNop_cases h
  | zeroize => exact execZeroize_cases h
  | montmul d a b c => exact execMontmul_cases h
  | montr2 d c => exact execMontr2_cases h
  | modexp d a b c => exact execModexp_cases h
  | i2osp d a => exact execI2osp_cases h
  | os2ip d a => exact execOs2ip_cases h
  | mrtest a => exact execMrtest_cases h
  | mgf1 d a => exact execMgf1_cases h
  | pssenc d a => exact execPssenc_cases h
  | pssver a b => exact execPssver_cases h

/-- Only MRTEST and PSSENC take RNG bytes (10_state.md R87). -/
theorem exec_rng {i : Instr} {s t : State} (h : exec i s = .next t) (h1 : ∀ a, i ≠ .mrtest a)
    (h2 : ∀ d a, i ≠ .pssenc d a) : t.rng = s.rng := by
  cases i with
  | mrtest a => exact absurd rfl (h1 a)
  | pssenc d a => exact absurd rfl (h2 d a)
  | _ =>
    simp only [exec, execNop, execZeroize, execMontmul, execMontr2, execModexp, execI2osp, execOs2ip, execMgf1,
      execPssver, State.raise, State.succeed, State.waitForPort] at h
    repeat' split at h
    all_goals first
      | (obtain rfl := Host.Outcome.next.inj h; rfl)
      | cases h

/-! ### The RNG bytes a command takes (10_state.md R87, 40_command_execution.md R236, R241) -/

/-- One draw takes at most the bytes of its attempts, and has them all delivered before it ends. -/
theorem drawWitness_taken (k n : Nat) (bytes : List Byte) :
    match drawWitness k n bytes with
    | .witness _ rest => bytes.length ≤ rest.length + k * ceilQuot (bitlen n) 8
    | .exhausted rest => bytes.length ≤ rest.length + k * ceilQuot (bitlen n) 8
    | .awaiting => bytes.length ≤ k * ceilQuot (bitlen n) 8 := by
  induction k generalizing bytes with
  | zero => simp [drawWitness]
  | succ k ih =>
    simp only [drawWitness, Nat.succ_mul]
    by_cases h1 : bytes.length < ceilQuot (bitlen n) 8
    · simp only [h1, if_true]
      omega
    by_cases h2 : 2 ≤ os2ip (bytes.take (ceilQuot (bitlen n) 8)) % 2 ^ bitlen n ∧
        os2ip (bytes.take (ceilQuot (bitlen n) 8)) % 2 ^ bitlen n ≤ n - 2
    · simp only [if_neg h1, if_pos h2, List.length_drop]
      omega
    · simp only [if_neg h1, if_neg h2]
      have := ih (bytes.drop (ceilQuot (bitlen n) 8))
      revert this
      cases drawWitness k n (bytes.drop (ceilQuot (bitlen n) 8)) <;> simp only [List.length_drop] <;> omega

/-- The rounds take at most rounds · retry · nb bytes. -/
theorem mrRounds_taken (retry n s d k : Nat) (bytes : List Byte) :
    (mrRounds retry n s d k bytes).taken bytes ≤ k * retry * ceilQuot (bitlen n) 8 := by
  induction k generalizing bytes with
  | zero => simp [mrRounds, Verdict.taken]
  | succ k ih =>
    have hd := drawWitness_taken retry n bytes
    rw [mrRounds, Nat.succ_mul, Nat.add_mul]
    revert hd
    cases drawWitness retry n bytes with
    | awaiting => intro hd; simp only [Verdict.taken]; simp only at hd; omega
    | exhausted rest => intro hd; simp only [Verdict.taken]; simp only at hd; omega
    | witness a rest =>
      intro hd
      simp only at hd ⊢
      split
      · have hk := ih rest
        revert hk
        cases mrRounds retry n s d k rest <;> simp only [Verdict.taken] <;> omega
      · simp only [Verdict.taken]; omega

/-- MRTEST takes bytes only for an odd candidate n ≥ 5 and t ≥ 1, and at most t · MR_RETRY · ceil(bitlen(n)/8). -/
theorem State.mrVerdict_taken (s : State) (a : Field) :
    (s.mrVerdict a).taken s.rng ≤ s.rounds * s.params.mrRetry * ceilQuot (bitlen (s.opV a)) 8 ∧
    ((s.mrVerdict a).taken s.rng ≠ 0 → 5 ≤ s.opV a ∧ s.opV a % 2 = 1 ∧ s.rounds ≠ 0) := by
  unfold State.mrVerdict mrTest
  by_cases h1 : s.opV a < 2
  · simp [h1, Verdict.taken]
  by_cases h2 : s.opV a = 2 ∨ s.opV a = 3
  · simp [h1, h2, Verdict.taken]
  by_cases h3 : s.opV a % 2 = 0
  · simp [h1, h2, h3, Verdict.taken]
  rw [if_neg h1, if_neg h2, if_neg h3]
  refine ⟨mrRounds_taken .., fun h => ⟨by omega, by omega, fun h0 => h ?_⟩⟩
  simp [h0, mrRounds, Verdict.taken]

/-- PSSENC takes bytes only if its checks pass, and at most sLen. -/
theorem State.saltTaken_spec (s : State) (a : Field) :
    s.saltTaken a ≤ s.saltLen ∧ (s.saltTaken a ≠ 0 → s.pssencError a = none) := by
  unfold State.saltTaken
  cases s.pssencError a <;> simp

/-- What an ended MRTEST has taken. -/
theorem execMrtest_taken {a : Field} {s t : State} (h : execMrtest a s = .next t) :
    s.rng.length - t.rng.length ≤ (s.mrVerdict a).taken s.rng := by
  unfold execMrtest at h
  repeat' split at h
  all_goals
    obtain rfl := Host.Outcome.next.inj h
    simp_all [Verdict.taken]

/-- What an ended PSSENC has taken. -/
theorem execPssenc_taken {d a : Field} {s t : State} (h : execPssenc d a s = .next t) :
    s.rng.length - t.rng.length ≤ s.saltTaken a := by
  unfold execPssenc at h
  repeat' split at h
  all_goals first
    | (obtain rfl := Host.Outcome.next.inj h; simp_all [State.saltTaken])
    | exact nomatch h

end Sys2Proof.Machine
end

