-- ==== Sys2Proof/Laws/Memory.lean ====
section
/-! SUPPORT. Laws of the buffer memory: reads after writes, the canonical form, the addresses listed. -/

namespace Sys2Proof.Machine.Memory

theorem read_write_other (m : Memory) {a a' : Nat} (b : Byte) (h : a' ≠ a) :
    read (write m a b) a' = read m a' := by
  induction m with
  | nil => by_cases hb : b = 0#8 <;> simp [write, read, hb, h]
  | cons c m ih =>
    obtain ⟨k, v⟩ := c
    simp only [write]
    split
    · split <;> simp [read, h]
    · split
      · subst a; split <;> simp [read, h]
      · simp [read, ih]

/-- An address below every listed one is unlisted. -/
theorem read_of_lt {m : Memory} {a : Nat} (h : ∀ c ∈ m, a < c.1) : read m a = 0#8 := by
  induction m with
  | nil => rfl
  | cons c m ih =>
    obtain ⟨k, v⟩ := c
    have hk : a ≠ k := Nat.ne_of_lt (h (k, v) (by simp))
    simp only [read, if_neg hk]
    exact ih fun c hc => h c (by simp [hc])

theorem wf_tail {c : Host.Cell} {m : Memory} (h : wf (c :: m)) : wf m :=
  ⟨(List.pairwise_cons.1 h.1).2, fun d hd => h.2 d (by simp [hd])⟩

theorem read_write_same {m : Memory} (hm : m.wf) (a : Nat) (b : Byte) : read (write m a b) a = b := by
  induction m with
  | nil => by_cases hb : b = 0#8 <;> simp [write, read, hb]
  | cons c m ih =>
    obtain ⟨k, v⟩ := c
    have hlt : ∀ c ∈ m, k < c.1 := (List.pairwise_cons.1 hm.1).1
    simp only [write]
    split
    · split
      · subst b
        refine read_of_lt fun c hc => ?_
        rcases List.mem_cons.1 hc with rfl | hc
        · assumption
        · exact lt_trans ‹_› (hlt c hc)
      · simp [read]
    · split
      · subst a
        split
        · subst b; exact read_of_lt hlt
        · simp [read]
      · rename_i hne
        simp [read, hne, ih (wf_tail hm)]

/-- A write lists no address but its own and those listed before. -/
theorem mem_write {m : Memory} {a : Nat} {b : Byte} {c : Host.Cell} (h : c ∈ write m a b) :
    (c = (a, b) ∧ b ≠ 0#8) ∨ c ∈ m := by
  induction m with
  | nil => by_cases hb : b = 0#8 <;> simp_all [write]
  | cons d m ih =>
    obtain ⟨k, v⟩ := d
    simp only [write] at h
    split at h
    · split at h
      · exact .inr h
      · rcases List.mem_cons.1 h with rfl | h
        · exact .inl ⟨rfl, ‹_›⟩
        · exact .inr h
    · split at h
      · split at h
        · exact .inr (by simp [h])
        · rcases List.mem_cons.1 h with rfl | h
          · exact .inl ⟨rfl, ‹_›⟩
          · exact .inr (by simp [h])
      · rcases List.mem_cons.1 h with rfl | h
        · exact .inr (by simp)
        · exact (ih h).imp_right fun h => by simp [h]

theorem write_wf {m : Memory} (hm : m.wf) (a : Nat) (b : Byte) : (write m a b).wf := by
  induction m with
  | nil => by_cases hb : b = 0#8 <;> simp [write, wf, hb]
  | cons c m ih =>
    obtain ⟨k, v⟩ := c
    have hlt := (List.pairwise_cons.1 hm.1).1
    have hv : v ≠ 0#8 := hm.2 (k, v) (by simp)
    simp only [write]
    split
    · split
      · exact hm
      · refine ⟨List.pairwise_cons.2 ⟨fun c hc => ?_, hm.1⟩, fun c hc => ?_⟩
        · rcases List.mem_cons.1 hc with rfl | hc
          · assumption
          · exact lt_trans ‹_› (hlt c hc)
        · rcases List.mem_cons.1 hc with rfl | hc
          · assumption
          · exact hm.2 c hc
    · split
      · subst a
        split
        · exact wf_tail hm
        · refine ⟨List.pairwise_cons.2 ⟨hlt, (wf_tail hm).1⟩, fun c hc => ?_⟩
          rcases List.mem_cons.1 hc with rfl | hc
          · assumption
          · exact (wf_tail hm).2 c hc
      · have ih := ih (wf_tail hm)
        refine ⟨List.pairwise_cons.2 ⟨fun c hc => ?_, ih.1⟩, fun c hc => ?_⟩
        · rcases mem_write hc with ⟨rfl, -⟩ | hc
          · simp only; omega
          · exact hlt c hc
        · rcases List.mem_cons.1 hc with rfl | hc
          · exact hv
          · exact ih.2 c hc

theorem writeBytes_wf {m : Memory} (hm : m.wf) (a : Nat) (bs : List Byte) : (writeBytes m a bs).wf := by
  induction bs generalizing m a with
  | nil => exact hm
  | cons b bs ih => exact ih (write_wf hm a b) (a + 1)

/-- Storing a string lists no address outside it but those listed before. -/
theorem mem_writeBytes {m : Memory} {a : Nat} {bs : List Byte} {c : Host.Cell} (h : c ∈ writeBytes m a bs) :
    (a ≤ c.1 ∧ c.1 < a + bs.length) ∨ c ∈ m := by
  induction bs generalizing m a with
  | nil => exact .inr h
  | cons b bs ih =>
    rcases ih h with h | h
    · simp only [List.length_cons]; omega
    · rcases mem_write h with ⟨rfl, -⟩ | h
      · simp
      · exact .inr h

/-- A byte outside the stored string is unchanged. -/
theorem read_writeBytes_outside (m : Memory) {a a' : Nat} (bs : List Byte)
    (h : a' < a ∨ a + bs.length ≤ a') : read (writeBytes m a bs) a' = read m a' := by
  induction bs generalizing m a with
  | nil => rfl
  | cons b bs ih =>
    simp only [List.length_cons] at h
    simp only [writeBytes]
    rw [ih _ (by omega), read_write_other _ _ (by omega)]

/-- Byte k of the stored string is read back. -/
theorem read_writeBytes_inside {m : Memory} (hm : m.wf) (a : Nat) {bs : List Byte} {k : Nat}
    (h : k < bs.length) : read (writeBytes m a bs) (a + k) = bs[k] := by
  induction bs generalizing m a k with
  | nil => simp at h
  | cons b bs ih =>
    cases k with
    | zero =>
      simp only [writeBytes, Nat.add_zero, List.getElem_cons_zero]
      rw [read_writeBytes_outside _ _ (by omega), read_write_same hm]
    | succ k =>
      have := ih (write_wf hm a b) (a + 1) (k := k) (by simpa using h)
      rw [Nat.add_right_comm] at this
      simpa [writeBytes, Nat.add_assoc] using this

theorem filter_wf {m : Memory} (hm : m.wf) (keep : Host.Cell → Bool) : wf (m.filter keep) :=
  ⟨hm.1.filter keep, fun c hc => hm.2 c (List.mem_of_mem_filter hc)⟩

/-- Dropping the cells at some addresses makes those addresses read 0 and leaves the others. -/
theorem read_filter (m : Memory) (keep : Nat → Bool) (a : Nat) :
    read (m.filter fun c => keep c.1) a = if keep a then read m a else 0#8 := by
  induction m with
  | nil => simp [read]
  | cons c m ih =>
    obtain ⟨k, v⟩ := c
    by_cases h : a = k
    · subst h
      by_cases hk : keep a
      · simp [hk, read]
      · simp [hk, ih]
    · by_cases hk : keep k <;> simp [hk, read, h, ih]

theorem read_clear (m : Memory) (a n a' : Nat) :
    read (m.clear a n) a' = if a ≤ a' ∧ a' < a + n then 0#8 else read m a' := by
  have := read_filter m (fun x => !(decide (a ≤ x) && decide (x < a + n))) a'
  simp only [clear, this]
  by_cases h : a ≤ a' ∧ a' < a + n
  · simp [h]
  · rw [if_neg h, if_pos]
    simp only [Bool.not_eq_true', Bool.and_eq_false_iff, decide_eq_false_iff_not]
    omega

theorem clear_wf {m : Memory} (hm : m.wf) (a n : Nat) : (m.clear a n).wf := filter_wf hm _

theorem clearBuffers_wf {m : Memory} (hm : m.wf) (n : Nat) : (m.clearBuffers n).wf :=
  clear_wf (clear_wf (clear_wf (clear_wf hm _ _) _ _) _ _) _ _

/-- A byte of a buffer is 0 after the buffers are cleared. -/
theorem read_clearBuffers_inside (m : Memory) {n j k : Nat} (hj : j < 4) (hk : k < n) :
    read (m.clearBuffers n) (bufOffset j + k) = 0#8 := by
  simp only [clearBuffers, read_clear]
  obtain rfl | rfl | rfl | rfl : j = 0 ∨ j = 1 ∨ j = 2 ∨ j = 3 := by omega
  all_goals simp [hk]

/-- A byte of no buffer is unchanged. -/
theorem read_clearBuffers_outside (m : Memory) {n a : Nat}
    (h : ∀ j, j < 4 → a < bufOffset j ∨ bufOffset j + n ≤ a) : read (m.clearBuffers n) a = read m a := by
  simp only [clearBuffers, read_clear]
  rw [if_neg, if_neg, if_neg, if_neg]
  · have := h 0 (by omega); omega
  · have := h 1 (by omega); omega
  · have := h 2 (by omega); omega
  · have := h 3 (by omega); omega

end Sys2Proof.Machine.Memory
end

