-- ==== Sys2Proof/Laws/Word.lean ====
section
/-! SUPPORT. Reading a field back from the word it was placed in. -/

namespace Sys2Proof

theorem getLsbD_place {n : Nat} (x : BitVec n) (k i : Nat) :
    (place x k).getLsbD i = (decide (k ≤ i ∧ i < 32) && x.getLsbD (i - k)) := by
  by_cases hk : k ≤ i <;> by_cases hi : i < 32 <;>
    simp [place, BitVec.getLsbD_shiftLeft, hk, hi, Nat.not_le.1, Nat.not_lt.2]

end Sys2Proof
end

