-- ==== Sys2Proof/Laws/PerInstr.lean ====
section
/-! SUPPORT. Statements for all commands, one lemma per command: the word of a command passes the test of its row of
the opcode table (30_encoding.md R193). -/

namespace Sys2Proof.Laws.EncodeMatchesRow

/-- The word of `i`, under its row's mask, is its row's match. -/
def Statement (i : Instr) : Prop :=
  ∃ row, tableRows[i.row]? = some row ∧ encode i &&& row.2 = row.1

/-- A command word under a mask that leaves out the bits of the used fields. -/
theorem commandWord_and (o : BitVec 8) (d a b c : Field) (m : Word)
    (h : ∀ j, 8 ≤ j → j < 24 → m.getLsbD j = true → (commandWord o d a b c).getLsbD j = false)
    (h8 : ∀ j, j < 8 → m.getLsbD j = true) : commandWord o d a b c &&& m = o.setWidth 32 := by
  apply BitVec.eq_of_getLsbD_eq
  intro j hj
  rw [BitVec.getLsbD_and, BitVec.getLsbD_setWidth]
  rcases Nat.lt_or_ge j 8 with hj8 | hj8
  · rw [h8 j hj8, Bool.and_true]
    simp only [commandWord, BitVec.getLsbD_or, getLsbD_place]
    interval_cases j <;> simp
  · rw [BitVec.getLsbD_of_ge o j hj8, Bool.and_false]
    rcases Nat.lt_or_ge j 24 with hj24 | hj24
    · cases hm : m.getLsbD j
      · rw [Bool.and_false]
      · rw [h j hj8 hj24 hm, Bool.false_and]
    · have : (commandWord o d a b c).getLsbD j = false := by
        simp only [commandWord, BitVec.getLsbD_or, getLsbD_place]
        interval_cases j <;> simp
      rw [this, Bool.false_and]

/-- Bit j of a command word, 8 ≤ j < 24, is a bit of one of its fields. -/
theorem commandWord_field (o : BitVec 8) (d a b c : Field) (k i : Nat) (hk : k < 4) (hi : i < 4) :
    (commandWord o d a b c).getLsbD (8 + 4 * k + i) = ([d, a, b, c][k]).getLsbD i := by
  simp only [commandWord, BitVec.getLsbD_or, getLsbD_place]
  interval_cases k <;> interval_cases i <;> simp

/-- A mask that covers OPC, and the unused fields, which are 0. -/
theorem of_fields (o : BitVec 8) (d a b c : Field) (m : Word) (h8 : ∀ j, j < 8 → m.getLsbD j = true)
    (h : ∀ k i, (hk : k < 4) → i < 4 → m.getLsbD (8 + 4 * k + i) = true → ([d, a, b, c][k]) = 0#4) :
    commandWord o d a b c &&& m = o.setWidth 32 := by
  refine commandWord_and o d a b c m (fun j h1 h2 hm => ?_) h8
  have hj : j = 8 + 4 * ((j - 8) / 4) + (j - 8) % 4 := by omega
  rw [hj] at hm ⊢
  rw [commandWord_field _ _ _ _ _ _ _ (by omega) (by omega), h _ _ (by omega) (by omega) hm]
  exact BitVec.getLsbD_zero

theorem nop : Statement .nop := ⟨_, rfl, by decide⟩

theorem zeroize : Statement .zeroize := ⟨_, rfl, by decide⟩

theorem montmul (d a b c : Field) : Statement (.montmul d a b c) := by
  refine ⟨_, rfl, of_fields _ _ _ _ _ _ (by decide) fun k i hk hi hm => ?_⟩
  interval_cases k <;> interval_cases i <;> first | rfl | exact absurd hm (by decide)

theorem montr2 (d c : Field) : Statement (.montr2 d c) := by
  refine ⟨_, rfl, of_fields _ _ _ _ _ _ (by decide) fun k i hk hi hm => ?_⟩
  interval_cases k <;> interval_cases i <;> first | rfl | exact absurd hm (by decide)

theorem modexp (d a b c : Field) : Statement (.modexp d a b c) := by
  refine ⟨_, rfl, of_fields _ _ _ _ _ _ (by decide) fun k i hk hi hm => ?_⟩
  interval_cases k <;> interval_cases i <;> first | rfl | exact absurd hm (by decide)

theorem i2osp (d a : Field) : Statement (.i2osp d a) := by
  refine ⟨_, rfl, of_fields _ _ _ _ _ _ (by decide) fun k i hk hi hm => ?_⟩
  interval_cases k <;> interval_cases i <;> first | rfl | exact absurd hm (by decide)

theorem os2ip (d a : Field) : Statement (.os2ip d a) := by
  refine ⟨_, rfl, of_fields _ _ _ _ _ _ (by decide) fun k i hk hi hm => ?_⟩
  interval_cases k <;> interval_cases i <;> first | rfl | exact absurd hm (by decide)

theorem mrtest (a : Field) : Statement (.mrtest a) := by
  refine ⟨_, rfl, of_fields _ _ _ _ _ _ (by decide) fun k i hk hi hm => ?_⟩
  interval_cases k <;> interval_cases i <;> first | rfl | exact absurd hm (by decide)

theorem mgf1 (d a : Field) : Statement (.mgf1 d a) := by
  refine ⟨_, rfl, of_fields _ _ _ _ _ _ (by decide) fun k i hk hi hm => ?_⟩
  interval_cases k <;> interval_cases i <;> first | rfl | exact absurd hm (by decide)

theorem pssenc (d a : Field) : Statement (.pssenc d a) := by
  refine ⟨_, rfl, of_fields _ _ _ _ _ _ (by decide) fun k i hk hi hm => ?_⟩
  interval_cases k <;> interval_cases i <;> first | rfl | exact absurd hm (by decide)

theorem pssver (a b : Field) : Statement (.pssver a b) := by
  refine ⟨_, rfl, of_fields _ _ _ _ _ _ (by decide) fun k i hk hi hm => ?_⟩
  interval_cases k <;> interval_cases i <;> first | rfl | exact absurd hm (by decide)

end Sys2Proof.Laws.EncodeMatchesRow
end

