-- ==== Sys2Proof/Laws/Registers.lean ====
section
/-! SUPPORT. The register file keeps its ranges: integer registers below 2^MAXBITS, buffer memory canonical and inside
the four buffers. -/

namespace Sys2Proof.Machine

theorem RegFile.inRange_setV {p : Params} {r : RegFile} (h : r.inRange p) (i : Field) {x : Nat}
    (hx : x < 2 ^ p.maxbits) : (r.setV i x).inRange p := by
  intro k
  have := h k
  simp only [RegFile.setV_v, Fin.getElem_fin, Vector.getElem_setIfInBounds] at this ⊢
  split <;> assumption

/-- Storing a string that stays inside a buffer keeps the memory canonical and inside the buffers. -/
theorem RegFile.memOk_writeBytes {p : Params} {r : RegFile} (h : r.memOk p) {j k : Nat} {b : List Byte} (hj : j < 4)
    (hb : k + b.length ≤ p.bufBytes) :
    RegFile.memOk p { r with mem := Memory.writeBytes r.mem (bufOffset j + k) b } := by
  refine ⟨Memory.writeBytes_wf h.1 _ _, fun c hc => ?_⟩
  rcases Memory.mem_writeBytes hc with hc | hc
  · exact ⟨j, hj, by omega, by omega⟩
  · exact h.2 c hc

theorem Field.toNat_lt_of_isB {f : Field} (h : Field.isB f = true) : f.toNat < 4 := by
  simpa [Field.isB] using h

theorem RegFile.memOk_setBuf {p : Params} {r : RegFile} (h : r.memOk p) {d : Field} {b : List Byte}
    (hd : d.toNat < 4) (hb : b.length ≤ p.bufBytes) : (r.setBuf d b).memOk p :=
  RegFile.memOk_writeBytes (k := 0) h hd (by omega)

theorem RegFile.memOk_filter {p : Params} {r : RegFile} (h : r.memOk p) (keep : Host.Cell → Bool) :
    RegFile.memOk p { r with mem := r.mem.filter keep } :=
  ⟨Memory.filter_wf h.1 keep, fun c hc => h.2 c (List.mem_of_mem_filter hc)⟩

theorem Memory.mem_of_mem_clear {m : Memory} {a n : Nat} {c : Host.Cell} (h : c ∈ m.clear a n) : c ∈ m :=
  List.mem_of_mem_filter h

theorem RegFile.memOk_zeroize {p : Params} {r : RegFile} (h : r.memOk p) : (r.zeroize p).memOk p :=
  ⟨Memory.clearBuffers_wf h.1 _, fun c hc =>
    h.2 c (Memory.mem_of_mem_clear (Memory.mem_of_mem_clear (Memory.mem_of_mem_clear (Memory.mem_of_mem_clear hc))))⟩

theorem RegFile.inRange_zeroize (p : Params) (r : RegFile) : (r.zeroize p).inRange p := by
  intro i
  simp [RegFile.zeroize]

/-- A buffer that a well-formed command writes exists. -/
theorem Effect.fits_isB {d : Field} {b : List Byte} {i : Instr} (h : (Effect.setB d b).fits i) (hi : i.wf = true) :
    d.toNat < 4 := by
  apply Field.toNat_lt_of_isB
  cases i <;> simp_all [Effect.fits, Instr.wf]

theorem Effect.fits_isV {d : Field} {x : Nat} {i : Instr} (h : (Effect.setV d x).fits i) (hi : i.wf = true) :
    d.toNat < 8 := by
  suffices Field.isV d = true by simpa [Field.isV] using this
  cases i <;> simp_all [Effect.fits, Instr.wf]

theorem RegFile.inRange_commit {s : State} {e : Effect} (h : s.regs.inRange s.params)
    (hs : s.inputs.inRange s.params) (he : e.bounded s) : (s.regs.commit s.params e).inRange s.params := by
  cases e with
  | nothing => exact h
  | setV d x => exact RegFile.inRange_setV h d (he hs)
  | setB d b => exact h
  | answer r => exact h
  | zeroize => exact RegFile.inRange_zeroize _ _

theorem RegFile.memOk_commit {s : State} {e : Effect} {i : Instr} (h : s.regs.memOk s.params) (hl : s.params.legal)
    (hf : e.fits i) (hi : i.wf = true) (he : e.bounded s) : (s.regs.commit s.params e).memOk s.params := by
  cases e with
  | nothing => exact h
  | setV d x => exact h
  | setB d b => exact RegFile.memOk_setBuf h (Effect.fits_isB hf hi) (he hl)
  | answer r => exact h
  | zeroize => exact RegFile.memOk_zeroize h

/-- The parameter registers are changed by no command. -/
theorem RegFile.sameParams_commit (p : Params) (r : RegFile) (e : Effect) : r.SameParams (r.commit p e) := by
  cases e <;> exact ⟨rfl, rfl, rfl, rfl, rfl⟩

/-! ### Limbs -/

theorem setLimb_lt {x j k : Nat} {w : Word} (hx : x < 2 ^ k) (hj : 32 * j + 32 ≤ k) : setLimb x j w < 2 ^ k := by
  obtain ⟨c, rfl⟩ := Nat.exists_eq_add_of_le hj
  rw [setLimb_eq]
  have hq : x / 2 ^ (32 * j) / 2 ^ 32 < 2 ^ c := by
    rw [Nat.div_div_eq_div_mul, Nat.div_lt_iff_lt_mul (by positivity)]
    calc x < 2 ^ (32 * j + 32 + c) := hx
      _ = 2 ^ c * (2 ^ (32 * j) * 2 ^ 32) := by ring
  have hr := Nat.mod_lt x (y := 2 ^ (32 * j)) (by positivity)
  have hw := w.isLt
  rw [show 2 ^ (32 * j + 32 + c) = 2 ^ c * 2 ^ 32 * 2 ^ (32 * j) by ring]
  generalize x / 2 ^ (32 * j) / 2 ^ 32 = q at *
  generalize x % 2 ^ (32 * j) = r at *
  generalize w.toNat = v at *
  clear hx
  generalize 2 ^ (32 * j) = m at *
  generalize 2 ^ c = n at *
  generalize 2 ^ 32 = b at *
  have h1 := Nat.mul_le_mul_right b (show q + 1 ≤ n from hq)
  have h2 := Nat.mul_le_mul_right m (show q * b + v + 1 ≤ n * b by rw [Nat.add_mul, Nat.one_mul] at h1; omega)
  rw [Nat.add_mul, Nat.one_mul] at h2
  omega

/-- A kept-or-cleared integer is no larger (70_reset_and_hazards.md R484). -/
theorem keepLimbs_le (keep : Nat → Bool) (x k : Nat) : keepLimbs keep x k ≤ x % 2 ^ (32 * k) := by
  induction k with
  | zero => simp [keepLimbs]
  | succ k ih =>
    have h1 : x % 2 ^ (32 * (k + 1)) = x % 2 ^ (32 * k) + 2 ^ (32 * k) * (limb x k).toNat := by
      rw [limb_toNat, show 32 * (k + 1) = 32 * k + 32 by ring, Nat.pow_add, Nat.mod_mul]
    rw [keepLimbs, h1, Nat.mul_comm]
    split <;> omega

end Sys2Proof.Machine
end

