-- ==== Sys2Proof/Laws/Run.lean ====
section
/-! SUPPORT. Runs of the machine, one step at a time. -/

namespace Sys2Proof.Machine

theorem run_of_step {s u : State} (h : step s = .next u) (k : Nat) :
    Sys2Proof.core.run (k + 1) s = Sys2Proof.core.run k u := by
  have h' : Sys2Proof.core.step s = .next u := h
  simp only [Host.Core.run]
  rw [h']

theorem run_one (s : State) : Sys2Proof.core.run 1 s = step s := by
  have h' : Sys2Proof.core.step s = step s := rfl
  simp only [Host.Core.run]
  rw [h']
  cases step s <;> rfl

theorem run_add {j : Nat} {s u : State} (h : Sys2Proof.core.run j s = .next u) (k : Nat) :
    Sys2Proof.core.run (j + k) s = Sys2Proof.core.run k u := by
  induction j generalizing s with
  | zero =>
    obtain rfl := Host.Outcome.next.inj h
    rw [Nat.zero_add]
  | succ j ih =>
    cases hs : Sys2Proof.core.step s with
    | next v =>
      rw [Nat.succ_add, run_of_step hs]
      exact ih ((run_of_step hs j).symm.trans h)
    | fault r =>
      simp only [Host.Core.run] at h
      rw [hs] at h
      exact nomatch h
    | refused r =>
      simp only [Host.Core.run] at h
      rw [hs] at h
      exact nomatch h

end Sys2Proof.Machine
end

