-- ==== Sys2Proof/Tests/Slice0.lean ====
section
/-! SUPPORT. Tests of the model: what the well-formedness check refuses, decoding of words written out from the spec's
encoding, single commands on the vectors of 95_test_vectors.md, and for each statement with hypotheses a named witness
that meets them. Every expected value comes from the spec. -/

namespace Sys2Proof.Tests

-- One proof at a time: many kernel evaluations side by side would each hold a thread's stack.
set_option Elab.async false

open Sys2Proof Sys2Proof.Machine

/-! ### Helpers -/

/-- The build of the vectors (95_test_vectors.md, conventions). -/
def specBuild : Params := { maxbits := 4096, hlen := 4, hash := .th32, mrRetry := 64, baseAddr := 0x10000 }

/-- The smallest legal build with the test hash. -/
def smallBuild : Params := { maxbits := 64, hlen := 4, hash := .th32, mrRetry := 1, baseAddr := 0 }

/-- The largest legal build. -/
def largeBuild : Params := { maxbits := 8192, hlen := 64, hash := .port, mrRetry := 256, baseAddr := 0xFFFF0000 }

/-- An idle machine with some integer registers, buffers and RNG bytes. -/
def machine (p : Params) (v : List (Field × Nat)) (b : List (Field × List Byte)) (rng : List Byte) : State :=
  let s := State.resetOf p
  { s with
    regs := b.foldl (fun r x => r.setBuf x.1 x.2) (v.foldl (fun r x => r.setV x.1 x.2) s.regs)
    rng := rng }

/-- The machine with PSS parameters. -/
def withPss (s : State) (modBits : BitVec 14) (sLen : BitVec 16) : State :=
  { s with regs := { s.regs with pssModbits := modBits, pssSlen := sLen } }

/-- The machine with the lengths that I2OSP and MGF1 take. -/
def withLens (s : State) (ospLen mgfLen : BitVec 16) : State :=
  { s with regs := { s.regs with ospLen := ospLen, mgfLen := mgfLen } }

/-- The machine with MR_ROUNDS. -/
def withRounds (s : State) (t : BitVec 8) : State := { s with regs := { s.regs with mrRounds := t } }

/-- The outcome is a next state with this property. -/
def ends (o : Host.Outcome State Fault Refusal) (p : State → Bool) : Bool :=
  match o with
  | .next t => p t
  | .fault _ => false
  | .refused _ => false

theorem exists_of_ends {o : Host.Outcome State Fault Refusal} {p : State → Bool} (h : ends o p = true) :
    ∃ t, o = .next t ∧ p t = true := by
  cases o with
  | next t => exact ⟨t, rfl, h⟩
  | fault f => cases h
  | refused r => cases h

/-- One step that runs the command word. -/
def command (s : State) (w : Word) : Host.Outcome State Fault Refusal := step (s.withFetchWord 32 w.toNat)

/-- Buffer `j`'s value. -/
def bufOf (s : State) (j : Field) : List Byte := s.regs.getBytes j (s.regs.getLen j)

/-- "test" hashed: TH-3. -/
def mHash : List Byte := [0xAF, 0xD0, 0x71, 0xE5]

/-- The EM of PE-1. -/
def emPE1 : List Byte := [0x0E, 0x77, 0x67, 0x12, 0x55, 0x9C, 0x23, 0xBC]

/-! ### WellFormed: an ill-formed term for each check (30_encoding.md R182, R186) -/

theorem test_wf_montmul : [Instr.montmul 8 0 0 0, .montmul 0 8 0 0, .montmul 0 0 8 0, .montmul 0 0 0 8].all
    (fun i => !i.wf) = true := by decide
theorem test_wf_montr2 : [Instr.montr2 8 0, .montr2 0 8].all (fun i => !i.wf) = true := by decide
theorem test_wf_modexp : [Instr.modexp 8 0 0 0, .modexp 0 8 0 0, .modexp 0 0 8 0, .modexp 0 0 0 8].all
    (fun i => !i.wf) = true := by decide
theorem test_wf_i2osp : [Instr.i2osp 4 0, .i2osp 0 8].all (fun i => !i.wf) = true := by decide
theorem test_wf_os2ip : [Instr.os2ip 8 0, .os2ip 0 4].all (fun i => !i.wf) = true := by decide
theorem test_wf_mrtest : (Instr.mrtest 8).wf = false := by decide
theorem test_wf_mgf1 : [Instr.mgf1 4 0, .mgf1 0 4].all (fun i => !i.wf) = true := by decide
theorem test_wf_pssenc : [Instr.pssenc 4 0, .pssenc 0 4].all (fun i => !i.wf) = true := by decide
theorem test_wf_pssver : [Instr.pssver 4 0, .pssver 0 4].all (fun i => !i.wf) = true := by decide
theorem test_wf_largest_indices : [Instr.nop, .zeroize, .montmul 7 7 7 7, .montr2 7 7, .modexp 7 7 7 7, .i2osp 3 7,
    .os2ip 7 3, .mrtest 7, .mgf1 3 3, .pssenc 3 3, .pssver 3 3].all Instr.wf = true := by decide

/-! ### Decoding: RSV, C, B, A, D, OPC written out from R181, R186 -/

theorem test_decode_nop : decode 0b00000000_0000_0000_0000_0000_00000000#32 = .ok .nop := by decide
theorem test_decode_zeroize : decode 0b00000000_0000_0000_0000_0000_00000001#32 = .ok .zeroize := by decide
theorem test_decode_montmul :
    decode 0b00000000_0010_0101_0101_0110_00010000#32 = .ok (.montmul 6 5 5 2) := by decide
theorem test_decode_montr2 : decode 0b00000000_0000_0000_0000_0011_00010001#32 = .ok (.montr2 3 0) := by decide
theorem test_decode_modexp :
    decode 0b00000000_0010_0100_0101_0110_00011000#32 = .ok (.modexp 6 5 4 2) := by decide
theorem test_decode_i2osp : decode 0b00000000_0000_0000_0110_0001_00100000#32 = .ok (.i2osp 1 6) := by decide
theorem test_decode_os2ip : decode 0b00000000_0000_0000_0011_0101_00100001#32 = .ok (.os2ip 5 3) := by decide
theorem test_decode_mrtest : decode 0b00000000_0000_0000_0101_0000_00110000#32 = .ok (.mrtest 5) := by decide
theorem test_decode_mgf1 : decode 0b00000000_0000_0000_0010_0001_01000000#32 = .ok (.mgf1 1 2) := by decide
theorem test_decode_pssenc : decode 0b00000000_0000_0000_0000_0001_01010000#32 = .ok (.pssenc 1 0) := by decide
theorem test_decode_pssver : decode 0b00000000_0000_0001_0011_0000_01010001#32 = .ok (.pssver 3 1) := by decide

/-- EN-7, EN-8. -/
theorem test_decode_illegal_opcodes :
    decode 0x00000002#32 = .error .opcode ∧ decode 0xFF0000FF#32 = .error .opcode := by decide
/-- EN-9, EN-10, EN-11. -/
theorem test_decode_reserved : decode 0x01910318#32 = .error .reserved ∧ decode 0x00000100#32 = .error .reserved ∧
    decode 0x00001011#32 = .error .reserved := by decide
/-- EN-12, EN-13, EN-14. -/
theorem test_decode_index : decode 0x00000820#32 = .error .index ∧ decode 0x00000420#32 = .error .index ∧
    decode 0x00008030#32 = .error .index := by decide
/-- The host's numbering of a row's word is the word. -/
theorem test_decode_table_word : decodeTableWord 32 0x00210318 = some (.modexp 3 0 1 2) ∧
    decodeTableWord 32 0x00000002 = none := by decide

/-! ### One command, on the spec's vectors -/

/-- The row's own match word runs first after reset, to a completion. -/
theorem test_rows_run_from_reset : tableRows.all (fun row =>
    ends (step (State.reset.withFetchWord 32 row.1.toNat)) fun t => t.done && !t.busy) = true := by decide +kernel

/-- CT-1. -/
theorem test_nop : ends (command (machine specBuild [(3, 7)] [] []) 0x00000000#32)
    (fun t => t.statusWord == 0x00000002#32 && t.irqStatusWord == 1#32 && t.regs.getV 3 == 7) = true := by decide +kernel
/-- EN-10. -/
theorem test_nop_reserved : ends (command (machine specBuild [] [] []) 0x00000100#32)
    (fun t => t.statusWord == 0x00000206#32) = true := by decide +kernel
/-- CT-2, CT-3. -/
theorem test_zeroize :
    ends (command (withPss (machine specBuild [(0, 5), (7, 9)] [(0, [1, 2]), (3, [3])] []) 64 2) 0x00000001#32)
      (fun t => t.regs.v == Vector.replicate 8 0 && t.regs.mem == [] && t.regs.blen == Vector.replicate 4 0#16 &&
        t.regs.pssModbits == 64#14 && t.statusWord == 0x00010002#32) = true := by decide +kernel
/-- MM-2. -/
theorem test_montmul : ends (command (machine specBuild [(0, 4), (4, 13), (2, 497)] [] []) 0x00240510#32)
    (fun t => t.regs.getV 5 == 132) = true := by decide +kernel
/-- MM-18: E_MOD_EVEN before E_RANGE. -/
theorem test_montmul_even_first :
    ends (command (machine specBuild [(0, 9), (4, 1), (2, 8), (5, 3)] [] []) 0x00240510#32)
      (fun t => t.errcode == .modEven && t.regs.getV 5 == 3) = true := by decide +kernel
/-- MM-8: two limbs. -/
theorem test_montr2 : ends (command (machine specBuild [(2, 8589934593)] [] []) 0x00200411#32)
    (fun t => t.regs.getV 4 == 8053063681) = true := by decide +kernel
/-- P2, last command. -/
theorem test_montr2_even : ends (command (machine specBuild [(0, 4)] [] []) 0x00000311#32)
    (fun t => t.statusWord == 0x00110706#32 && t.regs.getV 3 == 0) = true := by decide +kernel
/-- P3, ME-16. -/
theorem test_modexp :
    ends (command (machine specBuild [(0, 0x0E776712559C23BC), (1, 0x01817E7E5D5DA2A3), (2, 0xFFFFFFEA00000055)] [] [])
        0x00210318#32)
      (fun t => t.regs.getV 3 == 0xAA30EAD083E1F6E7) = true := by decide +kernel
/-- ME-15: every operand the same register. -/
theorem test_modexp_aliased : ends (command (machine specBuild [(0, 5)] [] []) 0x00000018#32)
    (fun t => t.regs.getV 0 == 0 && t.errcode == .ok) = true := by decide +kernel
/-- CV-7. -/
theorem test_i2osp :
    ends (command (withLens (machine specBuild [(3, 1)] [(2, [0, 0, 0, 0x11, 0x22, 0x33])] []) 3 0) 0x00003220#32)
      (fun t => bufOf t 2 == [0x00, 0x00, 0x01] && t.regs.getBytes 2 6 == [0x00, 0x00, 0x01, 0x11, 0x22, 0x33])
      = true := by decide +kernel
/-- CV-6: E_LEN before E_RANGE. -/
theorem test_i2osp_len : ends (command (withLens (machine specBuild [] [] []) 513 0) 0x00000020#32)
    (fun t => t.statusWord == 0x00200506#32) = true := by decide +kernel
/-- CV-8. -/
theorem test_os2ip : ends (command (machine specBuild [] [(1, emPE1)] []) 0x00001021#32)
    (fun t => t.readLoc (.vWord 0 0) == 0x559C23BC#32 && t.readLoc (.vWord 0 1) == 0x0E776712#32) = true := by
  decide +kernel
/-- CV-9. -/
theorem test_os2ip_empty : ends (command (machine specBuild [(0, 6)] [] []) 0x00001021#32)
    (fun t => t.regs.getV 0 == 0) = true := by decide +kernel
/-- MR-29. -/
theorem test_mrtest : ends (command (withRounds (machine specBuild [(0, 561)] [] [0xFF, 0xFF, 0x02, 0x31, 0xFC, 0x02]) 1)
      0x00000030#32)
    (fun t => t.statusWord == 0x00300002#32 && t.rng == []) = true := by decide +kernel
/-- MR-28: 50 is a strong liar for 561. -/
theorem test_mrtest_liar : ends (command (withRounds (machine specBuild [(0, 561)] [] [0x00, 0x32]) 1) 0x00000030#32)
    (fun t => t.statusWord == 0x0030000A#32 && t.rng == []) = true := by decide +kernel
/-- MG-4: the window words of B1. -/
theorem test_mgf1 : ends (command (withLens (machine specBuild [] [(0, [1, 2, 3, 4])] []) 0 10) 0x00000140#32)
    (fun t => t.readLoc (.bWord 1 0) == 0x4DF371C5#32 && t.readLoc (.bWord 1 1) == 0xBAF171C4#32 &&
      t.readLoc (.bWord 1 2) == 0x000071C3#32 && t.regs.getLen 1 == 10) = true := by decide +kernel
/-- MG-6. -/
theorem test_mgf1_len : ends (command (withLens (machine specBuild [] [(0, [1, 2, 3, 4])] []) 0 513) 0x00000140#32)
    (fun t => t.statusWord == 0x00400506#32) = true := by decide +kernel
/-- PE-1. -/
theorem test_pssenc : ends (command (withPss (machine specBuild [] [(0, mHash)] [0xA5, 0x5A, 0x77]) 64 2) 0x00000150#32)
    (fun t => bufOf t 1 == emPE1 && t.rng == [0x77]) = true := by decide +kernel
/-- PE-3: three bits cleared. -/
theorem test_pssenc_cleared_bits :
    ends (command (withPss (machine specBuild [] [(0, mHash)] [0x11, 0x22]) 70 2) 0x00000150#32)
      (fun t => bufOf t 1 == [0x11, 0x99, 0xC8, 0xFF, 0x21, 0x99, 0xCF, 0x7F, 0xBC]) = true := by decide +kernel
/-- PV-2: conflict C3. -/
theorem test_pssver : ends (command (withPss (machine specBuild [] [(0, mHash), (1, emPE1)] []) 64 2) 0x00010051#32)
    (fun t => t.statusWord == 0x0051000A#32) = true := by decide +kernel
/-- PV-12: DB[0] = 0x81 with no bit cleared. -/
theorem test_pssver_layout : ends (command (withPss (machine specBuild [] [(0, mHash), (1, emPE1)] []) 65 2) 0x00010051#32)
    (fun t => t.statusWord == 0x00510002#32) = true := by decide +kernel

/-- A silent HASH port keeps MGF1 and PSSENC BUSY, with nothing changed (70_reset_and_hazards.md R493). -/
theorem test_silent_hash_waits : [0x00000140#32, 0x00000150#32].all (fun w =>
    ends (command ((withPss (withLens (machine specBuild [] [(0, mHash)] [0xA5, 0x5A]) 0 10) 64 2).withHash false) w)
      (fun t => t.busy && !t.done && t.rng == [0xA5, 0x5A] && t.regs.getLen 1 == 0)) = true := by decide +kernel

/-! ### Host accesses, on the spec's vectors -/

/-- BU-1, BU-2, BU-3. -/
theorem test_constants : idWord = 0x52500100#32 ∧ cfgWord Params.default = 0x48200080#32 ∧
    cfgWord smallBuild = 0x48040002#32 ∧ cfgWord specBuild = 0x48040080#32 := by decide
/-- BU-5. -/
theorem test_reset_parameters : (State.resetOf specBuild).readLoc .pssSlen = 4#32 ∧
    (State.resetOf specBuild).readLoc .mrRounds = 0x14#32 := by decide
/-- BU-11. -/
theorem test_limb_write : ends (busAccess (State.resetOf specBuild) (memWrite specBuild 0x1004 0xDEADBEEF#32))
    (fun t => t.regs.getV 0 == 0xDEADBEEF * 2 ^ 32) = true := by decide +kernel
/-- BU-13. -/
theorem test_buffer_write : ends (busAccess (State.resetOf specBuild) (memWrite specBuild 0x4000 0xE571D0AF#32))
    (fun t => t.regs.getBytes 0 4 == [0xAF, 0xD0, 0x71, 0xE5] && t.regs.getLen 0 == 0) = true := by decide +kernel
/-- BU-16. -/
theorem test_overrun :
    ends (busAccess ((State.resetOf specBuild).accept 0x00210318#32) (memWrite specBuild 0x010 0#32))
      (fun t => t.ovrP && t.cmd == 0x00210318#32 && t.resp == some ⟨false, 0#32⟩) = true := by decide +kernel
/-- BU-20. -/
theorem test_irq_clear : ends (busAccess { State.resetOf specBuild with ie := true, doneP := true, ovrP := true }
    (memWrite specBuild 0x014 2#32)) (fun t => !t.ovrP && t.doneP && t.irq) = true := by decide +kernel
/-- CT-4. -/
theorem test_soft_reset : ends (busAccess { State.resetOf specBuild with ie := true, doneP := true, done := true }
    (memWrite specBuild 0x008 3#32)) (fun t => !t.ie && !t.irq && t.statusWord == 0#32 && t.irqStatusWord == 0#32)
    = true := by decide +kernel

/-! ### Witnesses: for each statement with hypotheses, a state and operands that meet them -/

/-- A machine with operands in V0, V1, V2, V4 and buffers 0 and 1, and RNG bytes. -/
def bench : State :=
  withLens (withPss (machine specBuild [(0, 4), (1, 561), (2, 497), (4, 13)] [(0, mHash), (1, emPE1)] [0xA5, 0x5A])
    64 2) 4 3

/-- The bench with a command in flight. -/
def running (w : Word) : State := bench.accept w

theorem running_inv : (running 0x00240510#32).Inv where
  legal := by decide +kernel
  inRange := by unfold RegFile.inRange; decide +kernel
  memOk := by unfold RegFile.memOk; decide +kernel
  snapshot := fun snap h => by
    obtain rfl : (⟨0x00240510#32, bench.regs⟩ : Snapshot) = snap := Option.some.inj h
    exact ⟨rfl, rfl⟩
  running := fun _ => ⟨rfl, rfl, rfl⟩
  fresh := fun h => nomatch h
  lastop := rfl
  result := fun h => nomatch h
  scratch := fun h => nomatch h

theorem witness_EncodeDecodeRoundTrip : decode 0x00210318#32 = .ok (.modexp 3 0 1 2) := by decide

/-- A word of no row's opcode; and the first, a middle and the last row, with a word that each clause is about. -/
theorem witness_OpcodeTableMasks :
    (∀ row ∈ tableRows, 0x02#32 &&& 0xFF#32 ≠ row.1) ∧
    (tableRows[0]? = some (0x00000000#32, 0xFFFFFFFF#32) ∧ 0x100#32 &&& 0xFF#32 = 0x00000000#32 ∧
      0x100#32 &&& 0xFFFFFFFF#32 ≠ 0x00000000#32) ∧
    (tableRows[5]? = some (0x00000020#32, 0xFFFF00FF#32) ∧ 0x420#32 &&& 0xFF#32 = 0x00000020#32 ∧
      0x420#32 &&& 0xFFFF00FF#32 = 0x00000020#32) ∧
    tableRows[10]? = some (0x00000051#32, 0xFFF00FFF#32) ∧ 0x33051#32 &&& 0xFF#32 = 0x00000051#32 ∧
      0x33051#32 &&& 0xFFF00FFF#32 = 0x00000051#32 :=
  ⟨by simp [tableRows], ⟨rfl, by decide, by decide⟩, ⟨rfl, by decide, by decide⟩, rfl, by decide, by decide⟩

theorem witness_IllegalOpcodeCompletes : bench.busy = false ∧
    (0x02#32).extractLsb' 0 8 ∉ [0x00#8, 0x01#8, 0x10#8, 0x11#8, 0x18#8, 0x20#8, 0x21#8, 0x30#8, 0x40#8, 0x50#8, 0x51#8] ∧
    (0xFF0000FF#32).extractLsb' 0 8 ∉
      [0x00#8, 0x01#8, 0x10#8, 0x11#8, 0x18#8, 0x20#8, 0x21#8, 0x30#8, 0x40#8, 0x50#8, 0x51#8] := by decide +kernel

theorem witness_UndecodableWordCompletes :
    (running 0x02#32).inflight = some ⟨0x02#32, bench.regs⟩ ∧ decode 0x02#32 = .error .opcode ∧
    (Instr.i2osp 4 0).wf = false ∧ (Instr.pssver 0 15).wf = false := ⟨rfl, by decide, by decide, by decide⟩

theorem witness_StepRunsDecodedCommand :
    ((running 0x00240510#32).withAgenda [.engine, .engine]).inflight = some ⟨0x00240510#32, bench.regs⟩ ∧
    decode 0x00240510#32 = .ok (.montmul 5 0 4 2) ∧
    ((running 0x00240510#32).withAgenda [.engine, .engine]).agenda = .engine :: [.engine] ∧
    (running 0x00240510#32).agenda = [] := ⟨rfl, by decide, rfl, rfl⟩

theorem witness_CmdWriteThenEngineRunsCommand :
    decode 0x00240510#32 = .ok (.montmul 5 0 4 2) ∧
    (bench.withAgenda [.bus (memWrite bench.params 0x010 0x00240510#32), .engine]).busy = false ∧
    (bench.withAgenda [.bus (memWrite bench.params 0x010 0x00240510#32), .engine]).agenda =
      .bus (memWrite bench.params 0x010 0x00240510#32) :: .engine :: [] := ⟨by decide, rfl, rfl⟩

theorem witness_HardwareResetValues :
    ((running 0x00240510#32).withAgenda [.hardReset, .engine]).agenda = .hardReset :: [.engine] := rfl

theorem witness_PowerOnInvariant :
    Params.default.legal ∧ specBuild.legal ∧ smallBuild.legal ∧ largeBuild.legal := by decide +kernel

theorem witness_StepKeepsInvariant :
    ∃ s t, State.Inv s ∧ step s = .next t ∧ t.regs.getV 5 = 132 := by
  obtain ⟨t, h, hv⟩ := exists_of_ends
    (show ends (step (running 0x00240510#32)) (fun t => t.regs.getV 5 == 132) = true by decide +kernel)
  exact ⟨_, t, running_inv, h, by simpa using hv⟩

/-- One step of a machine whose first move is this. -/
def move (s : State) (e : Event) : Host.Outcome State Fault Refusal := step (s.withAgenda [e])

/-- Idle to busy by a CMD write; busy to idle by the engine, by CTRL, and by hardware reset. -/
theorem witness_EngineStateTransitions :
    (bench.busy = false ∧ ∃ t, move bench (.bus (memWrite specBuild 0x010 0#32)) = .next t ∧ t.busy = true) ∧
    (running 0#32).busy = true ∧ (∃ t, step (running 0#32) = .next t ∧ t.busy = false) ∧
    (∃ t, move (running 0#32) .engine = .next t ∧ t.busy = false) ∧
    (∃ t, move (running 0#32) (.bus (memWrite specBuild 0x008 2#32)) = .next t ∧ t.busy = false) ∧
    ∃ t, move (running 0#32) .hardReset = .next t ∧ t.busy = false :=
  ⟨⟨rfl, _, rfl, rfl⟩, rfl, ⟨_, rfl, rfl⟩, ⟨_, rfl, rfl⟩, ⟨_, rfl, rfl⟩, ⟨_, rfl, rfl⟩⟩

/-- Both bits pending. -/
def pending : State := { bench with doneP := true, ovrP := true }

theorem witness_PendingBitsClearedOnlyByHost :
    (pending.doneP = true ∧ ∃ t, move pending (.bus (memWrite specBuild 0x014 1#32)) = .next t ∧ t.doneP = false) ∧
    (pending.ovrP = true ∧ ∃ t, move pending (.bus (memWrite specBuild 0x014 2#32)) = .next t ∧ t.ovrP = false) ∧
    (∃ t, move pending (.bus (memWrite specBuild 0x008 2#32)) = .next t ∧ t.doneP = false) ∧
    ∃ t, move pending .hardReset = .next t ∧ t.ovrP = false :=
  ⟨⟨rfl, _, rfl, rfl⟩, ⟨rfl, _, rfl, rfl⟩, ⟨_, rfl, rfl⟩, ⟨_, rfl, rfl⟩⟩

/-- A machine with the candidate in V0, MR_ROUNDS, and RNG bytes. -/
def candidate (n : Nat) (t : BitVec 8) (rng : List Byte) : State :=
  withRounds (machine specBuild [(0, n)] [] rng) t

/-- A byte delivered; a salt taken by PSSENC; a witness taken by MRTEST (MR-28). -/
theorem witness_RngTakenOnlyByDrawingCommands :
    (∃ t, move bench (.rng 0x11) = .next t ∧ t.rng ≠ bench.rng) ∧
    (∃ t, step (running 0x00000150#32) = .next t ∧ t.rng ≠ (running 0x00000150#32).rng) ∧
    ∃ t, move ((candidate 561 1 [0x00, 0x32]).accept 0x00000030#32) .engine = .next t ∧
      t.rng ≠ ((candidate 561 1 [0x00, 0x32]).accept 0x00000030#32).rng := by
  obtain ⟨t, h, ht⟩ := exists_of_ends
    (show ends (move bench (.rng 0x11)) (fun t => t.rng != [0xA5, 0x5A]) = true by decide +kernel)
  obtain ⟨u, h', hu⟩ := exists_of_ends
    (show ends (step (running 0x00000150#32)) (fun t => t.rng != [0xA5, 0x5A]) = true by decide +kernel)
  obtain ⟨v, h'', hv⟩ := exists_of_ends
    (show ends (move ((candidate 561 1 [0x00, 0x32]).accept 0x00000030#32) .engine) (fun t => t.rng == []) = true by
      decide +kernel)
  refine ⟨⟨t, h, ?_⟩, ⟨u, h', ?_⟩, v, h'', ?_⟩
  · rw [show bench.rng = [0xA5, 0x5A] by decide +kernel]
    exact bne_iff_ne.mp ht
  · rw [show (running 0x00000150#32).rng = [0xA5, 0x5A] by decide +kernel]
    exact bne_iff_ne.mp hu
  · rw [beq_iff_eq.mp hv]
    exact List.cons_ne_nil _ _ ∘ Eq.symm

theorem witness_ReadOnlyRegisters : bench.params.legal ∧
    (∃ t, busAccess bench (memWrite bench.params 0x000 7#32) = .next t) ∧
    (∃ t, busAccess bench (memWrite bench.params 0x004 7#32) = .next t) ∧
    ∃ t, busAccess bench (memWrite bench.params 0x00C 7#32) = .next t :=
  ⟨by decide +kernel, ⟨_, rfl⟩, ⟨_, rfl⟩, ⟨_, rfl⟩⟩

/-- BU-7, and a partial strobe, at both ends of the block. -/
theorem witness_IllegalAccessSlverr :
    bench.params.baseAddr ≤ 0x10000 ∧ 0x1FFFF < bench.params.baseAddr + 0x10000 ∧
    (⟨0x10000, 1, 0xF#4, none⟩ : Access).size ≠ 4 ∧ (0x1FFFF - bench.params.baseAddr) % 4 ≠ 0 ∧
    (⟨0x10000, 4, 0x7#4, none⟩ : Access).strobes ≠ 0xF#4 := by decide

/-- The first and last word of each range, and a neighbour of each. -/
theorem witness_BusyLock : (running 0#32).busy = true ∧
    (∀ off ∈ [0x020, 0x024, 0x028, 0x02C, 0x030, 0x040, 0x04C, 0x1000, 0x2FFC, 0x4000, 0x4FFC], off % 4 = 0 ∧
      off < 0x10000 ∧ (off = 0x020 ∨ off = 0x024 ∨ off = 0x028 ∨ off = 0x02C ∨ off = 0x030 ∨
        (0x040 ≤ off ∧ off < 0x050) ∨ (0x1000 ≤ off ∧ off < 0x3000) ∨ (0x4000 ≤ off ∧ off < 0x5000))) ∧
    ∀ off ∈ [0x000, 0x014, 0x01C, 0x034, 0x03C, 0x050, 0xFFC, 0x3000, 0x3FFC, 0x5000, 0xFFFC], off % 4 = 0 ∧
      off < 0x10000 ∧ ¬(off = 0x020 ∨ off = 0x024 ∨ off = 0x028 ∨ off = 0x02C ∨ off = 0x030 ∨
        (0x040 ≤ off ∧ off < 0x050) ∨ (0x1000 ≤ off ∧ off < 0x3000) ∨ (0x4000 ≤ off ∧ off < 0x5000)) := by decide

/-- The first and last word of each reserved range and of each window tail. -/
theorem witness_ReservedOffsetsAndTails :
    (∀ off ∈ [0x018, 0x01C, 0x034, 0x03C, 0x050, 0xFFC, 0x3000, 0x3FFC, 0x5000, 0xFFFC], off % 4 = 0 ∧
      (off = 0x018 ∨ off = 0x01C ∨ (0x034 ≤ off ∧ off < 0x040) ∨ (0x050 ≤ off ∧ off < 0x1000) ∨
        (0x3000 ≤ off ∧ off < 0x4000) ∨ (0x5000 ≤ off ∧ off < 0x10000))) ∧
    bench.busy = false ∧ bench.params.maxbits % 32 = 0 ∧ bench.params.limbs ≤ 128 ∧ bench.params.bufBytes ≤ 512 ∧
    0x1200 = 0x1000 + 0x400 * 0 + 4 * 128 ∧ 0x2FFC = 0x1000 + 0x400 * 7 + 4 * 255 ∧
    0x4200 = 0x4000 + 0x400 * 0 + 512 ∧ 0x4FFC = 0x4000 + 0x400 * 3 + 1020 := by decide +kernel

/-- The first limb of V0, and the last of V7 in the largest build. -/
theorem witness_IntegerWindow :
    (bench.busy = false ∧ 0 < 8 ∧ 0 < bench.params.limbs ∧ bench.params.maxbits ≤ 8192 ∧
      bench.params.maxbits % 32 = 0 ∧ bench.regs.getV (BitVec.ofNat 4 0) < 2 ^ bench.params.maxbits) ∧
    (State.resetOf largeBuild).busy = false ∧ 7 < 8 ∧ 255 < (State.resetOf largeBuild).params.limbs ∧
    (State.resetOf largeBuild).params.maxbits ≤ 8192 := by decide +kernel

/-- The first word of B0, and the last of B3 in the largest build. -/
theorem witness_BufferWindow :
    (bench.busy = false ∧ 0 < 4 ∧ 4 * 0 < bench.params.bufBytes ∧ bench.params.maxbits ≤ 8192 ∧
      Memory.wf bench.regs.mem) ∧
    (State.resetOf largeBuild).busy = false ∧ 3 < 4 ∧ 4 * 255 < (State.resetOf largeBuild).params.bufBytes ∧
    (State.resetOf largeBuild).params.maxbits ≤ 8192 := by decide +kernel

theorem witness_ParameterRegistersStore : bench.busy = false ∧
    (0x020, 14) ∈ [(0x020, 14), (0x024, 16), (0x028, 8), (0x02C, 16), (0x030, 16), (0x040, 16), (0x044, 16),
      (0x048, 16), (0x04C, 16)] ∧
    (0x04C, 16) ∈ [(0x020, 14), (0x024, 16), (0x028, 8), (0x02C, 16), (0x030, 16), (0x040, 16), (0x044, 16),
      (0x048, 16), (0x04C, 16)] := by decide +kernel

theorem witness_ReadsHaveNoSideEffect : (memRead bench.params 0x014).data = none ∧
    ∃ t, busAccess bench (memRead bench.params 0x014) = .next t := ⟨rfl, _, rfl⟩

theorem witness_CtrlWrite : (0x3#32).getLsbD 1 = true ∧ (0x1#32).getLsbD 1 = false := by decide

theorem witness_CmdWriteAcceptsOrOverruns : bench.busy = false ∧ (running 0#32).busy = true := ⟨rfl, rfl⟩

theorem witness_AccessOutsideBlockFaults :
    (⟨0xFFFC, 4, 0xF#4, none⟩ : Access).addr < bench.params.baseAddr ∧
    bench.params.baseAddr + 0x10000 ≤ (⟨0x20000, 4, 0xF#4, none⟩ : Access).addr := by decide

theorem witness_SoftResetEffect : (0x2#32).getLsbD 1 = true ∧ bench.busy = false := ⟨by decide, rfl⟩

/-- A running command of each kind. -/
theorem witness_AbortScramblesOnlyDestination :
    (∀ w, (running w).inflight = some ⟨w, bench.regs⟩) ∧
    decode 0x00240510#32 = .ok (.montmul 5 0 4 2) ∧ decode 0x00200411#32 = .ok (.montr2 4 2) ∧
    decode 0x00210318#32 = .ok (.modexp 3 0 1 2) ∧ decode 0x00001021#32 = .ok (.os2ip 0 1) ∧
    decode 0x00003220#32 = .ok (.i2osp 2 3) ∧ decode 0x00000140#32 = .ok (.mgf1 1 0) ∧
    decode 0x00000150#32 = .ok (.pssenc 1 0) ∧ decode 0x00000030#32 = .ok (.mrtest 0) ∧
    decode 0x00010051#32 = .ok (.pssver 0 1) ∧ decode 0#32 = .ok .nop ∧ decode 0x02#32 = .error .opcode :=
  ⟨fun _ => rfl, by decide⟩

theorem witness_AbortedZeroizeKeepsOrClears :
    (running 0x01#32).inflight = some ⟨0x01#32, bench.regs⟩ ∧ decode 0x01#32 = .ok .zeroize := ⟨rfl, by decide⟩

/-- MONTMUL, with a CMD write, an operand write, an RNG byte and a move of the HASH port before the engine moves. -/
theorem witness_CommandIsAtomicTransaction : (running 0x00240510#32).busy = true ∧
    (∃ t, engineStep (running 0x00240510#32) = .next t ∧ t.busy = false) ∧
    ∀ e ∈ [Event.bus (memWrite specBuild 0x010 0#32), .bus (memWrite specBuild 0x1000 9#32), .rng 0x11, .hash true],
      Event.harmless (running 0x00240510#32).params e := by
  obtain ⟨t, h, ht⟩ := exists_of_ends
    (show ends (engineStep (running 0x00240510#32)) (fun t => !t.busy) = true by decide +kernel)
  refine ⟨rfl, ⟨t, h, by simpa using ht⟩, fun e he => ?_⟩
  simp only [List.mem_cons, List.not_mem_nil, or_false] at he
  obtain rfl | rfl | rfl | rfl := he
  · exact ⟨by decide, by decide, fun _ _ h => absurd h (by decide)⟩
  · exact ⟨by decide, by decide, fun _ _ h => absurd h (by decide)⟩
  · exact trivial
  · exact rfl

/-- Two machines with the same snapshot and other registers. -/
theorem witness_CommandReadsOnlyItsSnapshot :
    ∃ s' t : State, (running 0x00240510#32).inflight = some ⟨0x00240510#32, bench.regs⟩ ∧
      s'.inflight = some ⟨0x00240510#32, bench.regs⟩ ∧ s'.params = (running 0x00240510#32).params ∧
      s'.rng = (running 0x00240510#32).rng ∧ s'.hashServes = (running 0x00240510#32).hashServes ∧
      exec (.montmul 5 0 4 2) (running 0x00240510#32) = .next t ∧
      t.busy = false ∧ t.regs.getV 5 ≠ (running 0x00240510#32).regs.getV 5 ∧
      Memory.wf (running 0x00240510#32).regs.mem ∧ Memory.wf s'.regs.mem := by
  obtain ⟨t, h, ht⟩ := exists_of_ends
    (show ends (exec (.montmul 5 0 4 2) (running 0x00240510#32)) (fun t => !t.busy && t.regs.getV 5 == 132) = true by
      decide +kernel)
  simp only [Bool.and_eq_true, Bool.not_eq_true', beq_iff_eq] at ht
  refine ⟨{ running 0x00240510#32 with regs := bench.regs.setV 0 99 }, t, rfl, rfl, rfl, rfl, rfl, h, ht.1, ?_, ?_, ?_⟩
  · rw [ht.2]; decide +kernel
  · decide +kernel
  · decide +kernel

/-- EN-12, and MONTMUL with a ≥ n. -/
theorem witness_ErrorCommitsNothing :
    ((running 0x00000820#32).busy = true ∧
      ∃ t, engineStep (running 0x00000820#32) = .next t ∧ t.busy = false ∧ t.errcode ≠ .ok) ∧
    (running 0x00241510#32).busy = true ∧
      ∃ t, engineStep (running 0x00241510#32) = .next t ∧ t.busy = false ∧ t.errcode ≠ .ok := by
  obtain ⟨t, h, ht⟩ := exists_of_ends
    (show ends (engineStep (running 0x00000820#32)) (fun t => !t.busy && t.errcode != .ok) = true by decide +kernel)
  obtain ⟨u, h', hu⟩ := exists_of_ends
    (show ends (engineStep (running 0x00241510#32)) (fun t => !t.busy && t.errcode != .ok) = true by decide +kernel)
  exact ⟨⟨rfl, t, h, by simpa using ht⟩, rfl, u, h', by simpa using hu⟩

theorem witness_CommandsNeverFault : bench.params.legal := by decide +kernel

/-- A byte outside the buffers. -/
theorem witness_ControlCommandResults :
    (3 : Field).toNat < 4 ∧ 511 < bench.params.bufBytes ∧
    ∀ j, j < 4 → 0x4200 < bufOffset j ∨ bufOffset j + bench.params.bufBytes ≤ 0x4200 := by decide +kernel

/-- The least and the greatest modulus of one and of two limbs. -/
theorem witness_MontgomeryRadix : (1 ≤ 1 ∧ 1 < 2 ^ (32 * 1)) ∧ (1 ≤ 2 ^ 32 - 1 ∧ 2 ^ 32 - 1 < 2 ^ (32 * 1)) ∧
    (1 ≤ 2 ^ 32 ∧ 2 ^ 32 < 2 ^ (32 * 2)) ∧ 1 ≤ 2 ^ 64 - 1 ∧ 2 ^ 64 - 1 < 2 ^ (32 * 2) := by decide

/-- MM-2, and the modulus 1 of MM-14. -/
theorem witness_MontmulResult :
    ((Instr.montmul 5 0 4 2).wf = true ∧ bench.opV 2 % 2 = 1 ∧ bench.opV 0 < bench.opV 2 ∧ bench.opV 4 < bench.opV 2) ∧
    (machine smallBuild [(2, 1)] [] []).opV 2 % 2 = 1 ∧
      (machine smallBuild [(2, 1)] [] []).opV 0 < (machine smallBuild [(2, 1)] [] []).opV 2 := by decide +kernel

theorem witness_Montr2Result : (Instr.montr2 4 2).wf = true ∧ bench.opV 2 % 2 = 1 := by decide +kernel

/-- L1-1, and the modulus 1 of ME-4. -/
theorem witness_ModexpResult : (Instr.modexp 3 0 4 2).wf = true ∧ 1 ≤ bench.opV 2 ∧
    1 ≤ (machine smallBuild [(2, 1)] [] []).opV 2 := by decide +kernel

/-- MM-3 to MM-5, and the modulus 1. -/
theorem witness_MontgomeryIdentities : (497 % 2 = 1 ∧ 4 < 497 ∧ 496 < 497 ∧ 1 < 497) ∧ 1 % 2 = 1 ∧ 0 < 1 := by decide

/-- CV-1's shape, and the empty string of CV-4. -/
theorem witness_I2ospResult :
    ((Instr.i2osp 2 0).wf = true ∧ bench.params.legal ∧ Memory.wf bench.regs.mem ∧
      bench.outLen ≤ bench.params.bufBytes ∧ bench.opV 0 < 256 ^ bench.outLen) ∧
    (withLens bench 0 0).outLen ≤ bench.params.bufBytes ∧
      (withLens bench 0 0).opV 7 < 256 ^ (withLens bench 0 0).outLen := by decide +kernel

theorem witness_Os2ipResult : (Instr.os2ip 0 1).wf = true ∧ bench.opLen 1 ≤ bench.params.bufBytes := by decide +kernel

/-- The greatest x of four bytes. -/
theorem witness_ConversionRoundTrip : 2 ^ 32 - 1 < 256 ^ 4 ∧ 0 < 256 ^ 0 := by decide

/-- MM-17, MM-18, MM-19, CV-5, CV-6, CV-11, MG-6, MG-7 and their neighbours. -/
theorem witness_OperandErrors :
    ((Instr.montmul 5 0 4 3).wf = true ∧ bench.opV 3 = 0) ∧
    ((Instr.montmul 5 0 4 0).wf = true ∧ bench.opV 0 ≠ 0 ∧ bench.opV 0 % 2 = 0) ∧
    (bench.opV 2 % 2 = 1 ∧ bench.opV 2 ≤ bench.opV 2) ∧ bench.opV 2 ≤ bench.opV 1 ∧
    ((Instr.montr2 4 3).wf = true ∧ (Instr.modexp 3 0 1 3).wf = true ∧ (Instr.montr2 4 0).wf = true) ∧
    ((Instr.i2osp 2 0).wf = true ∧ (withLens bench 513 513).params.bufBytes < (withLens bench 513 513).outLen ∧
      (withLens bench 0 0).outLen ≤ (withLens bench 0 0).params.bufBytes ∧
      256 ^ (withLens bench 0 0).outLen ≤ (withLens bench 0 0).opV 0) ∧
    ((Instr.os2ip 0 0).wf = true ∧ (Instr.mgf1 1 0).wf = true ∧
      ({ bench with regs := bench.regs.setLen 0 513 } : State).params.bufBytes <
        ({ bench with regs := bench.regs.setLen 0 513 } : State).opLen 0) ∧
    (withLens bench 513 513).params.bufBytes < (withLens bench 513 513).maskLen := by decide +kernel

/-- MR-1 to MR-7: 0, 2, 3, an even number, and t = 0. -/
theorem witness_MrtestScreening :
    (Instr.mrtest 0).wf = true ∧ (withRounds bench 0).rounds = 0 ∧ bench.rounds ≠ 0 ∧
    bench.opV 3 < 4 ∧ bench.opV 0 % 2 = 0 ∧
    (machine specBuild [(0, 2), (1, 3)] [] []).opV 0 = 2 ∧ (machine specBuild [(0, 2), (1, 3)] [] []).opV 1 < 4 := by
  decide +kernel

/-- MR-8: 5 = 2² · 1 + 1. -/
theorem witness_DecomposeUnique : (5 % 2 = 1 ∧ 5 ≤ 5) ∧ 1 ≤ 2 ∧ 1 % 2 = 1 ∧ 5 - 1 = 2 ^ 2 * 1 := by decide

theorem witness_RoundTestMeaning : 1 ≤ (decompose 561).1 ∧ (decompose 561).1 = 4 := by decide +kernel

/-- MR-31, every attempt of a build with one rejected, and MR-31 before its last byte is delivered. -/
theorem witness_WitnessDrawMeaning :
    drawWitness 64 5 [0x00, 0x01, 0x07, 0xFB, 0x22] = .witness 3 [0x22] ∧
    drawWitness 1 5 [0x00] = .exhausted [] ∧ drawWitness 64 5 [0x00, 0x01, 0x07] = .awaiting := by decide +kernel

/-- 13 in V4. -/
theorem witness_MrtestNeverRejectsPrime :
    (Instr.mrtest 4).wf = true ∧ bench.rounds ≠ 0 ∧ Nat.Prime (bench.opV 4) := by
  refine ⟨by decide, by decide +kernel, ?_⟩
  rw [show bench.opV 4 = 13 by decide +kernel]
  norm_num

/-- One round of a build with one draw, exactly its two bytes delivered. -/
theorem witness_MrtestCompletesOnceBytesDelivered :
    let s := withRounds (machine smallBuild [(1, 561)] [] [0x00, 0x02]) 1
    (Instr.mrtest 1).wf = true ∧ s.rounds ≠ 0 ∧
      s.rounds * s.params.mrRetry * ((bitlen (s.opV 1) + 7) / 8) ≤ s.rng.length := by decide +kernel

/-- MR-27: the first witness fails. -/
theorem witness_MrtestRoundByRound :
    (Instr.mrtest 0).wf = true ∧ 5 ≤ (candidate 561 1 [0x00, 0x02]).opV 0 ∧
    (candidate 561 1 [0x00, 0x02]).opV 0 % 2 = 1 ∧ (candidate 561 1 [0x00, 0x02]).rounds ≠ 0 ∧
    drawWitness specBuild.mrRetry ((candidate 561 1 [0x00, 0x02]).opV 0) (candidate 561 1 [0x00, 0x02]).rng =
      .witness 2 [] ∧
    mrRound 561 (decompose 561).1 (decompose 561).2 2 = false := by decide +kernel

/-- MR-28: the first witness passes and no round is left. -/
theorem witness_MrtestRoundByRound_last :
    drawWitness specBuild.mrRetry ((candidate 561 1 [0x00, 0x32]).opV 0) (candidate 561 1 [0x00, 0x32]).rng =
      .witness 50 [] ∧
    (candidate 561 1 [0x00, 0x32]).rounds = 1 ∧
    mrRound 561 (decompose 561).1 (decompose 561).2 50 = true := by decide +kernel

/-- MR-35: the first witness passes and a round is left. -/
theorem witness_MrtestRoundByRound_more :
    drawWitness specBuild.mrRetry ((candidate 563 2 [0x00, 0x02, 0x00, 0x03]).opV 0) [0x00, 0x02, 0x00, 0x03] =
      .witness 2 [0x00, 0x03] ∧
    mrRound 563 (decompose 563).1 (decompose 563).2 2 = true ∧
    (candidate 563 1 [0x00, 0x03]).params = (candidate 563 2 [0x00, 0x02, 0x00, 0x03]).params ∧
    (candidate 563 1 [0x00, 0x03]).opV 0 = (candidate 563 2 [0x00, 0x02, 0x00, 0x03]).opV 0 ∧
    (candidate 563 1 [0x00, 0x03]).rounds ≠ 0 ∧
    (candidate 563 1 [0x00, 0x03]).rounds + 1 = (candidate 563 2 [0x00, 0x02, 0x00, 0x03]).rounds ∧
    (candidate 563 1 [0x00, 0x03]).rng = [0x00, 0x03] := by decide +kernel

/-- The draws of a build with one are exhausted; no byte is delivered. -/
theorem witness_MrtestRoundByRound_no_witness :
    (∀ rng ∈ [[], [0x00#8, 0x00#8]],
      let s := withRounds (machine smallBuild [(0, 561)] [] rng) 1
      5 ≤ s.opV 0 ∧ s.opV 0 % 2 = 1 ∧ s.rounds ≠ 0) ∧
    drawWitness smallBuild.mrRetry 561 [0x00, 0x00] = .exhausted [] ∧
    drawWitness smallBuild.mrRetry 561 [] = .awaiting := by decide +kernel

/-- The bench with a silent HASH port. -/
def silent : State := bench.withHash false

/-- MG-2, the greatest MGF_LEN, a mask of no bytes, and a silent HASH port. -/
theorem witness_Mgf1Result :
    ((Instr.mgf1 1 0).wf = true ∧ bench.params.legal ∧ Memory.wf bench.regs.mem ∧
      bench.opLen 0 ≤ bench.params.bufBytes ∧ bench.maskLen ≤ bench.params.bufBytes) ∧
    (withLens bench 0 512).maskLen ≤ (withLens bench 0 512).params.bufBytes ∧
    bench.hashServes = true ∧ (withLens silent 0 0).maskLen = 0 ∧
    silent.opLen 0 ≤ silent.params.bufBytes ∧ silent.maskLen ≤ silent.params.bufBytes ∧
    silent.hashServes = false ∧ silent.maskLen ≠ 0 := by decide +kernel

/-- PE-1, and PE-9, where psLen = 0. -/
theorem witness_PssencResult :
    ((Instr.pssenc 1 0).wf = true ∧ bench.params.legal ∧ Memory.wf bench.regs.mem ∧ 1 ≤ bench.modBits ∧
      bench.modBits ≤ bench.params.maxbits ∧ bench.opLen 0 = bench.params.hlen ∧
      bench.params.hlen + bench.saltLen + 2 ≤ (bench.modBits - 1 + 7) / 8 ∧ bench.saltLen ≤ bench.rng.length ∧
      bench.hashServes = true) ∧
    (withPss bench 49 0).params.hlen + (withPss bench 49 0).saltLen + 2 =
      ((withPss bench 49 0).modBits - 1 + 7) / 8 := by
  decide +kernel

/-- PE-11, PE-12, PE-13, PE-5, a salt not yet delivered, and a silent HASH port. -/
theorem witness_PssErrorsAndWait :
    ((Instr.pssenc 1 0).wf = true ∧ (Instr.pssver 0 1).wf = true) ∧
    (withPss bench 0 2).modBits = 0 ∧ (withPss bench 4097 2).params.maxbits < (withPss bench 4097 2).modBits ∧
    (1 ≤ bench.modBits ∧ bench.modBits ≤ bench.params.maxbits ∧ bench.opLen 1 ≠ bench.params.hlen) ∧
    (bench.opLen 0 = bench.params.hlen ∧
      ((withPss bench 64 3).modBits - 1 + 7) / 8 < (withPss bench 64 3).params.hlen + (withPss bench 64 3).saltLen + 2) ∧
    bench.params.hlen + bench.saltLen + 2 ≤ (bench.modBits - 1 + 7) / 8 ∧
    ({ bench with rng := [0xA5] } : State).rng.length < bench.saltLen ∧
    silent.opLen 0 = silent.params.hlen ∧ silent.params.hlen + silent.saltLen + 2 ≤ (silent.modBits - 1 + 7) / 8 ∧
    silent.hashServes = false := by decide +kernel

/-- PE-1, from its acceptance to its end. -/
theorem witness_PssencRepresentativeBound :
    ∃ t, (running 0x00000150#32).params.legal ∧ Memory.wf (running 0x00000150#32).regs.mem ∧
      exec (.pssenc 1 0) (running 0x00000150#32) = .next t ∧ (running 0x00000150#32).busy = true ∧ t.busy = false ∧
      t.errcode = .ok ∧ bitlen 0xFFFFFFEA00000055 = (running 0x00000150#32).modBits := by
  obtain ⟨t, h, ht⟩ := exists_of_ends
    (show ends (exec (.pssenc 1 0) (running 0x00000150#32)) (fun t => !t.busy && t.errcode == .ok) = true by
      decide +kernel)
  simp only [Bool.and_eq_true, Bool.not_eq_true', beq_iff_eq] at ht
  exact ⟨t, by decide +kernel, by decide +kernel, h, rfl, ht.1, ht.2, by decide +kernel⟩

/-- PV-1's operands, the same with the buffers exchanged, and PV-1's with a silent HASH port. -/
theorem witness_PssverOutcome :
    ((Instr.pssver 0 1).wf = true ∧ (Instr.pssver 1 0).wf = true ∧ bench.params.legal ∧ 1 ≤ bench.modBits ∧
      bench.modBits ≤ bench.params.maxbits) ∧
    (bench.opLen 0 = bench.params.hlen ∧ bench.opLen 1 = (bench.modBits - 1 + 7) / 8 ∧
      bench.params.hlen + bench.saltLen + 2 ≤ (bench.modBits - 1 + 7) / 8 ∧ bench.hashServes = true) ∧
    bench.opLen 1 ≠ bench.params.hlen ∧
    (silent.opLen 0 = silent.params.hlen ∧ silent.opLen 1 = (silent.modBits - 1 + 7) / 8 ∧
      silent.params.hlen + silent.saltLen + 2 ≤ (silent.modBits - 1 + 7) / 8 ∧ silent.hashServes = false) := by
  decide +kernel

/-- P3's encoding, then PV-1's check, with the HASH port answering and silent. -/
theorem witness_PssRoundTrip :
    ∃ t : State, (running 0x00000150#32).params.legal ∧ Memory.wf (running 0x00000150#32).regs.mem ∧
      exec (.pssenc 1 0) (running 0x00000150#32) = .next t ∧ (running 0x00000150#32).busy = true ∧ t.busy = false ∧
      t.errcode = .ok ∧ (Instr.pssver 0 1).wf = true ∧
      ∀ u ∈ [bench, silent], u.params = (running 0x00000150#32).params ∧
        u.modBits = (running 0x00000150#32).modBits ∧ u.saltLen = (running 0x00000150#32).saltLen ∧
        u.opBuf 0 = (running 0x00000150#32).opBuf 0 ∧ u.opBuf 1 = t.regs.getBytes 1 (t.regs.getLen 1) := by
  obtain ⟨t, h, ht⟩ := exists_of_ends
    (show ends (exec (.pssenc 1 0) (running 0x00000150#32))
      (fun t => !t.busy && t.errcode == .ok && bufOf t 1 == emPE1) = true by decide +kernel)
  simp only [Bool.and_eq_true, Bool.not_eq_true', beq_iff_eq] at ht
  refine ⟨t, by decide +kernel, by decide +kernel, h, rfl, ht.1.1, ht.1.2, by decide, fun u hu => ?_⟩
  have same : u.params = (running 0x00000150#32).params ∧ u.modBits = (running 0x00000150#32).modBits ∧
      u.saltLen = (running 0x00000150#32).saltLen ∧ u.opBuf 0 = (running 0x00000150#32).opBuf 0 ∧
      u.opBuf 1 = emPE1 := by
    simp only [List.mem_cons, List.not_mem_nil, or_false] at hu
    obtain rfl | rfl := hu <;> decide +kernel
  exact ⟨same.1, same.2.1, same.2.2.1, same.2.2.2.1, same.2.2.2.2.trans ht.2.symm⟩

theorem witness_IntegerCommandsFrame :
    ∀ i ∈ [Instr.montmul 5 0 4 2, .montr2 5 2, .modexp 5 0 1 2, .os2ip 5 1],
      ((∃ a b c, i = .montmul 5 a b c) ∨ (∃ c, i = .montr2 5 c) ∨ (∃ a b c, i = .modexp 5 a b c) ∨
        ∃ a, i = .os2ip 5 a) ∧ ∃ t, exec i bench = .next t := by
  intro i hi
  have ran : ends (exec i bench) (fun _ => true) = true := by revert i; decide +kernel
  obtain ⟨t, h, -⟩ := exists_of_ends ran
  simp only [List.mem_cons, List.not_mem_nil, or_false] at hi
  refine ⟨?_, t, h⟩
  obtain rfl | rfl | rfl | rfl := hi
  · exact .inl ⟨_, _, _, rfl⟩
  · exact .inr (.inl ⟨_, rfl⟩)
  · exact .inr (.inr (.inl ⟨_, _, _, rfl⟩))
  · exact .inr (.inr (.inr ⟨_, rfl⟩))

theorem witness_BufferCommandsFrame : bench.params.legal ∧
    (∃ a t, Instr.i2osp 2 0 = .i2osp 2 a ∧ 4 = bench.outLen ∧ exec (.i2osp 2 0) bench = .next t) ∧
    (∃ a t, Instr.mgf1 2 0 = .mgf1 2 a ∧ 3 = bench.maskLen ∧ exec (.mgf1 2 0) bench = .next t) ∧
    ∃ a t, Instr.pssenc 2 0 = .pssenc 2 a ∧ 8 = emLen bench.modBits ∧ exec (.pssenc 2 0) bench = .next t := by
  obtain ⟨t, h, -⟩ := exists_of_ends (show ends (exec (.i2osp 2 0) bench) (fun _ => true) = true by decide +kernel)
  obtain ⟨u, h', -⟩ := exists_of_ends (show ends (exec (.mgf1 2 0) bench) (fun _ => true) = true by decide +kernel)
  obtain ⟨v, h'', -⟩ := exists_of_ends (show ends (exec (.pssenc 2 0) bench) (fun _ => true) = true by decide +kernel)
  exact ⟨by decide +kernel, ⟨_, t, rfl, by decide +kernel, h⟩, ⟨_, u, rfl, by decide +kernel, h'⟩,
    ⟨_, v, rfl, by decide +kernel, h''⟩⟩

theorem witness_AnswerCommandsFrame :
    (∃ t, exec .nop bench = .next t) ∧ (∃ t, exec (.mrtest 1) bench = .next t) ∧
    ∃ t, exec (.pssver 0 1) bench = .next t := by
  obtain ⟨t, h, -⟩ := exists_of_ends (show ends (exec (.mrtest 1) bench) (fun _ => true) = true by decide +kernel)
  obtain ⟨u, h', -⟩ := exists_of_ends (show ends (exec (.pssver 0 1) bench) (fun _ => true) = true by decide +kernel)
  exact ⟨⟨_, rfl⟩, ⟨t, h⟩, u, h'⟩

theorem witness_CanonicalMemoriesEqual : Memory.wf [(0x4000, 0x01#8), (0x4003, 0xFF#8)] := by decide

end Sys2Proof.Tests
end

section
/-! # The state family: the invariant, the registers a host reads and writes, and what each command leaves unchanged -/

namespace Sys2Proof.Machine

/-! ### Fields of a word -/

/-- A field is read back from its place. -/
theorem extractLsb'_place_same {n : Nat} (x : BitVec n) {k : Nat} (h : k + n ≤ 32) :
    (place x k).extractLsb' k n = x := by
  apply BitVec.eq_of_getLsbD_eq
  intro i hi
  rw [BitVec.getLsbD_extractLsb', getLsbD_place, Nat.add_sub_cancel_left, decide_eq_true hi,
    decide_eq_true (p := k ≤ k + i ∧ k + i < 32) (by omega), Bool.true_and, Bool.true_and]

/-- Where a field is not placed, it contributes 0. -/
theorem extractLsb'_place_disjoint {n m : Nat} (x : BitVec n) {k j : Nat} (h : k + n ≤ j ∨ j + m ≤ k) :
    (place x k).extractLsb' j m = 0#m := by
  apply BitVec.eq_of_getLsbD_eq
  intro i hi
  rw [BitVec.getLsbD_extractLsb', getLsbD_place, BitVec.getLsbD_zero]
  rcases h with h | h
  · rw [BitVec.getLsbD_of_ge x _ (by omega), Bool.and_false, Bool.and_false]
  · rw [decide_eq_false (p := k ≤ j + i ∧ j + i < 32) (by omega), Bool.false_and, Bool.and_false]

/-- A field stored from a word and read back zero-extended is the word's low bits (10_state.md R61). -/
theorem setWidth_setWidth_word (w : Word) (n : Nat) :
    (w.setWidth n).setWidth 32 = BitVec.ofNat 32 (w.toNat % 2 ^ n) := by
  apply BitVec.eq_of_toNat_eq
  simp

/-! ### The decoder -/

/-- A word that decodes has a row of the table, its unused fields clear and its indices in range
(30_encoding.md R189). -/
theorem lookup_of_decode_ok {w : Word} {i : Instr} (h : decode w = .ok i) :
    ∃ unused, lookup w = some (i, unused) ∧ reservedClear w unused = true ∧ i.wf = true := by
  unfold decode at h
  split at h
  · exact nomatch h
  next i' unused hl =>
    split at h
    · exact nomatch h
    next hr =>
      split at h
      · exact nomatch h
      next hw =>
        obtain rfl := Except.ok.inj h
        exact ⟨unused, hl, by simpa using hr, by simpa using hw⟩

theorem wf_of_decode_ok {w : Word} {i : Instr} (h : decode w = .ok i) : i.wf = true := by
  obtain ⟨_, -, -, hw⟩ := lookup_of_decode_ok h
  exact hw

theorem fieldOPC_commandWord (o : BitVec 8) (d a b c : Field) : fieldOPC (commandWord o d a b c) = o := by
  simp [fieldOPC, commandWord, BitVec.extractLsb'_or, extractLsb'_place_same, extractLsb'_place_disjoint]

/-- A word has the opcode of the command it selects (R186). -/
theorem fieldOPC_of_lookup {w : Word} {i : Instr} {unused : List Field} (h : lookup w = some (i, unused)) :
    fieldOPC w = fieldOPC (encode i) := by
  unfold lookup at h
  split at h
  all_goals first
    | (next ho =>
        obtain ⟨rfl, -⟩ := Prod.mk.inj (Option.some.inj h)
        rw [ho, encode, fieldOPC_commandWord])
    | exact nomatch h

theorem fieldOPC_of_decode_ok {w : Word} {i : Instr} (h : decode w = .ok i) : fieldOPC w = fieldOPC (encode i) := by
  obtain ⟨_, hl, -, -⟩ := lookup_of_decode_ok h
  exact fieldOPC_of_lookup hl

/-! ### The register file -/

theorem RegFile.getV_lt {p : Params} {r : RegFile} (h : r.inRange p) (i : Field) : r.getV i < 2 ^ p.maxbits := by
  unfold RegFile.getV
  by_cases hi : i.toNat < 8
  · simpa [hi] using h ⟨i.toNat, hi⟩
  · simp [hi]

theorem RegFile.inRange_writeVWord {p : Params} {r : RegFile} (h : r.inRange p) (i : Field) (k : Nat) (w : Word) :
    (r.writeVWord p i k w).inRange p := by
  unfold RegFile.writeVWord
  split
  next hk =>
    have h32 : 32 * k + 32 ≤ p.maxbits := by
      simp only [Params.limbs] at hk
      omega
    exact RegFile.inRange_setV h i (setLimb_lt (RegFile.getV_lt h i) h32)
  · exact h

theorem RegFile.memOk_writeVWord {p : Params} {r : RegFile} (h : r.memOk p) (i : Field) (k : Nat) (w : Word) :
    (r.writeVWord p i k w).memOk p := by
  unfold RegFile.writeVWord
  split <;> exact h

theorem RegFile.inRange_writeBWord {p : Params} {r : RegFile} (h : r.inRange p) (j : Field) (k : Nat) (w : Word) :
    (r.writeBWord p j k w).inRange p := by
  unfold RegFile.writeBWord
  split <;> exact h

/-- A word of a window lies wholly inside the buffer, as BUFBYTES is a multiple of 4. -/
theorem RegFile.memOk_writeBWord {p : Params} {r : RegFile} (hl : p.legal) (h : r.memOk p) {j : Field}
    (hj : j.toNat < 4) (k : Nat) (w : Word) : (r.writeBWord p j k w).memOk p := by
  unfold RegFile.writeBWord
  split
  next hk =>
    obtain ⟨h32, -⟩ := hl
    have hlen : 4 * k + (lanesOfWord w).length ≤ p.bufBytes := by
      simp only [Params.bufBytes, lanesOfWord, List.length_cons, List.length_nil] at hk ⊢
      omega
    exact RegFile.memOk_writeBytes h hj hlen
  · exact h

theorem RegFile.inRange_partZeroize {p : Params} (r : RegFile) {accepted : RegFile} (h : accepted.inRange p)
    (keep : Nat → Bool) : (r.partZeroize p accepted keep).inRange p := by
  intro i
  have hle : keepLimbs _ accepted.v[i] p.limbs ≤ accepted.v[i] % _ :=
    keepLimbs_le (fun j => keep (0x1000 + 0x400 * i.val + 4 * j)) accepted.v[i] p.limbs
  simp only [RegFile.partZeroize, Fin.getElem_fin, Vector.getElem_ofFn]
  exact (hle.trans (Nat.mod_le _ _)).trans_lt (h i)

theorem RegFile.memOk_partZeroize {p : Params} (r : RegFile) {accepted : RegFile} (h : accepted.memOk p)
    (keep : Nat → Bool) : (r.partZeroize p accepted keep).memOk p :=
  RegFile.memOk_filter h _

theorem freeV_lt (p : Params) (draw i : Nat) : freeV p draw i < 2 ^ p.maxbits := Nat.mod_lt _ (by positivity)

@[simp] theorem freeBuf_length (p : Params) (draw j : Nat) : (freeBuf p draw j).length = p.bufBytes := by
  simp [freeBuf]

/-- An empty memory is canonical. -/
theorem RegFile.memOk_of_mem_eq_nil (p : Params) {r : RegFile} (h : r.mem = []) : r.memOk p := by
  simp [RegFile.memOk, Memory.wf, h]

/-- Filling buffers with unspecified contents keeps the memory canonical and inside the buffers. -/
theorem RegFile.memOk_fillFree {p : Params} {r : RegFile} (draw : Nat) {l : List Nat} (hl : ∀ j ∈ l, j < 4)
    (h : r.memOk p) :
    RegFile.memOk p
      { r with mem := l.foldl (fun m j => Memory.writeBytes m (bufOffset j) (freeBuf p draw j)) r.mem } := by
  induction l generalizing r with
  | nil => exact h
  | cons j l ih =>
    have hj : RegFile.memOk p { r with mem := Memory.writeBytes r.mem (bufOffset j) (freeBuf p draw j) } :=
      RegFile.memOk_writeBytes (k := 0) h (hl j (by simp)) (by simp)
    exact ih (fun j' hj' => hl j' (by simp [hj'])) hj

theorem RegFile.memOk_freeMemory (p : Params) (v : Vector Nat 8) (draw : Nat) :
    (RegFile.resetWith p v (freeMemory p draw)).memOk p :=
  RegFile.memOk_fillFree draw (fun _ hj => List.mem_range.1 hj)
    (RegFile.memOk_of_mem_eq_nil p (r := RegFile.resetWith p v []) rfl)

end Sys2Proof.Machine
end

section
/-! ## The invariant -/

namespace Sys2Proof.Machine

/-! ### What an abort can do -/

/-- What becomes of a state whose running command, if any, is aborted (70_reset_and_hazards.md R483, R484). -/
inductive Aborted (s : State) : State → Prop where
  /-- There is no destination to lose. -/
  | kept : Aborted s s
  | zeroize : Aborted s s.scrambleZeroize
  | scrambleV (d : Field) : Aborted s (s.scrambleV d)
  | scrambleB (d : Field) : d.toNat < 4 → Aborted s (s.scrambleB d)
  | mrtest (snap : Snapshot) (a : Field) : s.inflight = some snap → decode snap.word = .ok (.mrtest a) →
      Aborted s (s.dropTaken ((s.mrVerdict a).taken s.rng))
  | pssenc (snap : Snapshot) (d a : Field) : s.inflight = some snap → decode snap.word = .ok (.pssenc d a) →
      d.toNat < 4 → Aborted s ((s.dropTaken (s.saltTaken a)).scrambleB d)

theorem abort_cases (s : State) : Aborted s s.abort := by
  unfold State.abort
  split
  · exact .kept
  next snap hs =>
    have isB {i : Instr} {d : Field} (hd : decode snap.word = .ok i) (hf : (Effect.setB d []).fits i) :
        d.toNat < 4 := Effect.fits_isB hf (wf_of_decode_ok hd)
    split
    case h_1 | h_2 | h_12 => exact .kept
    case h_3 => exact .zeroize
    case h_4 | h_5 | h_6 | h_8 => exact .scrambleV _
    case h_7 hd | h_10 hd => exact .scrambleB _ (isB hd rfl)
    case h_9 hd => exact .mrtest snap _ hs hd
    case h_11 hd => exact .pssenc snap _ _ hs hd (isB hd rfl)

theorem Aborted.params {s t : State} (h : Aborted s t) : t.params = s.params := by
  cases h <;> rfl

theorem Aborted.inRange {s t : State} (h : Aborted s t) (hi : s.inputs = s.regs) (hr : s.regs.inRange s.params) :
    t.regs.inRange s.params := by
  cases h with
  | kept => exact hr
  | zeroize => exact RegFile.inRange_partZeroize _ (hi ▸ hr) _
  | scrambleV d => exact RegFile.inRange_setV hr d (freeV_lt ..)
  | scrambleB _ _ => exact hr
  | mrtest _ _ _ _ => exact hr
  | pssenc _ _ _ _ _ _ => exact hr

theorem Aborted.memOk {s t : State} (h : Aborted s t) (hi : s.inputs = s.regs) (hm : s.regs.memOk s.params) :
    t.regs.memOk s.params := by
  cases h with
  | kept => exact hm
  | zeroize => exact RegFile.memOk_partZeroize _ (hi ▸ hm) _
  | scrambleV _ => exact hm
  | scrambleB d hd => exact RegFile.memOk_setBuf hm hd (by simp)
  | mrtest _ _ _ _ => exact hm
  | pssenc _ d _ _ _ hd => exact RegFile.memOk_setBuf hm hd (by simp)

/-! ### Each update of the state keeps the invariant -/

/-- The invariant does not speak of CTRL, the pending bits, the bus response, the ports, the agenda and the numbering
of the free values. -/
theorem State.Inv.withOutside {s : State} (h : s.Inv) (ie doneP ovrP : Bool) (resp : Option BusResp)
    (rng : List Byte) (hashServes : Bool) (agenda : List Event) (draws : Nat) :
    State.Inv { s with
      ie := ie, doneP := doneP, ovrP := ovrP, resp := resp, rng := rng, hashServes := hashServes,
      agenda := agenda, draws := draws } :=
  { h with }

/-- While no command runs, registers that keep their ranges may change. -/
theorem State.Inv.withRegs {s : State} (h : s.Inv) (hb : s.busy = false) {r : RegFile} (hr : r.inRange s.params)
    (hm : r.memOk s.params) : State.Inv { s with regs := r } :=
  { h with
    inRange := hr
    memOk := hm
    snapshot := fun snap (hs : s.inflight = some snap) => by simp [State.busy, hs] at hb }

theorem State.Inv.accept {s : State} (h : s.Inv) (w : Word) : (s.accept w).Inv where
  legal := h.legal
  inRange := h.inRange
  memOk := h.memOk
  snapshot snap hs := by
    obtain rfl := Option.some.inj hs
    exact ⟨rfl, rfl⟩
  running _ := ⟨rfl, rfl, rfl⟩
  fresh hb := nomatch hb
  lastop := rfl
  result hr := nomatch hr
  scratch hb := nomatch hb

/-- A completion keeps the invariant, whatever registers in range it commits, if RESULT is 1 only after the commands
that answer (10_state.md R70). -/
theorem State.Inv.complete {s : State} (h : s.Inv) {r : RegFile} (hr : r.inRange s.params) (hm : r.memOk s.params)
    {code : ErrCode} {result : Bool}
    (ha : result = true → code = .ok ∧ (s.lastop = 0x30#8 ∨ s.lastop = 0x51#8)) :
    State.Inv ({ s with regs := r }.complete code result) where
  legal := h.legal
  inRange := hr
  memOk := hm
  snapshot _ hs := nomatch hs
  running hb := nomatch hb
  fresh _ hd := nomatch hd
  lastop := h.lastop
  result := ha
  scratch _ := rfl

/-- Cleared control state satisfies the invariant with any registers in range (R482). -/
theorem State.Inv.clearControl {s : State} (hl : s.params.legal) (hr : s.regs.inRange s.params)
    (hm : s.regs.memOk s.params) : s.clearControl.Inv where
  legal := hl
  inRange := hr
  memOk := hm
  snapshot _ hs := nomatch hs
  running hb := nomatch hb
  fresh _ _ := ⟨rfl, rfl, rfl⟩
  lastop := rfl
  result hr := nomatch hr
  scratch _ := rfl

theorem State.Inv.softReset {s : State} (h : s.Inv) : s.softReset.Inv := by
  have hi := State.inputs_eq_regs h
  have ha := abort_cases s
  refine State.Inv.clearControl ?_ ?_ ?_ <;> rw [ha.params]
  · exact h.legal
  · exact ha.inRange hi h.inRange
  · exact ha.memOk hi h.memOk

/-- A hardware reset is a soft reset that also makes V and B unspecified (R481). -/
theorem State.Inv.hardReset {s : State} (h : s.Inv) : s.hardReset.Inv := by
  have hw := h.softReset.withRegs (r := s.softReset.scrambleAll.regs) rfl
    (fun i => by simpa [State.scrambleAll, RegFile.resetWith] using freeV_lt ..) (RegFile.memOk_freeMemory ..)
  exact hw.withOutside ..

/-! ### The engine keeps the invariant -/

/-- Only MRTEST and PSSVER answer 1 (10_state.md R70). -/
theorem Effect.fieldOPC_of_result {e : Effect} {i : Instr} {w : Word} (hr : e.result = true) (hf : e.fits i)
    (hd : decode w = .ok i) : fieldOPC w = 0x30#8 ∨ fieldOPC w = 0x51#8 := by
  rw [fieldOPC_of_decode_ok hd]
  cases e with
  | answer r =>
    cases i with
    | mrtest a => exact .inl (fieldOPC_commandWord ..)
    | pssver a b => exact .inr (fieldOPC_commandWord ..)
    | _ => exact hf.elim
  | _ => exact nomatch hr

theorem exec_keepsInv {s t : State} (h : s.Inv) {snap : Snapshot} (hs : s.inflight = some snap) {i : Instr}
    (hd : decode snap.word = .ok i) (he : exec i s = .next t) : t.Inv := by
  cases exec_cases he with
  | waits => exact h
  | failed rest c _ _ => exact (h.withOutside (rng := rest) ..).complete h.inRange h.memOk (fun hr => nomatch hr)
  | ended rest e _ hf hi hb =>
    have hin : s.inputs.inRange s.params := State.inputs_eq_regs h ▸ h.inRange
    refine (h.withOutside (rng := rest) ..).complete (RegFile.inRange_commit h.inRange hin hb)
      (RegFile.memOk_commit h.memOk h.legal hf hi hb) (fun hr => ⟨rfl, ?_⟩)
    obtain ⟨hword, -⟩ := h.snapshot snap hs
    have hop : s.lastop = fieldOPC snap.word := by rw [hword]; exact h.lastop
    have hans := Effect.fieldOPC_of_result hr hf hd
    rwa [← hop] at hans

theorem engineStep_keepsInv {s t : State} (h : s.Inv) (he : engineStep s = .next t) : t.Inv := by
  unfold engineStep at he
  split at he
  · obtain rfl := Host.Outcome.next.inj he
    exact h
  next snap hs =>
    split at he
    next i hd => exact exec_keepsInv h hs hd he
    next code _ =>
      obtain rfl := Host.Outcome.next.inj he
      exact h.complete h.inRange h.memOk (fun hr => nomatch hr)

/-! ### A host access keeps the invariant -/

theorem writeCtrl_keepsInv {s : State} (h : s.Inv) (w : Word) : (s.writeCtrl w).Inv := by
  unfold State.writeCtrl
  split
  · exact h.softReset
  · exact h.withOutside ..

theorem writeCmd_keepsInv {s : State} (h : s.Inv) (w : Word) : (s.writeCmd w).Inv := by
  unfold State.writeCmd
  split
  · exact h.withOutside ..
  · exact h.accept w

/-- A write that the busy lock lets pass keeps the invariant; a buffer window it writes is one of the four. -/
theorem writeLoc_keepsInv {s : State} (h : s.Inv) (w : Word) {l : Loc} (hl : s.busy = true → l.locked = false)
    (hj : ∀ j k, l = .bWord j k → j.toNat < 4) : (s.writeLoc w l).Inv := by
  have idle (hk : l.locked = true) : s.busy = false := by
    cases hb : s.busy with
    | false => rfl
    | true => exact absurd (hl hb) (by simp [hk])
  cases l with
  | id | cfg | status | reserved => exact h
  | ctrl => exact writeCtrl_keepsInv h w
  | cmd => exact writeCmd_keepsInv h w
  | irqStatus => exact h.withOutside ..
  | pssModbits | pssSlen | mrRounds | mgfLen | ospLen | blen j => exact h.withRegs (idle rfl) h.inRange h.memOk
  | vWord i k =>
    exact h.withRegs (idle rfl) (RegFile.inRange_writeVWord h.inRange i k w) (RegFile.memOk_writeVWord h.memOk i k w)
  | bWord j k =>
    exact h.withRegs (idle rfl) (RegFile.inRange_writeBWord h.inRange j k w)
      (RegFile.memOk_writeBWord h.legal h.memOk (hj j k rfl) k w)

theorem served_keepsInv {s t : State} {a : Access} (h : s.Inv) (hv : Served s a t) : t.Inv := by
  cases hv with
  | slverr => exact h.withOutside ..
  | read _ _ => exact h.withOutside ..
  | write w _ _ hl =>
    have hw := writeLoc_keepsInv h w hl fun j k hloc => (locOf_eq_bWord hloc).1
    exact hw.withOutside ..

/-- Settles O11: each kind of step is one of the updates above. -/
theorem stepKeepsInvariant : Obligations.StepKeepsInvariant := by
  intro s t h hst
  have agenda (rest : List Event) : (s.withAgenda rest).Inv := h.withOutside ..
  cases step_cases hst with
  | engine r hr he =>
    rcases hr with ⟨-, rfl⟩ | ⟨rest, -, rfl⟩
    · exact engineStep_keepsInv h he
    · exact engineStep_keepsInv (agenda rest) he
  | bus a rest _ _ hv => exact served_keepsInv (agenda rest) hv
  | rng b rest _ => exact h.withOutside ..
  | hash serves rest _ => exact h.withOutside ..
  | hardReset rest _ => exact (agenda rest).hardReset

/-- Settles O10: the power-on state has cleared control state and empty registers. -/
theorem powerOnInvariant : Obligations.PowerOnInvariant := by
  intro p hl
  have hr : (State.resetOf p).regs.inRange p := fun i => by simp [State.resetOf, RegFile.resetWith]
  exact State.Inv.clearControl (s := State.resetOf p) hl hr (RegFile.memOk_of_mem_eq_nil p rfl)

end Sys2Proof.Machine
end

section
/-! ## The RNG bytes that a step takes -/

namespace Sys2Proof.Machine

/-- The running command is one that draws and `left` is what it has left of the delivered bytes, within the bounds of
10_state.md R87 and 40_command_execution.md R236, R241. -/
def State.Drew (s : State) (left : List Byte) : Prop :=
  ∃ snap, s.inflight = some snap ∧ left <:+ s.rng ∧
    ((∃ a, decode snap.word = .ok (.mrtest a) ∧ 5 ≤ s.opV a ∧ s.opV a % 2 = 1 ∧ s.rounds ≠ 0 ∧
        s.rng.length ≤ left.length + s.rounds * s.params.mrRetry * ((bitlen (s.opV a) + 7) / 8)) ∨
      ∃ d a, decode snap.word = .ok (.pssenc d a) ∧ 1 ≤ s.modBits ∧ s.modBits ≤ s.params.maxbits ∧
        s.opLen a = s.params.hlen ∧ s.params.hlen + s.saltLen + 2 ≤ (s.modBits - 1 + 7) / 8 ∧
        s.rng.length ≤ left.length + s.saltLen)

/-- The bytes that hold some bits (00_scope.md R11). -/
theorem ceilQuot_eight (bits : Nat) : ceilQuot bits 8 = (bits + 7) / 8 := rfl

/-- Bytes are missing from a proper suffix. -/
theorem length_sub_ne_zero_of_suffix {left all : List Byte} (hs : left <:+ all) (hne : left ≠ all) :
    all.length - left.length ≠ 0 := by
  have hlt : left.length < all.length := lt_of_le_of_ne hs.length_le fun he => hne (hs.eq_of_length he)
  omega

theorem State.drew_mrtest {s : State} {snap : Snapshot} {a : Field} {left : List Byte}
    (hs : s.inflight = some snap) (hd : decode snap.word = .ok (.mrtest a)) (hl : left <:+ s.rng)
    (hne : left ≠ s.rng) (ht : s.rng.length - left.length ≤ (s.mrVerdict a).taken s.rng) : s.Drew left := by
  have h0 := length_sub_ne_zero_of_suffix hl hne
  obtain ⟨hmost, hsome⟩ := s.mrVerdict_taken a
  obtain ⟨h5, hodd, hrounds⟩ := hsome (by omega)
  refine ⟨snap, hs, hl, .inl ⟨a, hd, h5, hodd, hrounds, ?_⟩⟩
  rw [ceilQuot_eight] at hmost
  omega

theorem State.drew_pssenc {s : State} {snap : Snapshot} {d a : Field} {left : List Byte}
    (hs : s.inflight = some snap) (hd : decode snap.word = .ok (.pssenc d a)) (hl : left <:+ s.rng)
    (hne : left ≠ s.rng) (ht : s.rng.length - left.length ≤ s.saltTaken a) : s.Drew left := by
  have h0 := length_sub_ne_zero_of_suffix hl hne
  obtain ⟨hmost, hsome⟩ := s.saltTaken_spec a
  obtain ⟨h1, hmax, hlen, hem⟩ := State.pssencError_eq_none.mp (hsome (by omega))
  rw [emLen_eq] at hem
  exact ⟨snap, hs, hl, .inr ⟨d, a, hd, h1, hmax, hlen, hem, by omega⟩⟩

/-! ### The engine -/

theorem Ended.rng_suffix {i : Instr} {s t : State} (h : Ended i s t) : t.rng <:+ s.rng := by
  cases h with
  | waits => exact List.suffix_refl _
  | failed _ _ hr _ => exact hr
  | ended _ _ hr _ _ _ => exact hr

theorem exec_drew {s t : State} {snap : Snapshot} {i : Instr} (hs : s.inflight = some snap)
    (hd : decode snap.word = .ok i) (h : exec i s = .next t) (hne : t.rng ≠ s.rng) : s.Drew t.rng := by
  have hl := (exec_cases h).rng_suffix
  cases i with
  | mrtest a => exact State.drew_mrtest hs hd hl hne (execMrtest_taken h)
  | pssenc d a => exact State.drew_pssenc hs hd hl hne (execPssenc_taken h)
  | _ => exact absurd (exec_rng h (by simp) (by simp)) hne

theorem engineStep_drew {s t : State} (h : engineStep s = .next t) (hne : t.rng ≠ s.rng) : s.Drew t.rng := by
  unfold engineStep at h
  split at h
  · obtain rfl := Host.Outcome.next.inj h
    exact absurd rfl hne
  next snap hs =>
    split at h
    next i hd => exact exec_drew hs hd h hne
    next =>
      obtain rfl := Host.Outcome.next.inj h
      exact absurd rfl hne

/-! ### Resets -/

/-- What a reset lost with the running command is what that command may have taken. -/
theorem Aborted.drew {s t : State} (h : Aborted s t) (hne : t.rng ≠ s.rng) : s.Drew t.rng := by
  have lost (n m : Nat) : s.rng.length - (s.rng.drop (min n m)).length ≤ m := by
    rw [List.length_drop]
    omega
  cases h with
  | kept | zeroize | scrambleV _ | scrambleB _ _ => exact absurd rfl hne
  | mrtest snap a hs hd => exact State.drew_mrtest hs hd (List.drop_suffix _ _) hne (lost _ _)
  | pssenc snap d a hs hd _ => exact State.drew_pssenc hs hd (List.drop_suffix _ _) hne (lost _ _)

/-- A host write loses RNG bytes only as a soft reset. -/
theorem writeLoc_drew {s : State} {w : Word} {l : Loc} (hne : (s.writeLoc w l).rng ≠ s.rng) :
    l = .ctrl ∧ w.getLsbD 1 = true ∧ s.Drew (s.writeLoc w l).rng := by
  cases l with
  | ctrl =>
    refine ⟨rfl, ?_⟩
    simp only [State.writeLoc, State.writeCtrl] at hne ⊢
    split at hne
    next hw =>
      rw [if_pos hw]
      exact ⟨hw, (abort_cases s).drew hne⟩
    · exact absurd rfl hne
  | cmd =>
    simp only [State.writeLoc, State.writeCmd] at hne
    split at hne <;> exact absurd rfl hne
  | _ => exact absurd rfl hne

/-- Settles O14: the engine's move, a port's byte, and the two resets are the only steps that move RNG bytes. -/
theorem rngTakenOnlyByDrawingCommands : Obligations.RngTakenOnlyByDrawingCommands := by
  intro s t hst hne
  cases step_cases hst with
  | engine r hr he =>
    rcases hr with ⟨ha, rfl⟩ | ⟨rest, ha, rfl⟩
    · exact .inr ⟨.inl ha, engineStep_drew he hne⟩
    · exact .inr ⟨.inr (.inl ⟨rest, ha⟩), engineStep_drew (s := s.withAgenda rest) he hne⟩
  | bus a rest ha hrange hv =>
    obtain ⟨hlo, -⟩ := hrange
    cases hv with
    | slverr => exact absurd rfl hne
    | read _ _ => exact absurd rfl hne
    | write w hw hleg _ =>
      obtain ⟨hctrl, hsrst, hdrew⟩ := writeLoc_drew (s := s.withAgenda rest) hne
      have hoff := locOf_eq_ctrl hctrl
      simp only [State.withAgenda_params] at hleg hoff
      exact .inr ⟨.inr (.inr (.inr ⟨a, w, rest, ha, hleg, by omega, hw, hsrst⟩)), hdrew⟩
  | rng b rest ha => exact .inl ⟨b, rest, ha, rfl⟩
  | hash serves rest _ => exact absurd rfl hne
  | hardReset rest ha => exact .inr ⟨.inr (.inr (.inl ⟨rest, ha⟩)), (abort_cases _).drew hne⟩

end Sys2Proof.Machine
end

section
/-! ## The registers a host reads and writes -/

namespace Sys2Proof.Machine

/-! ### Words made of fields -/

/-- The fields of STATUS (10_state.md R66). -/
theorem statusWord_fields (s : State) :
    s.statusWord.getLsbD 0 = s.busy ∧ s.statusWord.getLsbD 1 = s.done ∧ s.statusWord.getLsbD 2 = s.err ∧
    s.statusWord.getLsbD 3 = s.result ∧ s.statusWord.extractLsb' 4 4 = 0#4 ∧
    s.statusWord.extractLsb' 8 8 = errByte s.errcode ∧ s.statusWord.extractLsb' 16 8 = s.lastop ∧
    s.statusWord.extractLsb' 24 8 = 0#8 := by
  simp only [State.statusWord, BitVec.getLsbD_or, getLsbD_place]
  simp [bit, BitVec.extractLsb'_or, extractLsb'_place_same, extractLsb'_place_disjoint]

/-- The fields of CFG (R63). -/
theorem cfgWord_fields (p : Params) :
    (cfgWord p).extractLsb' 0 16 = BitVec.ofNat 16 p.limbs ∧ (cfgWord p).extractLsb' 16 8 = BitVec.ofNat 8 p.hlen ∧
    (cfgWord p).extractLsb' 24 4 = 8#4 ∧ (cfgWord p).extractLsb' 28 4 = 4#4 := by
  simp [cfgWord, BitVec.extractLsb'_or, extractLsb'_place_same, extractLsb'_place_disjoint]

/-- The fields of CFG are wide enough for every legal build (00_scope.md R6). -/
theorem cfgWord_legal {p : Params} (h : p.legal) :
    ((cfgWord p).extractLsb' 0 16).toNat = p.maxbits / 32 ∧ ((cfgWord p).extractLsb' 16 8).toNat = p.hlen := by
  obtain ⟨-, -, hmax, -, hhlen, -⟩ := h
  obtain ⟨hl, hh, -, -⟩ := cfgWord_fields p
  rw [hl, hh, BitVec.toNat_ofNat, BitVec.toNat_ofNat]
  exact ⟨Nat.mod_eq_of_lt (by simp only [Params.limbs]; omega), Nat.mod_eq_of_lt (by omega)⟩

theorem ctrlWord_eq (s : State) : s.ctrlWord = if s.ie then 1#32 else 0#32 := by
  cases h : s.ie <;> simp only [State.ctrlWord, h] <;> decide

theorem irqStatusWord_eq (s : State) :
    s.irqStatusWord = BitVec.ofNat 32 ((if s.doneP then 1 else 0) + (if s.ovrP then 2 else 0)) := by
  cases hd : s.doneP <;> cases ho : s.ovrP <;> simp only [State.irqStatusWord, hd, ho] <;> decide

/-! ### The registers that a read or a write is never refused -/

theorem memRead_unlocked (s : State) {off : Nat} (h : off < 0x020) (h4 : off % 4 = 0) :
    busAccess s (memRead s.params off) = .next (s.respond false (s.readLoc (locOf off))) := by
  refine memRead_served s h4 (by omega) (.inr ?_)
  rw [← Bool.not_eq_true, locked_locOf]
  omega

theorem exists_memRead_unlocked (s : State) {off : Nat} {d : Word} (h : off < 0x020) (h4 : off % 4 = 0)
    (hd : s.readLoc (locOf off) = d) :
    ∃ t, busAccess s (memRead s.params off) = .next t ∧ t.resp = some ⟨false, d⟩ :=
  ⟨_, memRead_unlocked s h h4, by rw [State.respond_resp, hd]⟩

theorem memWrite_unlocked (s : State) {off : Nat} (w : Word) (h : off < 0x020) (h4 : off % 4 = 0) :
    busAccess s (memWrite s.params off w) = .next ((s.writeLoc w (locOf off)).respond false 0#32) := by
  refine memWrite_served s w h4 (by omega) (.inr ?_)
  rw [← Bool.not_eq_true, locked_locOf]
  omega

/-- Settles O15: the three registers' words have their fields, and `writeLoc` leaves the state at their places. -/
theorem readOnlyRegisters : Obligations.ReadOnlyRegisters := by
  refine ⟨fun s => ?id, fun s hl => ?cfg, fun s t w off hoff h => ?write, by decide, fun s => ?status, fun p => ?reset⟩
  case id => exact exists_memRead_unlocked s (by decide) (by decide) (show idWord = _ by decide)
  case cfg =>
    obtain ⟨-, -, hnvreg, hnbuf⟩ := cfgWord_fields s.params
    obtain ⟨hlimbs, hhlen⟩ := cfgWord_legal hl
    exact ⟨_, cfgWord s.params, memRead_unlocked s (by decide) (by decide), rfl, hlimbs, hhlen, hnvreg, hnbuf⟩
  case write =>
    rw [memWrite_unlocked s w (by omega) (by omega)] at h
    obtain rfl := Host.Outcome.next.inj h
    obtain rfl | rfl | rfl := hoff <;> rfl
  case status =>
    obtain ⟨hbusy, hdone, herr, hfields⟩ := statusWord_fields s
    refine ⟨_, s.statusWord, memRead_unlocked s (by decide) (by decide), rfl, hbusy, hdone, ?_, hfields⟩
    rw [herr, State.err, bne, beq_eq_decide, decide_not]
  case reset =>
    have hp : (State.resetOf p).readLoc .status = State.reset.readLoc .status := rfl
    rw [hp]
    decide

/-- Settles O23: CTRL is never locked, and a write of it is `writeCtrl`, by its bit SRST. -/
theorem ctrlWrite : Obligations.CtrlWrite := by
  refine ⟨fun s w => ?_, fun s => ?_, fun p => rfl⟩
  · have h : busAccess s (memWrite s.params 0x008 w) = .next ((s.writeCtrl w).respond false 0#32) :=
      memWrite_unlocked s w (by decide) (by decide)
    refine ⟨fun hw => ⟨?_, rfl⟩, fun hw => ?_⟩
    · rw [h, State.writeCtrl, if_pos hw]
    · rw [h, State.writeCtrl, if_neg (by rw [hw]; decide)]
      rfl
  · exact exists_memRead_unlocked s (by decide) (by decide) (ctrlWord_eq s)

/-- Settles O25: IRQ_STATUS is never locked, and a write of it is `writeIrqStatus`. -/
theorem irqStatusWriteOneClears : Obligations.IrqStatusWriteOneClears := by
  intro s w
  refine ⟨⟨_, memWrite_unlocked s w (by decide) (by decide), rfl, rfl, rfl, ?_⟩,
    exists_memRead_unlocked s (by decide) (by decide) (irqStatusWord_eq s)⟩
  have hirq : State.irq ((s.writeLoc w (locOf 0x014)).respond false 0#32) =
      (s.ie && ((s.doneP && !w.getLsbD 0) || (s.ovrP && !w.getLsbD 1))) := rfl
  simp only [hirq, Bool.and_eq_true, Bool.or_eq_true, Bool.not_eq_true']

/-! ### Parameter and length registers -/

/-- The width of the field that a parameter or length register stores (10_state.md R75 to R80). -/
def Loc.fieldWidth : Loc → Option Nat
  | .pssModbits => some 14
  | .pssSlen => some 16
  | .mrRounds => some 8
  | .mgfLen => some 16
  | .ospLen => some 16
  | .blen j => if j.toNat < 4 then some 16 else none
  | _ => none

/-- A write of a parameter or length register changes no other kind of state. -/
theorem writeLoc_field_frame (s : State) (w : Word) {l : Loc} {n : Nat} (hl : l.fieldWidth = some n) :
    s.writeLoc w l = { s with regs := (s.writeLoc w l).regs } ∧ (s.writeLoc w l).regs.v = s.regs.v ∧
      (s.writeLoc w l).regs.mem = s.regs.mem := by
  cases l with
  | pssModbits | pssSlen | mrRounds | mgfLen | ospLen | blen j => exact ⟨rfl, rfl, rfl⟩
  | _ => exact nomatch hl

theorem readLoc_writeLoc_field_same (s : State) (w : Word) {l : Loc} {n : Nat} (hl : l.fieldWidth = some n) :
    (s.writeLoc w l).readLoc l = BitVec.ofNat 32 (w.toNat % 2 ^ n) := by
  cases l with
  | pssModbits | pssSlen | mrRounds | mgfLen | ospLen =>
    obtain rfl := Option.some.inj hl
    exact setWidth_setWidth_word w _
  | blen j =>
    by_cases hj : j.toNat < 4
    · obtain rfl : 16 = n := by simpa [Loc.fieldWidth, hj] using hl
      simpa [State.readLoc, State.writeLoc, hj] using setWidth_setWidth_word w 16
    · simp [Loc.fieldWidth, hj] at hl
  | _ => exact nomatch hl

theorem readLoc_writeLoc_field_other (s : State) (w : Word) {l l' : Loc} {n : Nat} (hl : l.fieldWidth = some n)
    (hne : l' ≠ l) : (s.writeLoc w l).readLoc l' = s.readLoc l' := by
  cases l with
  | blen j =>
    cases l' with
    | blen j' =>
      have hj : j.toNat ≠ j'.toNat := fun e => hne (congrArg Loc.blen (BitVec.eq_of_toNat_eq e.symm))
      simp [State.readLoc, State.writeLoc, Vector.getElem?_setIfInBounds_ne hj]
    | _ => rfl
  | pssModbits | pssSlen | mrRounds | mgfLen | ospLen =>
    cases l' <;> first | rfl | exact absurd rfl hne
  | _ => exact nomatch hl

/-- Above the first registers, no place stores a field but the length registers (R60). -/
theorem fieldWidth_locOf_high {off : Nat} (h : 0x050 ≤ off) : (locOf off).fieldWidth = none := by
  rcases locOf_high (off := off) (by omega) with ⟨hlt, -⟩ | ⟨-, -, e⟩ | ⟨-, -, e⟩ | e
  · omega
  all_goals rw [e]; rfl

/-- No two offsets name one parameter or length register (10_state.md R60). -/
theorem locOf_field_inj {off off' n : Nat} (h4 : off % 4 = 0) (h4' : off' % 4 = 0)
    (hl : (locOf off).fieldWidth = some n) (he : locOf off' = locOf off) : off' = off := by
  have hlow : ∀ m < 20, ∀ k < 20, (locOf (4 * m)).fieldWidth ≠ none → locOf (4 * k) = locOf (4 * m) → k = m := by
    decide
  have low {o : Nat} (ho : (locOf o).fieldWidth = some n) : o < 0x050 := by
    by_contra hge
    rw [fieldWidth_locOf_high (by omega)] at ho
    exact nomatch ho
  have hlt := low hl
  have hlt' := low (he ▸ hl)
  obtain ⟨m, rfl⟩ : ∃ m, off = 4 * m := ⟨off / 4, by omega⟩
  obtain ⟨k, rfl⟩ : ∃ k, off' = 4 * k := ⟨off' / 4, by omega⟩
  rw [hlow m (by omega) k (by omega) (by simp [hl]) he]

/-- The parameter and length registers of 10_state.md R60 store the fields of R75 to R80. -/
theorem fieldWidth_locOf {off width : Nat}
    (h : (off, width) ∈ [(0x020, 14), (0x024, 16), (0x028, 8), (0x02C, 16), (0x030, 16), (0x040, 16), (0x044, 16),
      (0x048, 16), (0x04C, 16)]) : off % 4 = 0 ∧ off < 0x050 ∧ (locOf off).fieldWidth = some width := by
  have hall : ∀ p ∈ [(0x020, 14), (0x024, 16), (0x028, 8), (0x02C, 16), (0x030, 16), (0x040, 16), (0x044, 16),
      (0x048, 16), (0x04C, 16)], p.1 % 4 = 0 ∧ p.1 < 0x050 ∧ (locOf p.1).fieldWidth = some p.2 := by decide
  exact hall _ h

/-- Settles O21: a write of a field's place is read back there and nowhere else. -/
theorem parameterRegistersStore : Obligations.ParameterRegistersStore := by
  intro s off width hidle hmem w
  obtain ⟨h4, hoff, hw⟩ := fieldWidth_locOf hmem
  obtain ⟨hframe, hv, hm⟩ := writeLoc_field_frame s w hw
  let t := (s.writeLoc w (locOf off)).respond false 0#32
  have ht : t = { s with regs := t.regs, resp := t.resp } := congrArg (State.respond · false 0#32) hframe
  have hparams : t.params = s.params := by rw [ht]
  have hbusy : t.busy = false := by rw [ht]; exact hidle
  have hread : t.readLoc (locOf off) = BitVec.ofNat 32 (w.toNat % 2 ^ width) :=
    readLoc_writeLoc_field_same s w hw
  refine ⟨t, t.respond false (t.readLoc (locOf off)), memWrite_served s w h4 (by omega) (.inl hidle), rfl, ht, hv, hm,
    ?_, by rw [State.respond_resp, hread], fun off' hne h4' _ => ?_⟩
  · rw [← hparams]
    exact memRead_served t h4 (by omega) (.inl hbusy)
  · exact readLoc_writeLoc_field_other s w hw fun he => hne (locOf_field_inj h4 h4' hw he)

end Sys2Proof.Machine
end

section
/-! ## What each kind of command leaves unchanged -/

namespace Sys2Proof.Machine

theorem State.SameControl.refl (s : State) : s.SameControl s := ⟨rfl, rfl, rfl, rfl, rfl, rfl, rfl, rfl, rfl⟩

theorem RegFile.SameParams.refl (r : RegFile) : r.SameParams r := ⟨rfl, rfl, rfl, rfl, rfl⟩

/-- No command changes the control state but what a completion sets (40_command_execution.md R238). -/
theorem exec_sameControl {i : Instr} {s t : State} (h : exec i s = .next t) : s.SameControl t := by
  cases exec_cases h with
  | waits => exact .refl s
  | failed rest c _ _ => exact (s.completed_withRng rest c false).same
  | ended rest e _ _ _ _ => exact (s.completed_committed rest e).same

/-- A command writes no register, or commits an output of its kind (R240). -/
theorem exec_regs {i : Instr} {s t : State} (h : exec i s = .next t) :
    t.regs = s.regs ∨ ∃ e : Effect, e.fits i ∧ t.regs = s.regs.commit s.params e := by
  cases exec_cases h with
  | waits => exact .inl rfl
  | failed _ _ _ _ => exact .inl rfl
  | ended _ e _ hf _ _ => exact .inr ⟨e, hf, rfl⟩

theorem exec_sameParams {i : Instr} {s t : State} (h : exec i s = .next t) : s.regs.SameParams t.regs := by
  rcases exec_regs h with hr | ⟨e, -, hr⟩ <;> rw [hr]
  · exact .refl _
  · exact RegFile.sameParams_commit _ _ _

/-! ### Commands with an integer result -/

/-- A command that can commit V[d] only takes no RNG byte, as MRTEST and PSSENC commit other outputs. -/
theorem exec_rng_integer {i : Instr} {d : Field} {s t : State} (hi : ∀ e : Effect, e.fits i → ∃ x, e = .setV d x)
    (h : exec i s = .next t) : t.rng = s.rng := by
  refine exec_rng h ?_ ?_
  · rintro a rfl
    obtain ⟨_, hx⟩ := hi (.answer true) trivial
    exact nomatch hx
  · rintro d' a rfl
    obtain ⟨_, hx⟩ := hi (.setB d' []) rfl
    exact nomatch hx

theorem exec_regs_integer {i : Instr} {d : Field} {s t : State} (hi : ∀ e : Effect, e.fits i → ∃ x, e = .setV d x)
    (h : exec i s = .next t) : t.regs = s.regs ∨ ∃ x, t.regs = s.regs.setV d x := by
  rcases exec_regs h with hr | ⟨e, hf, hr⟩
  · exact .inl hr
  · obtain ⟨x, rfl⟩ := hi e hf
    exact .inr ⟨x, hr⟩

/-- Settles O57: the four commands can commit V[D] only. -/
theorem integerCommandsFrame : Obligations.IntegerCommandsFrame := by
  intro i d s t hi h
  have hfits : ∀ e : Effect, e.fits i → ∃ x, e = .setV d x := by
    intro e hf
    rcases hi with ⟨a, b, c, rfl⟩ | ⟨c, rfl⟩ | ⟨a, b, c, rfl⟩ | ⟨a, rfl⟩
    all_goals
      cases e with
      | setV d' x => exact ⟨x, congrArg (Effect.setV · x) hf⟩
      | _ => exact hf.elim
  have hregs := exec_regs_integer hfits h
  refine ⟨fun j hj => ?_, fun a => ?_, fun j => ?_, exec_sameParams h, exec_rng_integer hfits h, exec_sameControl h⟩ <;>
    rcases hregs with hr | ⟨x, hr⟩ <;> rw [hr]
  · exact RegFile.getV_setV_other _ (Ne.symm hj) x
  · rw [RegFile.setV_mem]
  · rw [RegFile.getLen_setV]

/-! ### Commands with a byte-string result -/

/-- `u` is `r`, or `r` with at most `n` bytes stored in buffer `d`. -/
def RegFile.StoredAtMost (r : RegFile) (d : Field) (n : Nat) (u : RegFile) : Prop :=
  u = r ∨ ∃ b : List Byte, b.length ≤ n ∧ u = r.setBuf d b

section
variable {d a : Field} {n : Nat} {s t : State}

theorem RegFile.StoredAtMost.raise {c : ErrCode} (h : s.raise c = .next t) : s.regs.StoredAtMost d n t.regs := by
  obtain rfl := Host.Outcome.next.inj h
  exact .inl rfl

theorem RegFile.StoredAtMost.wait (h : s.waitForPort = .next t) : s.regs.StoredAtMost d n t.regs := by
  obtain rfl := Host.Outcome.next.inj h
  exact .inl rfl

theorem RegFile.StoredAtMost.succeed {b : List Byte} (h : s.succeed (.setB d b) = .next t) (hb : b.length ≤ n) :
    s.regs.StoredAtMost d n t.regs := by
  obtain rfl := Host.Outcome.next.inj h
  exact .inr ⟨b, hb, rfl⟩

theorem execI2osp_stored (h : execI2osp d a s = .next t) : s.regs.StoredAtMost d s.outLen t.regs := by
  unfold execI2osp at h
  repeat' split at h
  case isFalse.isFalse.isFalse => exact .succeed h (by simp)
  all_goals exact .raise h

theorem execMgf1_stored (h : execMgf1 d a s = .next t) : s.regs.StoredAtMost d s.maskLen t.regs := by
  unfold execMgf1 at h
  repeat' split at h
  case h_1 => exact nomatch h
  case h_2 hmask => exact .succeed h (mgf1_length_le hmask)
  case isFalse.isFalse.isFalse.isTrue => exact .wait h
  all_goals exact .raise h

/-- Checks that pass make EM exactly emLen bytes long (46_pss.md R381). -/
theorem execPssenc_stored (hl : s.params.legal) (h : execPssenc d a s = .next t) :
    s.regs.StoredAtMost d (emLen s.modBits) t.regs := by
  unfold execPssenc at h
  split at h
  · exact .raise h
  split at h
  · exact .raise h
  next hchecks =>
    obtain ⟨-, -, -, hem⟩ := State.pssencError_eq_none.mp hchecks
    obtain ⟨-, -, -, hhlen, -⟩ := id hl
    split at h
    · exact .wait h
    split at h
    · exact nomatch h
    next em he =>
      have hlen : em.length = emLen s.modBits :=
        pssEncode_length hhlen (hashOf_length hl) (by simp only [List.length_take]; omega) he
      exact RegFile.StoredAtMost.succeed (s := s.withRng (s.rng.drop s.saltLen)) h hlen.le

end

/-- Settles O58: each command stores a string of its own length, or nothing. -/
theorem bufferCommandsFrame : Obligations.BufferCommandsFrame := by
  intro i d n s t hl hi h
  have hstored : s.regs.StoredAtMost d n t.regs := by
    rcases hi with ⟨a, rfl, rfl⟩ | ⟨a, rfl, rfl⟩ | ⟨a, rfl, rfl⟩
    · exact execI2osp_stored h
    · exact execMgf1_stored h
    · exact execPssenc_stored hl h
  have hrng : (∃ a, i = .pssenc d a) ∨ t.rng = s.rng := by
    rcases hi with ⟨a, rfl, -⟩ | ⟨a, rfl, -⟩ | ⟨a, rfl, -⟩
    · exact .inr (exec_rng h (by simp) (by simp))
    · exact .inr (exec_rng h (by simp) (by simp))
    · exact .inl ⟨a, rfl⟩
  refine ⟨fun j => ?_, fun a ha => ?_, fun j hj => ?_, exec_sameParams h, exec_sameControl h, hrng⟩ <;>
    rcases hstored with hr | ⟨b, hb, hr⟩ <;> rw [hr]
  · rw [RegFile.getV_setBuf]
  · rw [RegFile.setBuf_mem, Memory.read_writeBytes_outside _ _ (by omega)]
  · exact RegFile.getLen_setBuf_other _ (Ne.symm hj) b

/-! ### Commands with an answer or none -/

theorem exec_regs_answer {i : Instr} {s t : State}
    (hi : i = .nop ∨ (∃ a, i = .mrtest a) ∨ ∃ a b, i = .pssver a b) (h : exec i s = .next t) : t.regs = s.regs := by
  rcases exec_regs h with hr | ⟨e, hf, hr⟩
  · exact hr
  · rcases hi with rfl | ⟨a, rfl⟩ | ⟨a, b, rfl⟩
    all_goals
      cases e with
      | nothing | answer _ => exact hr
      | _ => exact hf.elim

/-- Settles O59: the three commands commit no register. -/
theorem answerCommandsFrame : Obligations.AnswerCommandsFrame := by
  intro i s t hi h
  refine ⟨exec_regs_answer hi h, exec_sameControl h, ?_⟩
  rcases hi with rfl | ⟨a, rfl⟩ | ⟨a, b, rfl⟩
  · exact .inr (exec_rng h (by simp) (by simp))
  · exact .inl ⟨a, rfl⟩
  · exact .inr (exec_rng h (by simp) (by simp))

end Sys2Proof.Machine
end

section
/-! # The memory family: which accesses are refused, and what the windows and the reserved offsets hold -/

namespace Sys2Proof.Machine

/-! ### Accesses of no effect -/

/-- Settles O26: the block's range is checked before all else. -/
theorem accessOutsideBlockFaults : Obligations.AccessOutsideBlockFaults := by
  intro s a h
  simp only [busAccess, if_pos h]

theorem Access.legal_iff (a : Access) (off : Nat) :
    a.legal off = true ↔ a.size = 4 ∧ off % 4 = 0 ∧ a.strobes = 0xF#4 := by
  simp [Access.legal, and_assoc]

/-- Settles O16: such an access is not `legal`. -/
theorem illegalAccessSlverr : Obligations.IllegalAccessSlverr := by
  intro s a hlo hhi hbad
  have hlegal : a.legal (a.addr - s.params.baseAddr) = false := by
    rw [← Bool.not_eq_true, Access.legal_iff]
    tauto
  simp only [busAccess]
  rw [if_neg (by omega), if_pos (.inl hlegal)]

/-- Settles O17: the locked places are those of R135, and the lock stops no other access. -/
theorem busyLock : Obligations.BusyLock := by
  intro s off data hbusy h4 hoff
  rw [← locked_locOf]
  refine ⟨fun hl => busAccess_locked s data hoff hbusy hl, fun hl => ?_⟩
  have hserved := busAccess_served s data h4 hoff (.inr (Bool.not_eq_true _ ▸ hl))
  constructor
  · rintro rfl
    exact hserved
  · rintro w rfl
    exact hserved

/-! ### Reads -/

/-- The response to a read of the block: SLVERR if it is illegal or locked, else the word (20_memory.md R131, R135). -/
def State.readResp (s : State) (a : Access) : BusResp :=
  let off := a.addr - s.params.baseAddr
  if a.legal off = false ∨ (s.busy = true ∧ (locOf off).locked = true) then ⟨true, 0#32⟩
  else ⟨false, s.readLoc (locOf off)⟩

theorem busAccess_read {s : State} {a : Access} (hd : a.data = none)
    (hin : s.params.baseAddr ≤ a.addr ∧ a.addr < s.params.baseAddr + 0x10000) :
    busAccess s a = .next { s with resp := some (s.readResp a) } := by
  simp only [busAccess, hd, State.readResp]
  rw [if_neg (by omega)]
  split <;> rfl

theorem readLoc_withOutside (s : State) (r : Option BusResp) (bytes : List Byte) (events : List Event) (l : Loc) :
    { s with resp := r, rng := bytes, agenda := events }.readLoc l = s.readLoc l := by
  cases l <;> rfl

/-- A read shows neither the last response nor the delivered bytes nor the coming moves. -/
theorem readResp_withOutside (s : State) (r : Option BusResp) (bytes : List Byte) (events : List Event) (a : Access) :
    { s with resp := r, rng := bytes, agenda := events }.readResp a = s.readResp a := by
  simp only [State.readResp, readLoc_withOutside]
  rfl

/-- Settles O22: a read sets the response to `readResp`, which depends on nothing that reads and ports change. -/
theorem readsHaveNoSideEffect : Obligations.ReadsHaveNoSideEffect := by
  intro s t a hd h
  obtain ⟨hin, -⟩ := busAccess_cases h
  rw [busAccess_read hd hin] at h
  obtain rfl := Host.Outcome.next.inj h
  refine ⟨⟨_, rfl⟩, fun r bytes events => ⟨_, busAccess_read hd hin, ?_⟩⟩
  simp only [readResp_withOutside]

/-! ### Reserved offsets and window tails -/

/-- A place that reads as zero and ignores writes (20_memory.md R133, R134). -/
def State.RazWi (s : State) (l : Loc) : Prop := s.readLoc l = 0#32 ∧ ∀ w, s.writeLoc w l = s

theorem State.razWi_reserved (s : State) : s.RazWi .reserved := ⟨rfl, fun _ => rfl⟩

theorem State.razWi_vTail (s : State) (i : Field) {k : Nat} (hk : s.params.limbs ≤ k) : s.RazWi (.vWord i k) := by
  have hk' : ¬k < s.params.limbs := Nat.not_lt.2 hk
  refine ⟨?_, fun w => ?_⟩
  · simp only [State.readLoc, if_neg hk']
  · simp only [State.writeLoc, RegFile.writeVWord, if_neg hk']

theorem State.razWi_bTail (s : State) (j : Field) {k : Nat} (hk : s.params.bufBytes ≤ 4 * k) :
    s.RazWi (.bWord j k) := by
  have hk' : ¬4 * k < s.params.bufBytes := Nat.not_lt.2 hk
  refine ⟨?_, fun w => ?_⟩
  · simp only [State.readLoc, if_neg hk']
  · simp only [State.writeLoc, RegFile.writeBWord, if_neg hk']

theorem busAccess_razWi {s : State} {off : Nat} (data : Option Word) (h4 : off % 4 = 0) (hr : off < 0x10000)
    (hb : s.busy = false ∨ (locOf off).locked = false) (hz : s.RazWi (locOf off)) :
    busAccess s ⟨s.params.baseAddr + off, 4, 0xF#4, data⟩ = .next (s.respond false 0#32) := by
  obtain ⟨hread, hwrite⟩ := hz
  rw [busAccess_served s data h4 hr hb]
  cases data with
  | none => simp only [hread]
  | some w => simp only [hwrite]

/-- The reserved offsets of 10_state.md R60. -/
theorem locOf_eq_reserved {off : Nat}
    (h : off = 0x018 ∨ off = 0x01C ∨ (0x034 ≤ off ∧ off < 0x040) ∨ (0x050 ≤ off ∧ off < 0x1000) ∨
      (0x3000 ≤ off ∧ off < 0x4000) ∨ 0x5000 ≤ off) : locOf off = .reserved := by
  unfold locOf
  repeat rw [if_neg (by omega)]

theorem busAccess_reserved (s : State) {off : Nat} (data : Option Word) (h4 : off % 4 = 0) (hr : off < 0x10000)
    (hl : locOf off = .reserved) :
    busAccess s ⟨s.params.baseAddr + off, 4, 0xF#4, data⟩ = .next (s.respond false 0#32) :=
  busAccess_razWi data h4 hr (.inr (hl ▸ rfl)) (hl ▸ s.razWi_reserved)

theorem busAccess_vTail {s : State} (data : Option Word) (hidle : s.busy = false) {i k : Nat} (hi : i < 8)
    (hk : s.params.limbs ≤ k) (hk' : k < 256) :
    busAccess s ⟨s.params.baseAddr + (0x1000 + 0x400 * i + 4 * k), 4, 0xF#4, data⟩ =
      .next (s.respond false 0#32) :=
  busAccess_razWi data (by omega) (by omega) (.inl hidle) (locOf_vWord hi hk' ▸ s.razWi_vTail _ hk)

theorem busAccess_bTail {s : State} (data : Option Word) (hidle : s.busy = false) {j k : Nat} (hj : j < 4)
    (hk : s.params.bufBytes ≤ 4 * k) (hk' : k < 256) :
    busAccess s ⟨s.params.baseAddr + (0x4000 + 0x400 * j + 4 * k), 4, 0xF#4, data⟩ =
      .next (s.respond false 0#32) :=
  busAccess_razWi data (by omega) (by omega) (.inl hidle) (locOf_bWord hj hk' ▸ s.razWi_bTail _ hk)

/-- Settles O18: reserved offsets are never locked, an idle engine locks nothing, and both kinds of place are RAZ/WI. -/
theorem reservedOffsetsAndTails : Obligations.ReservedOffsetsAndTails := by
  intro s off data h4 h
  rcases h with h | h | h | h | h | h | ⟨hidle, ⟨i, j, hi, hj, hj', rfl⟩ | ⟨j, k, hj, hk, hk', -, rfl⟩⟩
  on_goal 7 => exact busAccess_vTail data hidle hi hj hj'
  on_goal 7 =>
    obtain ⟨m, rfl⟩ : ∃ m, k = 4 * m := ⟨k / 4, by omega⟩
    exact busAccess_bTail data hidle hj hk (by omega)
  all_goals exact busAccess_reserved s data h4 (by omega) (locOf_eq_reserved (by omega))

/-! ### The V windows -/

/-- The limbs of an integer below k sum to its low 32·k bits (20_memory.md R136). -/
theorem sum_limbs (x k : Nat) :
    ((List.range k).map fun l => x / 2 ^ (32 * l) % 2 ^ 32 * 2 ^ (32 * l)).sum = x % 2 ^ (32 * k) := by
  induction k with
  | zero => simp [Nat.mod_one]
  | succ k ih =>
    rw [List.range_succ, List.map_append, List.sum_append, ih, List.map_singleton, List.sum_singleton, Nat.mul_succ,
      Nat.pow_add, Nat.mod_mul, Nat.mul_comm (2 ^ (32 * k))]

theorem limb_eq_ofNat_mod (x j : Nat) : limb x j = BitVec.ofNat 32 (x / 2 ^ (32 * j) % 2 ^ 32) := by
  rw [← limb_toNat, BitVec.ofNat_toNat, BitVec.setWidth_eq]

theorem readLoc_vWord (s : State) (i : Field) {k : Nat} (hk : k < s.params.limbs) :
    s.readLoc (.vWord i k) = limb (s.regs.getV i) k := if_pos hk

theorem writeLoc_vWord (s : State) (w : Word) (i : Field) {k : Nat} (hk : k < s.params.limbs) :
    s.writeLoc w (.vWord i k) = { s with regs := s.regs.setV i (setLimb (s.regs.getV i) k w) } := by
  simp only [State.writeLoc, RegFile.writeVWord, if_pos hk]

/-- Settles O19: the window word's place is limb j of V[i], and `setLimb` replaces that limb alone. -/
theorem integerWindow : Obligations.IntegerWindow := by
  intro s i j hidle hi hj hmax
  have h256 : j < 256 := by unfold Params.limbs at hj; omega
  have hloc := locOf_vWord hi h256
  refine ⟨fun h32 hlt => ?_, ⟨_, memRead_served s (by omega) (by omega) (.inl hidle), ?_⟩, fun w =>
    ⟨_, memWrite_served s w (by omega) (by omega) (.inl hidle), ?_⟩⟩
  · have hbits : 32 * s.params.limbs = s.params.maxbits := by unfold Params.limbs; omega
    rw [sum_limbs, hbits, Nat.mod_eq_of_lt hlt]
  · rw [State.respond_resp, hloc, readLoc_vWord s _ hj, limb_eq_ofNat_mod]
  · rw [hloc, writeLoc_vWord s w _ hj]
    simp only [State.respond_regs]
    have hget : (s.regs.setV (BitVec.ofNat 4 i) (setLimb (s.regs.getV (BitVec.ofNat 4 i)) j w)).getV
        (BitVec.ofNat 4 i) = setLimb (s.regs.getV (BitVec.ofNat 4 i)) j w :=
      RegFile.getV_setV_same _ (by rw [BitVec.toNat_ofNat]; omega) _
    rw [hget]
    refine ⟨rfl, fun k hk => RegFile.getV_setV_other _ hk.symm _, ?_, limb_setLimb_same _ _ _,
      fun l hl => limb_setLimb_other _ _ _ _ hl⟩
    rw [setLimb, limb_toNat]

/-! ### The B windows -/

/-- Lane k of a window word is the k-th of its bytes (20_memory.md R137). -/
theorem extractLsb'_wordOfLanes (b : Nat → Byte) {k : Nat} (hk : k < 4) :
    (wordOfLanes (b 0) (b 1) (b 2) (b 3)).extractLsb' (8 * k) 8 = b k := by
  unfold wordOfLanes
  simp only [BitVec.extractLsb'_or]
  interval_cases k <;> simp [extractLsb'_place_same, extractLsb'_place_disjoint]

theorem lanesOfWord_length (w : Word) : (lanesOfWord w).length = 4 := rfl

theorem lanesOfWord_getElem (w : Word) {k : Nat} (hk : k < (lanesOfWord w).length) :
    (lanesOfWord w)[k] = w.extractLsb' (8 * k) 8 := by
  have h4 : k < 4 := hk
  interval_cases k <;> rfl

theorem readLoc_bWord (s : State) (j : Field) {m : Nat} (hm : 4 * m < s.params.bufBytes) :
    s.readLoc (.bWord j m) = wordOfLanes (s.regs.getByte j (4 * m + 0)) (s.regs.getByte j (4 * m + 1))
      (s.regs.getByte j (4 * m + 2)) (s.regs.getByte j (4 * m + 3)) := if_pos hm

theorem writeLoc_bWord (s : State) (w : Word) (j : Field) {m : Nat} (hm : 4 * m < s.params.bufBytes) :
    s.writeLoc w (.bWord j m) = { s with regs := { s.regs with
      mem := Memory.writeBytes s.regs.mem (bufOffset j.toNat + 4 * m) (lanesOfWord w) } } := by
  simp only [State.writeLoc, RegFile.writeBWord, if_pos hm]

/-- Settles O20: the window word's place is four bytes of buffer j, which a write stores as a string of four. -/
theorem bufferWindow : Obligations.BufferWindow := by
  intro s j m hidle hj hm hmax
  have h256 : m < 256 := by unfold Params.bufBytes at hm; omega
  have hloc := locOf_bWord hj h256
  have hj4 : (BitVec.ofNat 4 j).toNat = j := by rw [BitVec.toNat_ofNat]; omega
  refine ⟨⟨_, _, memRead_served s (by omega) (by omega) (.inl hidle), rfl, fun k hk => ?_⟩, fun w hwf =>
    ⟨_, memWrite_served s w (by omega) (by omega) (.inl hidle), ?_⟩⟩
  · rw [hloc, readLoc_bWord s _ hm]
    exact extractLsb'_wordOfLanes (fun k => s.regs.getByte (BitVec.ofNat 4 j) (4 * m + k)) hk
  · rw [hloc, writeLoc_bWord s w _ hm]
    simp only [State.respond_regs]
    refine ⟨rfl, fun k hk => ?_, fun a ha => Memory.read_writeBytes_outside _ _ ?_⟩
    · have hlane : k < (lanesOfWord w).length := by rw [lanesOfWord_length]; exact hk
      rw [RegFile.getByte, ← Nat.add_assoc, Memory.read_writeBytes_inside hwf _ hlane, lanesOfWord_getElem]
    · rw [hj4, bufOffset, lanesOfWord_length]
      omega

end Sys2Proof.Machine
end

section
/-! # The encoding family: the decoder, the encoder and the opcode table agree, and what an undecodable word does -/

namespace Sys2Proof.Machine

/-! ### The fields of a command word (30_encoding.md R181) -/

section
variable (o : BitVec 8) (d a b c : Field)

@[simp] theorem fieldD_commandWord : fieldD (commandWord o d a b c) = d := by
  simp [fieldD, commandWord, BitVec.extractLsb'_or, extractLsb'_place_same, extractLsb'_place_disjoint]

@[simp] theorem fieldA_commandWord : fieldA (commandWord o d a b c) = a := by
  simp [fieldA, commandWord, BitVec.extractLsb'_or, extractLsb'_place_same, extractLsb'_place_disjoint]

@[simp] theorem fieldB_commandWord : fieldB (commandWord o d a b c) = b := by
  simp [fieldB, commandWord, BitVec.extractLsb'_or, extractLsb'_place_same, extractLsb'_place_disjoint]

@[simp] theorem fieldC_commandWord : fieldC (commandWord o d a b c) = c := by
  simp [fieldC, commandWord, BitVec.extractLsb'_or, extractLsb'_place_same, extractLsb'_place_disjoint]

@[simp] theorem fieldRSV_commandWord : fieldRSV (commandWord o d a b c) = 0#8 := by
  simp [fieldRSV, commandWord, BitVec.extractLsb'_or, extractLsb'_place_disjoint]

end

/-- Words that agree on a field agree on its bits. -/
theorem getLsbD_eq_of_extractLsb'_eq {u w : Word} {k n j : Nat} (h : u.extractLsb' k n = w.extractLsb' k n)
    (hk : k ≤ j) (hj : j < k + n) : u.getLsbD j = w.getLsbD j := by
  have hbit := congrArg (·.getLsbD (j - k)) h
  have hlt : j - k < n := by omega
  simpa only [BitVec.getLsbD_extractLsb', decide_eq_true hlt, Bool.true_and, Nat.add_sub_cancel' hk] using hbit

/-- The six fields make up the word. -/
theorem word_eq_of_fields {u w : Word} (hO : fieldOPC u = fieldOPC w) (hD : fieldD u = fieldD w)
    (hA : fieldA u = fieldA w) (hB : fieldB u = fieldB w) (hC : fieldC u = fieldC w)
    (hR : fieldRSV u = fieldRSV w) : u = w := by
  apply BitVec.eq_of_getLsbD_eq
  intro j hj
  rcases (by omega : j < 8 ∨ (8 ≤ j ∧ j < 12) ∨ (12 ≤ j ∧ j < 16) ∨ (16 ≤ j ∧ j < 20) ∨ (20 ≤ j ∧ j < 24) ∨ 24 ≤ j)
    with h | ⟨h, h'⟩ | ⟨h, h'⟩ | ⟨h, h'⟩ | ⟨h, h'⟩ | h
  · exact getLsbD_eq_of_extractLsb'_eq hO (Nat.zero_le j) (by omega)
  · exact getLsbD_eq_of_extractLsb'_eq hD h h'
  · exact getLsbD_eq_of_extractLsb'_eq hA h h'
  · exact getLsbD_eq_of_extractLsb'_eq hB h h'
  · exact getLsbD_eq_of_extractLsb'_eq hC h h'
  · exact getLsbD_eq_of_extractLsb'_eq hR h hj

/-! ### The decoder, by the row it finds (R189) -/

theorem reservedClear_iff (w : Word) (unused : List Field) :
    reservedClear w unused = true ↔ fieldRSV w = 0#8 ∧ ∀ f ∈ unused, f = 0#4 := by
  simp [reservedClear]

theorem decode_of_lookup_none {w : Word} (h : lookup w = none) : decode w = .error .opcode := by
  simp only [decode, h]

theorem decode_of_not_reservedClear {w : Word} {i : Instr} {unused : List Field} (h : lookup w = some (i, unused))
    (hc : ¬reservedClear w unused = true) : decode w = .error .reserved := by
  simp [decode, h, hc]

theorem decode_of_reservedClear {w : Word} {i : Instr} {unused : List Field} (h : lookup w = some (i, unused))
    (hc : reservedClear w unused = true) : decode w = if i.wf then .ok i else .error .index := by
  cases hw : i.wf <;> simp [decode, h, hc, hw]

/-- A word is never rejected with the code of no error. -/
theorem decode_ne_error_ok (w : Word) : decode w ≠ .error .ok := by
  unfold decode
  repeat' split
  all_goals simp

/-- The word of a command selects its row and passes its test of unused and reserved bits. -/
theorem lookup_encode (i : Instr) :
    ∃ unused, lookup (encode i) = some (i, unused) ∧ reservedClear (encode i) unused = true := by
  cases i <;> simp [encode, lookup, reservedClear_iff, fieldOPC_commandWord]

/-- Settles O2: the word finds its command's row with the reserved and unused bits clear, so only the indices decide. -/
theorem decodeEncodeRoundTrip : Obligations.DecodeEncodeRoundTrip := by
  intro i
  obtain ⟨unused, hl, hc⟩ := lookup_encode i
  exact decode_of_reservedClear hl hc

/-- A word with its reserved and unused bits clear is made of its row's opcode and used fields alone. -/
theorem encode_of_lookup {w : Word} {i : Instr} {unused : List Field} (h : lookup w = some (i, unused))
    (hc : reservedClear w unused = true) : encode i = w := by
  obtain ⟨hrsv, hunused⟩ := (reservedClear_iff w unused).mp hc
  have hopc : fieldOPC (encode i) = fieldOPC w := (fieldOPC_of_lookup h).symm
  unfold lookup at h
  split at h
  case h_12 => exact nomatch h
  all_goals
    obtain ⟨rfl, rfl⟩ := Prod.mk.inj (Option.some.inj h)
    simp only [List.mem_cons, List.not_mem_nil, or_false, forall_eq_or_imp, forall_eq] at hunused
    refine word_eq_of_fields hopc ?_ ?_ ?_ ?_ ?_ <;> simp [encode, hunused, hrsv]

/-- Settles O3: a word that decodes has the six fields of its command's word. -/
theorem encodeDecodeRoundTrip : Obligations.EncodeDecodeRoundTrip := by
  intro w i h
  obtain ⟨unused, hl, hc, hw⟩ := lookup_of_decode_ok h
  exact ⟨encode_of_lookup hl hc, hw⟩

/-! ### The opcode table -/

/-- A word finds no row exactly if its OPC is none of the eleven (R186). -/
theorem lookup_eq_none_iff (w : Word) : lookup w = none ↔
    fieldOPC w ∉ [0x00#8, 0x01#8, 0x10#8, 0x11#8, 0x18#8, 0x20#8, 0x21#8, 0x30#8, 0x40#8, 0x50#8, 0x51#8] := by
  unfold lookup
  split
  case h_12 => simp_all
  all_goals next ho => simp [ho]

end Sys2Proof.Machine

namespace Sys2Proof.Laws.EncodeMatchesRow

/-- The word of every command passes the test of its row (R193). -/
theorem statement (i : Instr) : Statement i := by
  cases i with
  | nop => exact nop
  | zeroize => exact zeroize
  | montmul d a b c => exact montmul d a b c
  | montr2 d c => exact montr2 d c
  | modexp d a b c => exact modexp d a b c
  | i2osp d a => exact i2osp d a
  | os2ip d a => exact os2ip d a
  | mrtest a => exact mrtest a
  | mgf1 d a => exact mgf1 d a
  | pssenc d a => exact pssenc d a
  | pssver a b => exact pssver a b

end Sys2Proof.Laws.EncodeMatchesRow

namespace Sys2Proof.Machine

/-- A mask that covers a field fixes it. -/
theorem extractLsb'_of_and_eq {w m x : Word} (h : w &&& m = x) {k n : Nat}
    (hm : m.extractLsb' k n = BitVec.allOnes n) : w.extractLsb' k n = x.extractLsb' k n := by
  rw [← h, BitVec.extractLsb'_and, hm, BitVec.and_allOnes]

/-- The low byte of a word is its OPC. -/
theorem and_opcMask (w : Word) : w &&& 0xFF#32 = (fieldOPC w).setWidth 32 := by
  apply BitVec.eq_of_toNat_eq
  have hmask : (0xFF#32).toNat = 2 ^ 8 - 1 := rfl
  rw [BitVec.toNat_and, hmask, Nat.and_two_pow_sub_one_eq_mod, BitVec.toNat_setWidth, fieldOPC,
    BitVec.extractLsb'_toNat, Nat.shiftRight_zero]
  omega

/-- The match of a row is its opcode, and its mask covers OPC. -/
theorem tableRow_opcode : ∀ row ∈ tableRows,
    row.1 = (fieldOPC row.1).setWidth 32 ∧ row.2.extractLsb' 0 8 = BitVec.allOnes 8 := by
  simp [tableRows, fieldOPC]

theorem and_opcMask_eq_match_iff (w : Word) {row : Word × Word} (h : row ∈ tableRows) :
    w &&& 0xFF#32 = row.1 ↔ fieldOPC w = fieldOPC row.1 := by
  refine ⟨fun hw => extractLsb'_of_and_eq hw (by decide), fun hw => ?_⟩
  rw [and_opcMask, hw, ← (tableRow_opcode row h).1]

theorem lookup_eq_none_iff_match (w : Word) : lookup w = none ↔ ∀ row ∈ tableRows, w &&& 0xFF#32 ≠ row.1 := by
  have hopcodes : [0x00#8, 0x01#8, 0x10#8, 0x11#8, 0x18#8, 0x20#8, 0x21#8, 0x30#8, 0x40#8, 0x50#8, 0x51#8] =
      tableRows.map fun row => fieldOPC row.1 := by decide
  rw [lookup_eq_none_iff, hopcodes, List.mem_map, not_exists]
  refine forall_congr' fun row => ?_
  rw [not_and]
  refine forall_congr' fun hrow => ?_
  rw [ne_eq, and_opcMask_eq_match_iff w hrow, eq_comm]

/-- The opcodes of the table tell its rows apart. -/
theorem row_of_lookup {w : Word} {i : Instr} {unused : List Field} {k : Nat} {row : Word × Word}
    (h : lookup w = some (i, unused)) (hk : tableRows[k]? = some row) (ho : w &&& 0xFF#32 = row.1) : i.row = k := by
  obtain ⟨row', hrow', hmatch⟩ := Laws.EncodeMatchesRow.statement i
  have hopc : fieldOPC row'.1 = fieldOPC row.1 := calc
    fieldOPC row'.1 = fieldOPC (encode i) :=
      (extractLsb'_of_and_eq hmatch (tableRow_opcode row' (List.mem_of_getElem? hrow')).2).symm
    _ = fieldOPC w := (fieldOPC_of_lookup h).symm
    _ = fieldOPC row.1 := (and_opcMask_eq_match_iff w (List.mem_of_getElem? hk)).mp ho
  have hnodup : (tableRows.map fun row => fieldOPC row.1).Nodup := by decide
  have hlt : i.row < (tableRows.map fun row => fieldOPC row.1).length := by
    obtain ⟨hrows, -⟩ := List.getElem?_eq_some_iff.mp hrow'
    rwa [List.length_map]
  refine (List.getElem?_inj hlt hnodup).mp ?_
  rw [List.getElem?_map, List.getElem?_map, hrow', hk, Option.map_some, Option.map_some, hopc]

/-- A row's mask covers RSV and the row's unused fields. -/
theorem reservedClear_of_passes {w : Word} {i : Instr} {unused : List Field} {row : Word × Word}
    (h : lookup w = some (i, unused)) (hrow : tableRows[i.row]? = some row) (hw : w &&& row.2 = row.1) :
    reservedClear w unused = true := by
  unfold lookup at h
  split at h
  case h_12 => exact nomatch h
  all_goals
    obtain ⟨rfl, rfl⟩ := Prod.mk.inj (Option.some.inj h)
    obtain rfl := Option.some.inj hrow
    simp [reservedClear_iff, fieldRSV, fieldD, fieldA, fieldB, fieldC, extractLsb'_of_and_eq hw]

/-- A row's test is steps 1 and 2 of the decoding procedure (R189, R193). -/
theorem passes_iff_reservedClear {w : Word} {i : Instr} {unused : List Field} {row : Word × Word}
    (h : lookup w = some (i, unused)) (hrow : tableRows[i.row]? = some row) :
    w &&& row.2 = row.1 ↔ reservedClear w unused = true := by
  refine ⟨reservedClear_of_passes h hrow, fun hc => ?_⟩
  obtain ⟨row', hrow', hmatch⟩ := Laws.EncodeMatchesRow.statement i
  obtain rfl : row' = row := Option.some.inj (hrow'.symm.trans hrow)
  rwa [encode_of_lookup h hc] at hmatch

theorem decode_eq_opcode_iff (w : Word) : decode w = .error .opcode ↔ lookup w = none := by
  refine ⟨fun h => ?_, decode_of_lookup_none⟩
  by_contra hl
  obtain ⟨⟨i, unused⟩, hl⟩ := Option.ne_none_iff_exists'.mp hl
  by_cases hc : reservedClear w unused = true
  · rw [decode_of_reservedClear hl hc] at h
    split at h <;> exact nomatch h
  · rw [decode_of_not_reservedClear hl hc] at h
    exact nomatch h

/-- Settles O4: the row of w's opcode is the one `lookup` finds, and its test is `reservedClear`. -/
theorem opcodeTableMasks : Obligations.OpcodeTableMasks := by
  refine ⟨rfl, fun w => ⟨(decode_eq_opcode_iff w).trans (lookup_eq_none_iff_match w), fun k row hk ho => ?_⟩⟩
  have hsome : lookup w ≠ none := fun hn => (lookup_eq_none_iff_match w).mp hn row (List.mem_of_getElem? hk) ho
  obtain ⟨⟨i, unused⟩, hl⟩ := Option.ne_none_iff_exists'.mp hsome
  obtain rfl := row_of_lookup hl hk ho
  rw [ne_eq, passes_iff_reservedClear hl hk]
  by_cases hc : reservedClear w unused = true
  · rw [decode_of_reservedClear hl hc]
    cases hw : i.wf <;> simp [hc, hw]
  · rw [decode_of_not_reservedClear hl hc]
    simp [hc]

/-! ### Words that decode to no command -/

theorem engineStep_of_decode_error {s : State} {snap : Snapshot} {c : ErrCode} (hs : s.inflight = some snap)
    (hd : decode snap.word = .error c) : engineStep s = .next (s.complete c false) := by
  simp only [engineStep, hs, hd, State.raise]

/-- The check of the operand indices comes first in every command. -/
theorem exec_of_not_wf {i : Instr} (h : i.wf = false) (s : State) : exec i s = .next (s.complete .index false) := by
  cases i with
  | nop | zeroize => exact nomatch h
  | _ => exact if_pos h

/-- Settles O6: both are `raise`, which sets the completion's fields and no other. -/
theorem undecodableWordCompletes : Obligations.UndecodableWordCompletes := by
  refine ⟨fun s snap c hs hd => ?_, fun s i hi => ?_⟩
  · have hc : c ≠ .ok := by
      rintro rfl
      exact decode_ne_error_ok _ hd
    exact ⟨_, engineStep_of_decode_error hs hd, s.completed_complete c false, hc, rfl, rfl⟩
  · exact ⟨_, exec_of_not_wf hi s, s.completed_complete .index false, rfl, rfl⟩

/-- A write of CMD on an idle engine is an acceptance (40_command_execution.md R231). -/
theorem busAccess_cmd_idle {s : State} (h : s.busy = false) (w : Word) :
    busAccess s (memWrite s.params 0x010 w) = .next ((s.accept w).respond false 0#32) := by
  have hloc : locOf 0x010 = .cmd := by decide
  rw [memWrite_served s w (by decide) (by decide) (.inl h), hloc]
  simp [State.writeLoc, State.writeCmd, h]

/-- Settles O5: the CMD write is an acceptance, and the engine's move on the word is `raise .opcode`. -/
theorem illegalOpcodeCompletes : Obligations.IllegalOpcodeCompletes := by
  intro s w hidle hopc
  have hd : decode w = .error .opcode := decode_of_lookup_none ((lookup_eq_none_iff w).mpr hopc)
  exact ⟨_, _, busAccess_cmd_idle hidle w, rfl, rfl, engineStep_of_decode_error rfl hd,
    State.completed_complete _ _ _, rfl⟩

/-- Settles O1, by running the decoder and the encoder on the eleven words. -/
theorem specWordsDecode : Obligations.SpecWordsDecode := by
  unfold Obligations.SpecWordsDecode
  decide

end Sys2Proof.Machine
end

section
/-! # The command-execution family: acceptance, the engine's states, and commands as transactions -/

namespace Sys2Proof.Machine

/-! ### The next move (10_state.md R50) -/

theorem step_of_agenda {s : State} {e : Event} {rest : List Event} (h : s.agenda = e :: rest) :
    step s = runEvent (s.withAgenda rest) e := by
  simp only [step, h]

theorem step_of_agenda_nil {s : State} (h : s.agenda = []) : step s = engineStep s := by
  simp only [step, h]

theorem engineStep_of_decode_ok {s : State} {snap : Snapshot} {i : Instr} (hs : s.inflight = some snap)
    (hd : decode snap.word = .ok i) : engineStep s = exec i s := by
  simp only [engineStep, hs, hd]

/-- Settles O7: the engine's move decodes the word in flight. -/
theorem stepRunsDecodedCommand : Obligations.StepRunsDecodedCommand := by
  intro s snap i rest hs hd
  refine ⟨fun ha => ?_, fun ha => ?_⟩
  · rw [step_of_agenda ha]
    exact engineStep_of_decode_ok hs hd
  · rw [step_of_agenda_nil ha]
    exact engineStep_of_decode_ok hs hd

theorem tableWord_toNat (w : Word) : tableWord 32 w.toNat = w := by
  rw [tableWord, Nat.mod_eq_of_lt w.isLt, BitVec.ofNat_toNat, BitVec.setWidth_eq]

/-- Settles O8: the write accepts the word, and the next step decodes it. -/
theorem cmdWriteThenEngineRunsCommand : Obligations.CmdWriteThenEngineRunsCommand := by
  intro s w i rest hd
  refine ⟨fun hidle ha => ?_, ?_⟩
  · have hwrite : step s = .next (((s.withAgenda (.engine :: rest)).accept w).respond false 0#32) :=
      (step_of_agenda ha).trans (busAccess_cmd_idle (s := s.withAgenda (.engine :: rest)) hidle w)
    rw [run_of_step hwrite 1, run_one, step_of_agenda rfl]
    let u := ((s.withAgenda rest).accept w).respond false 0#32
    exact engineStep_of_decode_ok (s := u) (snap := ⟨w, s.regs⟩) rfl hd
  · rw [State.withFetchWord, tableWord_toNat, step_of_agenda (s.placeCommand_agenda w)]
    exact engineStep_of_decode_ok (s := s.accept w) (snap := ⟨w, s.regs⟩) rfl hd

/-! ### Writes of CMD -/

/-- Settles O24: CMD is never locked, and a write of it is `writeCmd`. -/
theorem cmdWriteAcceptsOrOverruns : Obligations.CmdWriteAcceptsOrOverruns := by
  refine ⟨fun s w => ⟨fun hidle => ?_, fun hbusy => ?_⟩, fun s => memRead_unlocked s (by decide) (by decide),
    fun _ => rfl⟩
  · exact ⟨_, busAccess_cmd_idle hidle w, rfl, rfl, rfl, rfl, rfl, rfl, rfl, rfl, rfl, rfl, rfl, rfl, rfl, rfl,
      rfl, rfl, rfl⟩
  · have hwrite : s.writeLoc w (locOf 0x010) = { s with ovrP := true } := if_pos hbusy
    rw [memWrite_unlocked s w (by decide) (by decide), hwrite]
    rfl

/-! ### What an engine move and a host write can do -/

/-- The engine's move leaves the state or completes the running command; with an error it commits nothing
(40_command_execution.md R238, R239). -/
theorem engineStep_cases {s t : State} (h : engineStep s = .next t) :
    t = s ∨ ∃ c r, s.Completed t c r ∧ (c ≠ .ok → r = false ∧ t.regs = s.regs) := by
  unfold engineStep at h
  split at h
  · exact .inl (Host.Outcome.next.inj h).symm
  split at h
  · cases exec_cases h with
    | waits => exact .inl rfl
    | failed rest c _ _ => exact .inr ⟨c, false, s.completed_withRng rest c false, fun _ => ⟨rfl, rfl⟩⟩
    | ended rest e _ _ _ _ => exact .inr ⟨.ok, e.result, s.completed_committed rest e, fun hc => absurd rfl hc⟩
  next c _ =>
    obtain rfl := Host.Outcome.next.inj h
    exact .inr ⟨c, false, s.completed_complete c false, fun _ => ⟨rfl, rfl⟩⟩

/-- On a busy engine the move that ends the command completes it. -/
theorem engineStep_completes {s t : State} (h : engineStep s = .next t) (hs : s.busy = true) (ht : t.busy = false) :
    ∃ c r, s.Completed t c r ∧ (c ≠ .ok → r = false ∧ t.regs = s.regs) := by
  rcases engineStep_cases h with rfl | hc
  · rw [hs] at ht
    exact nomatch ht
  · exact hc

theorem engineStep_idle {s t : State} (h : engineStep s = .next t) (hs : s.busy = false) : t.busy = false := by
  rcases engineStep_cases h with rfl | ⟨c, r, hc, -⟩
  · exact hs
  · exact hc.idle

/-- Settles O32: an ended command has completed, and its snapshot is what the registers hold. -/
theorem errorCommitsNothing : Obligations.ErrorCommitsNothing := by
  intro s t hbusy hstep hidle herr
  obtain ⟨c, r, hc, hkept⟩ := engineStep_completes hstep hbusy hidle
  obtain rfl := hc.errcode
  obtain ⟨rfl, hregs⟩ := hkept herr
  refine ⟨hc, hregs, fun hinv snap hsnap => ?_⟩
  obtain ⟨-, hsnapRegs⟩ := hinv.snapshot snap hsnap
  rw [hregs, hsnapRegs]

/-- A host write accepts a command, resets, or stores registers and the bits of CTRL and IRQ_STATUS; it stores registers
at the busy-locked places only (20_memory.md R135). -/
theorem writeLoc_cases (s : State) (w : Word) (l : Loc) :
    (l = .cmd ∧ s.busy = false ∧ s.writeLoc w l = s.accept w) ∨
    (l = .ctrl ∧ w.getLsbD 1 = true ∧ s.writeLoc w l = s.softReset) ∨
    ∃ r ie doneP ovrP, s.writeLoc w l = { s with regs := r, ie := ie, doneP := doneP, ovrP := ovrP } ∧
      (l.locked = false → r = s.regs) := by
  cases l with
  | cmd =>
    cases hb : s.busy with
    | false => exact .inl ⟨rfl, rfl, if_neg (by simp [hb])⟩
    | true => exact .inr (.inr ⟨s.regs, s.ie, s.doneP, true, if_pos hb, fun _ => rfl⟩)
  | ctrl =>
    cases hw : w.getLsbD 1 with
    | true => exact .inr (.inl ⟨rfl, rfl, if_pos hw⟩)
    | false =>
      exact .inr (.inr ⟨s.regs, w.getLsbD 0, s.doneP, s.ovrP, if_neg (by rw [hw]; decide), fun _ => rfl⟩)
  | irqStatus => exact .inr (.inr ⟨_, _, _, _, rfl, fun _ => rfl⟩)
  | id | cfg | status | reserved => exact .inr (.inr ⟨_, _, _, _, rfl, fun _ => rfl⟩)
  | pssModbits | pssSlen | mrRounds | mgfLen | ospLen | blen _ | vWord _ _ | bWord _ _ =>
    exact .inr (.inr ⟨_, _, _, _, rfl, fun hl => nomatch hl⟩)

/-- A host access changes the engine's state only as an acceptance or a soft reset. -/
theorem Served.busy_cases {s t : State} {a : Access} (h : Served s a t) :
    t.busy = s.busy ∨ ∃ w, a.data = some w ∧ a.legal (a.addr - s.params.baseAddr) = true ∧
      ((locOf (a.addr - s.params.baseAddr) = .cmd ∧ s.busy = false ∧ t.cmd = w) ∨
       (locOf (a.addr - s.params.baseAddr) = .ctrl ∧ w.getLsbD 1 = true ∧ t.busy = false)) := by
  cases h with
  | slverr => exact .inl rfl
  | read _ _ => exact .inl rfl
  | write w hw hleg _ =>
    rcases writeLoc_cases s w (locOf (a.addr - s.params.baseAddr)) with
      ⟨hl, hidle, hu⟩ | ⟨hl, hsrst, hu⟩ | ⟨r, ie, doneP, ovrP, hu, -⟩ <;> rw [hu]
    · exact .inr ⟨w, hw, hleg, .inl ⟨hl, hidle, rfl⟩⟩
    · exact .inr ⟨w, hw, hleg, .inr ⟨hl, hsrst, rfl⟩⟩
    · exact .inl rfl

/-- An engine that stays IDLE or BUSY passes neither way. -/
theorem no_transition_of_eq {before after : Bool} {A B : Prop} (h : after = before) :
    (before = false → after = true → A) ∧ (before = true → after = false → B) := by
  subst h
  cases after <;> simp

/-- Settles O12: only the engine's move, two kinds of host write and the reset input change the engine's state. -/
theorem engineStateTransitions : Obligations.EngineStateTransitions := by
  refine ⟨fun _ => rfl, fun s t hst => ?_⟩
  cases step_cases hst with
  | engine r hr he =>
    have hagenda : s.agenda = [] ∨ ∃ rest, s.agenda = .engine :: rest :=
      hr.imp And.left fun ⟨rest, ha, _⟩ => ⟨rest, ha⟩
    have hbusy : r.busy = s.busy := by rcases hr with ⟨-, rfl⟩ | ⟨rest, -, rfl⟩ <;> rfl
    refine ⟨fun hs ht => ?_, fun hs ht => .inl ?_⟩
    · exact absurd (engineStep_idle he (hbusy.trans hs)) (by simp [ht])
    · obtain ⟨c, r', hc, -⟩ := engineStep_completes he (hbusy.trans hs) ht
      exact ⟨hc.done, hc.doneP, hagenda⟩
  | bus a rest ha hrange hv =>
    obtain ⟨hlo, -⟩ := hrange
    have hcases := hv.busy_cases
    simp only [State.withAgenda_params, State.busy_withAgenda] at hcases
    rcases hcases with he | ⟨w, hw, hleg, ⟨hl, hidle, hcmd⟩ | ⟨hl, hsrst, hreset⟩⟩
    · exact no_transition_of_eq he
    · have hoff := locOf_eq_cmd hl
      exact ⟨fun _ _ => ⟨a, w, rest, ha, hleg, by omega, hw, hcmd⟩, fun hs _ => absurd hidle (by simp [hs])⟩
    · have hoff := locOf_eq_ctrl hl
      exact ⟨fun _ ht => absurd hreset (by simp [ht]),
        fun _ _ => .inr (.inl ⟨a, w, rest, ha, hleg, by omega, hw, hsrst⟩)⟩
  | rng b rest _ => exact no_transition_of_eq rfl
  | hash serves rest _ => exact no_transition_of_eq rfl
  | hardReset rest ha => exact ⟨fun _ ht => (nomatch ht), fun _ _ => .inr (.inr ⟨rest, ha⟩)⟩

end Sys2Proof.Machine
end

section
/-! ## Commands as transactions -/

namespace Sys2Proof.Machine

/-! ### Two states that run one command -/

/-- Both states run the command accepted with `snap`, in one build; `s'` has everything of the ports that `s` has, and
`more` delivered bytes behind it. Their registers and control state may differ. -/
structure State.SameTask (snap : Snapshot) (s s' : State) (more : List Byte) : Prop where
  left : s.inflight = some snap
  right : s'.inflight = some snap
  params : s'.params = s.params
  rng : s'.rng = s.rng ++ more
  hashServes : s.hashServes = true → s'.hashServes = true

/-- The state of a command that ends: `rest` is left of the delivered bytes, `e` is committed, STATUS takes the error
code and the result. -/
def State.endWith (s : State) (rest : List Byte) (e : Effect) (c : ErrCode) (r : Bool) : State :=
  State.complete { s with rng := rest, regs := s.regs.commit s.params e } c r

/-- If the first outcome ends the command of `s`, the second ends that of `s'` in the same way. -/
inductive SameEnding (s s' : State) (more : List Byte) :
    Host.Outcome State Fault Refusal → Host.Outcome State Fault Refusal → Prop where
  /-- The command of `s` waits for a port. -/
  | waits (o : Host.Outcome State Fault Refusal) : SameEnding s s' more (.next s) o
  | faults (f : Fault) (o : Host.Outcome State Fault Refusal) : SameEnding s s' more (.fault f) o
  | ends (rest : List Byte) (e : Effect) (c : ErrCode) (r : Bool) :
      SameEnding s s' more (.next (s.endWith rest e c r)) (.next (s'.endWith (rest ++ more) e c r))

/-- What the two completions have in common. -/
theorem SameEnding.next {s s' t : State} {more : List Byte} {o o' : Host.Outcome State Fault Refusal}
    (h : SameEnding s s' more o o') (ho : o = .next t) (hs : s.busy = true) (ht : t.busy = false) :
    ∃ t' e, o' = .next t' ∧ t'.busy = false ∧ t'.done = true ∧ t'.errcode = t.errcode ∧ t'.result = t.result ∧
      t'.rng = t.rng ++ more ∧ t.regs = s.regs.commit s.params e ∧ t'.regs = s'.regs.commit s'.params e := by
  cases h with
  | waits _ =>
    obtain rfl := Host.Outcome.next.inj ho
    rw [hs] at ht
    exact nomatch ht
  | faults _ _ => exact nomatch ho
  | ends rest e c r =>
    obtain rfl := Host.Outcome.next.inj ho
    exact ⟨_, e, rfl, rfl, rfl, rfl, rfl, rfl, rfl, rfl⟩

section
variable {s s' : State} {more : List Byte}

/-- A check that both states pass or both fail. -/
theorem SameEnding.ite {p : Prop} [Decidable p] {o₁ o₂ o₁' o₂' : Host.Outcome State Fault Refusal}
    (h₁ : SameEnding s s' more o₁ o₁') (h₂ : SameEnding s s' more o₂ o₂') :
    SameEnding s s' more (if p then o₁ else o₂) (if p then o₁' else o₂') := by
  split
  · exact h₁
  · exact h₂

/-- If `s'` waits only where `s` waits, it is enough to compare them where neither does. -/
theorem SameEnding.wait_or {p p' : Prop} [Decidable p] [Decidable p'] {o o' : Host.Outcome State Fault Refusal}
    (hp : p' → p) (h : ¬p → SameEnding s s' more o o') :
    SameEnding s s' more (if p then s.waitForPort else o) (if p' then s'.waitForPort else o') := by
  by_cases hc : p
  · rw [if_pos hc]
    exact .waits _
  · rw [if_neg hc, if_neg (mt hp hc)]
    exact h hc

end

section
variable {snap : Snapshot} {s s' : State} {more : List Byte} (h : State.SameTask snap s s' more)
include h

/-! ### What the two commands read (40_command_execution.md R235) -/

theorem State.SameTask.inputs : s'.inputs = s.inputs := by
  rw [State.inputs_of_inflight h.left, State.inputs_of_inflight h.right]

theorem State.SameTask.opV (i : Field) : s'.opV i = s.opV i := by rw [State.opV, h.inputs, State.opV]

theorem State.SameTask.opLen (j : Field) : s'.opLen j = s.opLen j := by rw [State.opLen, h.inputs, State.opLen]

theorem State.SameTask.opBytes (j : Field) (n : Nat) : s'.opBytes j n = s.opBytes j n := by
  rw [State.opBytes, h.inputs, State.opBytes]

theorem State.SameTask.opBuf (j : Field) : s'.opBuf j = s.opBuf j := by
  rw [State.opBuf, h.opLen, h.opBytes, State.opBuf]

theorem State.SameTask.modBits : s'.modBits = s.modBits := by rw [State.modBits, h.inputs, State.modBits]

theorem State.SameTask.saltLen : s'.saltLen = s.saltLen := by rw [State.saltLen, h.inputs, State.saltLen]

theorem State.SameTask.rounds : s'.rounds = s.rounds := by rw [State.rounds, h.inputs, State.rounds]

theorem State.SameTask.maskLen : s'.maskLen = s.maskLen := by rw [State.maskLen, h.inputs, State.maskLen]

theorem State.SameTask.outLen : s'.outLen = s.outLen := by rw [State.outLen, h.inputs, State.outLen]

theorem State.SameTask.pssencError (a : Field) : s'.pssencError a = s.pssencError a := by
  simp only [State.pssencError, h.params, h.modBits, h.opLen, h.saltLen]

theorem State.SameTask.awaitsHash {needed : Bool} (hw : s'.awaitsHash needed = true) :
    s.awaitsHash needed = true := by
  simp only [State.awaitsHash, Bool.and_eq_true, Bool.not_eq_true', ← Bool.not_eq_true] at hw ⊢
  exact hw.imp_left (mt h.hashServes)

/-! ### How the two commands end -/

theorem State.SameTask.raise (c : ErrCode) : SameEnding s s' more (s.raise c) (s'.raise c) := by
  have he := SameEnding.ends (s := s) (s' := s') (more := more) s.rng .nothing c false
  rwa [← h.rng] at he

theorem State.SameTask.succeed (e : Effect) : SameEnding s s' more (s.succeed e) (s'.succeed e) := by
  have he := SameEnding.ends (s := s) (s' := s') (more := more) s.rng e .ok e.result
  rwa [← h.rng] at he

theorem execMontmul_sameEnding (d a b c : Field) :
    SameEnding s s' more (execMontmul d a b c s) (execMontmul d a b c s') := by
  simp only [execMontmul, h.opV]
  exact .ite (h.raise _) (.ite (h.raise _) (.ite (h.raise _) (.ite (h.raise _) (h.succeed _))))

theorem execMontr2_sameEnding (d c : Field) : SameEnding s s' more (execMontr2 d c s) (execMontr2 d c s') := by
  simp only [execMontr2, h.opV]
  exact .ite (h.raise _) (.ite (h.raise _) (.ite (h.raise _) (h.succeed _)))

theorem execModexp_sameEnding (d a b c : Field) :
    SameEnding s s' more (execModexp d a b c s) (execModexp d a b c s') := by
  simp only [execModexp, h.opV]
  exact .ite (h.raise _) (.ite (h.raise _) (h.succeed _))

theorem execI2osp_sameEnding (d a : Field) : SameEnding s s' more (execI2osp d a s) (execI2osp d a s') := by
  simp only [execI2osp, h.opV, h.outLen, h.params]
  exact .ite (h.raise _) (.ite (h.raise _) (.ite (h.raise _) (h.succeed _)))

theorem execOs2ip_sameEnding (d a : Field) : SameEnding s s' more (execOs2ip d a s) (execOs2ip d a s') := by
  simp only [execOs2ip, h.opLen, h.opBuf, h.params]
  exact .ite (h.raise _) (.ite (h.raise _) (h.succeed _))

theorem execMgf1_sameEnding (d a : Field) : SameEnding s s' more (execMgf1 d a s) (execMgf1 d a s') := by
  simp only [execMgf1, h.opLen, h.opBuf, h.maskLen, h.params]
  refine .ite (h.raise _) (.ite (h.raise _) (.ite (h.raise _) (.wait_or h.awaitsHash fun _ => ?_)))
  split
  · exact .faults _ _
  · exact h.succeed _

/-- The salt is taken from the front of the delivered bytes, so bytes behind it do not matter (46_pss.md R382). -/
theorem execPssenc_sameEnding (d a : Field) : SameEnding s s' more (execPssenc d a s) (execPssenc d a s') := by
  simp only [execPssenc, h.pssencError, h.opBytes, h.modBits, h.saltLen, h.params]
  refine .ite (h.raise _) ?_
  split
  · exact h.raise _
  refine .wait_or (Or.imp (fun hlt => ?_) h.awaitsHash) fun hready => ?_
  · rw [h.rng, List.length_append] at hlt
    omega
  · have hlen : s.saltLen ≤ s.rng.length := Nat.not_lt.mp fun hlt => hready (.inl hlt)
    rw [h.rng, List.take_append_of_le_length hlen, List.drop_append_of_le_length hlen]
    split
    · exact .faults _ _
    · exact .ends _ _ _ _

/-- A build that answers before its HASH calls answers what it would with them: both compute the same checks
(46_pss.md R383, R384). -/
theorem execPssver_sameEnding (a b : Field) : SameEnding s s' more (execPssver a b s) (execPssver a b s') := by
  simp only [execPssver, h.opLen, h.opBytes, h.modBits, h.saltLen, h.params]
  refine .ite (h.raise _) (.ite (h.raise _) (.ite (h.succeed _) (.wait_or h.awaitsHash fun _ => ?_)))
  split
  · exact .faults _ _
  · exact h.succeed _

end

/-! ### MRTEST on more bytes than it takes (44_primality.md R333) -/

/-- The same draw with bytes behind those it left. -/
def Draw.withMore (more : List Byte) : Draw → Draw
  | .witness a rest => .witness a (rest ++ more)
  | .exhausted rest => .exhausted (rest ++ more)
  | .awaiting => .awaiting

/-- The same verdict with bytes behind those it left. -/
def Verdict.withMore (more : List Byte) : Verdict → Verdict
  | .answer prime rest => .answer prime (rest ++ more)
  | .noWitness rest => .noWitness (rest ++ more)
  | .awaiting => .awaiting

theorem drawWitness_append {k n : Nat} {bytes : List Byte} (more : List Byte)
    (h : drawWitness k n bytes ≠ .awaiting) :
    drawWitness k n (bytes ++ more) = (drawWitness k n bytes).withMore more := by
  induction k generalizing bytes with
  | zero => rfl
  | succ k ih =>
    simp only [drawWitness] at h ⊢
    by_cases hlt : bytes.length < ceilQuot (bitlen n) 8
    · simp [hlt] at h
    have hle := Nat.not_lt.mp hlt
    have hlt' : ¬(bytes ++ more).length < ceilQuot (bitlen n) 8 := by rw [List.length_append]; omega
    rw [if_neg hlt] at h
    rw [if_neg hlt, if_neg hlt', List.take_append_of_le_length hle, List.drop_append_of_le_length hle]
    split
    · rfl
    next hw => exact ih (by rwa [if_neg hw] at h)

theorem mrRounds_append {retry n s d k : Nat} {bytes : List Byte} (more : List Byte)
    (h : mrRounds retry n s d k bytes ≠ .awaiting) :
    mrRounds retry n s d k (bytes ++ more) = (mrRounds retry n s d k bytes).withMore more := by
  induction k generalizing bytes with
  | zero => rfl
  | succ k ih =>
    rw [mrRounds] at h ⊢
    rw [mrRounds]
    have hd := drawWitness_append (k := retry) (n := n) (bytes := bytes) more
    cases hdraw : drawWitness retry n bytes with
    | awaiting => simp [hdraw] at h
    | exhausted rest =>
      rw [hd (by simp [hdraw]), hdraw]
      rfl
    | witness a rest =>
      rw [hd (by simp [hdraw]), hdraw]
      simp only [hdraw, Draw.withMore] at h ⊢
      split
      next hr => exact ih (by rwa [if_pos hr] at h)
      · rfl

theorem mrTest_append {retry n rounds : Nat} {bytes : List Byte} (more : List Byte)
    (h : mrTest retry n rounds bytes ≠ .awaiting) :
    mrTest retry n rounds (bytes ++ more) = (mrTest retry n rounds bytes).withMore more := by
  unfold mrTest at h ⊢
  by_cases h1 : n < 2
  · simp only [if_pos h1]
    rfl
  by_cases h2 : n = 2 ∨ n = 3
  · simp only [if_neg h1, if_pos h2]
    rfl
  by_cases h3 : n % 2 = 0
  · simp only [if_neg h1, if_neg h2, if_pos h3]
    rfl
  · simp only [if_neg h1, if_neg h2, if_neg h3] at h ⊢
    exact mrRounds_append more h

section
variable {snap : Snapshot} {s s' : State} {more : List Byte} (h : State.SameTask snap s s' more)
include h

theorem State.SameTask.mrVerdict {a : Field} (hv : s.mrVerdict a ≠ .awaiting) :
    s'.mrVerdict a = (s.mrVerdict a).withMore more := by
  rw [State.mrVerdict, h.params, h.opV, h.rounds, h.rng]
  exact mrTest_append more hv

theorem execMrtest_sameEnding (a : Field) : SameEnding s s' more (execMrtest a s) (execMrtest a s') := by
  have hverdict := h.mrVerdict (a := a)
  simp only [execMrtest, h.rounds]
  refine .ite (h.raise _) (.ite (h.raise _) ?_)
  cases hv : s.mrVerdict a with
  | awaiting => exact .waits _
  | answer prime rest =>
    rw [hverdict (by simp [hv]), hv]
    exact .ends rest (.answer prime) .ok prime
  | noWitness rest =>
    rw [hverdict (by simp [hv]), hv]
    exact .ends rest .nothing .rng false

theorem exec_sameEnding (i : Instr) : SameEnding s s' more (exec i s) (exec i s') := by
  cases i with
  | nop => exact h.succeed .nothing
  | zeroize => exact h.succeed .zeroize
  | montmul d a b c => exact execMontmul_sameEnding h d a b c
  | montr2 d c => exact execMontr2_sameEnding h d c
  | modexp d a b c => exact execModexp_sameEnding h d a b c
  | i2osp d a => exact execI2osp_sameEnding h d a
  | os2ip d a => exact execOs2ip_sameEnding h d a
  | mrtest a => exact execMrtest_sameEnding h a
  | mgf1 d a => exact execMgf1_sameEnding h d a
  | pssenc d a => exact execPssenc_sameEnding h d a
  | pssver a b => exact execPssver_sameEnding h a b

theorem engineStep_sameEnding : SameEnding s s' more (engineStep s) (engineStep s') := by
  simp only [engineStep, h.left, h.right]
  split
  · exact exec_sameEnding h _
  · exact h.raise _

end

/-! ### What one commit changes, another commit of the same output sets -/

theorem RegFile.getV_commit_of_ne (p : Params) (r r' : RegFile) (e : Effect) {j : Field}
    (h : (r.commit p e).getV j ≠ r.getV j) : (r'.commit p e).getV j = (r.commit p e).getV j := by
  cases e with
  | nothing | answer _ | setB _ _ => exact absurd rfl h
  | zeroize => rfl
  | setV d x =>
    by_cases hj : d = j
    · subst hj
      by_cases hd : d.toNat < 8
      · exact (RegFile.getV_setV_same r' hd x).trans (RegFile.getV_setV_same r hd x).symm
      · exact absurd (by simp [RegFile.commit, RegFile.getV, hd]) h
    · exact absurd (RegFile.getV_setV_other r hj x) h

theorem RegFile.getLen_commit_of_ne (p : Params) (r r' : RegFile) (e : Effect) {j : Field}
    (h : (r.commit p e).getLen j ≠ r.getLen j) : (r'.commit p e).getLen j = (r.commit p e).getLen j := by
  cases e with
  | nothing | answer _ | setV _ _ => exact absurd rfl h
  | zeroize => rfl
  | setB d b =>
    by_cases hj : d = j
    · subst hj
      by_cases hd : d.toNat < 4
      · exact (RegFile.getLen_setBuf_same r' hd b).trans (RegFile.getLen_setBuf_same r hd b).symm
      · exact absurd (by simp [RegFile.commit, RegFile.getLen, hd]) h
    · exact absurd (RegFile.getLen_setBuf_other r hj b) h

theorem Memory.read_writeBytes_of_ne {m m' : Memory} (hm : m.wf) (hm' : m'.wf) {a k : Nat} {b : List Byte}
    (h : (m.writeBytes a b).read k ≠ m.read k) : (m'.writeBytes a b).read k = (m.writeBytes a b).read k := by
  by_cases hk : k < a ∨ a + b.length ≤ k
  · exact absurd (Memory.read_writeBytes_outside m b hk) h
  · obtain ⟨i, rfl⟩ := Nat.exists_eq_add_of_le (by omega : a ≤ k)
    rw [Memory.read_writeBytes_inside hm a (by omega), Memory.read_writeBytes_inside hm' a (by omega)]

theorem Memory.read_clearBuffers_of_ne {m m' : Memory} {n k : Nat} (h : (m.clearBuffers n).read k ≠ m.read k) :
    (m'.clearBuffers n).read k = (m.clearBuffers n).read k := by
  by_cases hk : ∀ j, j < 4 → k < bufOffset j ∨ bufOffset j + n ≤ k
  · exact absurd (Memory.read_clearBuffers_outside m hk) h
  · push Not at hk
    obtain ⟨j, hj, hlo, hhi⟩ := hk
    obtain ⟨i, rfl⟩ := Nat.exists_eq_add_of_le hlo
    rw [Memory.read_clearBuffers_inside m hj (by omega), Memory.read_clearBuffers_inside m' hj (by omega)]

theorem RegFile.read_commit_of_ne (p : Params) {r r' : RegFile} (hr : r.mem.wf) (hr' : r'.mem.wf) (e : Effect)
    {k : Nat} (h : (r.commit p e).mem.read k ≠ r.mem.read k) :
    (r'.commit p e).mem.read k = (r.commit p e).mem.read k := by
  cases e with
  | nothing | answer _ | setV _ _ => exact absurd rfl h
  | zeroize => exact Memory.read_clearBuffers_of_ne h
  | setB d b => exact Memory.read_writeBytes_of_ne hr hr' h

/-- Settles O31: the two runs end alike and commit the same output. -/
theorem commandReadsOnlyItsSnapshot : Obligations.CommandReadsOnlyItsSnapshot := by
  intro i s s' t snap hs hs' hparams hrng hhash hexec ht
  have htask : State.SameTask snap s s' [] :=
    ⟨hs, hs', hparams, by rw [hrng, List.append_nil], fun h => hhash.trans h⟩
  have hbusy : s.busy = true := by rw [State.busy, hs]; rfl
  obtain ⟨t', e, hexec', hidle, -, hcode, hresult, hleft, hregs, hregs'⟩ :=
    (exec_sameEnding htask i).next hexec hbusy ht
  rw [List.append_nil] at hleft
  rw [hparams] at hregs'
  refine ⟨t', hexec', hidle, hcode, hresult, hleft, ?_⟩
  rw [hregs, hregs']
  exact ⟨fun _ => RegFile.getV_commit_of_ne _ _ _ e, fun _ => RegFile.getLen_commit_of_ne _ _ _ e,
    fun hm hm' _ => RegFile.read_commit_of_ne _ hm hm' e⟩

/-! ### Events between acceptance and completion -/

/-- `s'` runs the command of `s`, and no register has changed. -/
structure State.Undisturbed (snap : Snapshot) (s s' : State) (more : List Byte) : Prop
    extends State.SameTask snap s s' more where
  regs : s'.regs = s.regs

theorem State.Undisturbed.refl {snap : Snapshot} {s : State} (h : s.inflight = some snap) :
    State.Undisturbed snap s s [] :=
  ⟨⟨h, h, rfl, (List.append_nil _).symm, id⟩, rfl⟩

theorem State.Undisturbed.trans {snap : Snapshot} {s u v : State} {more more' : List Byte}
    (h : State.Undisturbed snap s u more) (h' : State.Undisturbed snap u v more') :
    State.Undisturbed snap s v (more ++ more') where
  left := h.left
  right := h'.right
  params := h'.params.trans h.params
  rng := by rw [h'.rng, h.rng, List.append_assoc]
  hashServes := h'.hashServes ∘ h.hashServes
  regs := h'.regs.trans h.regs

/-- An access of the block is answered. -/
theorem exists_busAccess {s : State} {a : Access} (hlo : s.params.baseAddr ≤ a.addr)
    (hhi : a.addr < s.params.baseAddr + 0x10000) : ∃ t, busAccess s a = .next t := by
  simp only [busAccess]
  rw [if_neg (by omega)]
  split
  · exact ⟨_, rfl⟩
  split <;> exact ⟨_, rfl⟩

/-- A running command is undisturbed by an access that does not reset: a CMD write is an overrun, and writes of registers
are locked (20_memory.md R135, 40_command_execution.md R232). -/
theorem Served.undisturbed {snap : Snapshot} {s t : State} {a : Access} (h : Served s a t)
    (hs : s.inflight = some snap) (hlo : s.params.baseAddr ≤ a.addr)
    (hreset : ∀ w, a.data = some w → a.addr = s.params.baseAddr + 0x008 → w.getLsbD 1 = false) :
    t.agenda = s.agenda ∧ State.Undisturbed snap s t [] := by
  have hbusy : s.busy = true := by rw [State.busy, hs]; rfl
  have kept {u : State} (hi : u.inflight = s.inflight) (hp : u.params = s.params) (hr : u.rng = s.rng)
      (hh : u.hashServes = s.hashServes) (hg : u.regs = s.regs) : State.Undisturbed snap s u [] :=
    ⟨⟨hs, hi.trans hs, hp, by rw [hr, List.append_nil], hh.trans⟩, hg⟩
  cases h with
  | slverr => exact ⟨rfl, kept rfl rfl rfl rfl rfl⟩
  | read _ _ => exact ⟨rfl, kept rfl rfl rfl rfl rfl⟩
  | write w hw _ hlock =>
    rcases writeLoc_cases s w (locOf (a.addr - s.params.baseAddr)) with
      ⟨-, hidle, -⟩ | ⟨hl, hsrst, -⟩ | ⟨r, ie, doneP, ovrP, hu, hr⟩
    · exact absurd hbusy (by simp [hidle])
    · have hoff := locOf_eq_ctrl hl
      exact absurd (hreset w hw (by omega)) (by simp [hsrst])
    · obtain rfl := hr (hlock hbusy)
      rw [hu]
      exact ⟨rfl, kept rfl rfl rfl rfl rfl⟩

theorem runEvent_harmless {snap : Snapshot} {s : State} {e : Event} (hs : s.inflight = some snap)
    (he : e.harmless s.params) :
    ∃ v more, runEvent s e = .next v ∧ v.agenda = s.agenda ∧ State.Undisturbed snap s v more := by
  cases e with
  | rng b => exact ⟨_, [b], rfl, rfl, ⟨hs, hs, rfl, rfl, id⟩, rfl⟩
  | hash serves => exact ⟨_, [], rfl, rfl, ⟨hs, hs, rfl, (List.append_nil _).symm, fun _ => he⟩, rfl⟩
  | bus a =>
    obtain ⟨hlo, hhi, hreset⟩ := he
    obtain ⟨v, hv⟩ := exists_busAccess hlo hhi
    obtain ⟨-, hserved⟩ := busAccess_cases hv
    exact ⟨v, [], hv, hserved.undisturbed hs hlo hreset⟩
  | engine => exact he.elim
  | hardReset => exact he.elim

/-- Any number of such events leaves the running command undisturbed. -/
theorem run_harmless {snap : Snapshot} {s : State} {events rest : List Event} (hs : s.inflight = some snap)
    (ha : s.agenda = events ++ rest) (he : ∀ e ∈ events, e.harmless s.params) :
    ∃ (v : State) (more : List Byte), Sys2Proof.core.run events.length s = .next v ∧ v.agenda = rest ∧
      State.Undisturbed snap s v more := by
  induction events generalizing s with
  | nil => exact ⟨s, [], rfl, ha, .refl hs⟩
  | cons e events ih =>
    obtain ⟨u, more, hu, hagenda, hsu⟩ :=
      runEvent_harmless (s := s.withAgenda (events ++ rest)) hs (he e List.mem_cons_self)
    have hsu' : State.Undisturbed snap s u more :=
      ⟨⟨hs, hsu.right, hsu.params, hsu.rng, hsu.hashServes⟩, hsu.regs⟩
    have hstep : step s = .next u := (step_of_agenda ha).trans hu
    obtain ⟨v, more', hv, hrest, huv⟩ :=
      ih hsu.right hagenda fun e' hmem => hsu'.params ▸ he e' (List.mem_cons_of_mem e hmem)
    exact ⟨v, more ++ more', (run_of_step hstep _).trans hv, hrest, hsu'.trans huv⟩

/-- Settles O30: the events leave the command undisturbed, and undisturbed commands end alike. -/
theorem commandIsAtomicTransaction : Obligations.CommandIsAtomicTransaction := by
  intro s t events hbusy hstep hidle hharmless
  obtain ⟨snap, hs⟩ := Option.isSome_iff_exists.mp hbusy
  obtain ⟨v, more, hrun, hagenda, hsv⟩ :=
    run_harmless (s := s.withAgenda (events ++ [.engine])) (rest := [.engine]) hs rfl hharmless
  have htask : State.SameTask snap s (v.withAgenda []) more :=
    ⟨hs, hsv.right, hsv.params, hsv.rng, hsv.hashServes⟩
  obtain ⟨u, e, hu, huIdle, huDone, hcode, hresult, -, htRegs, huRegs⟩ :=
    (engineStep_sameEnding htask).next hstep hbusy hidle
  refine ⟨u, ?_, ?_, hcode, hresult, huIdle, huDone⟩
  · exact (run_add hrun 1).trans ((run_one v).trans ((step_of_agenda hagenda).trans hu))
  · rw [huRegs, htRegs, htask.params]
    exact congrArg (RegFile.commit s.params · e) hsv.regs

end Sys2Proof.Machine
end

section
/-! ## MRTEST ends once its bytes are delivered -/

namespace Sys2Proof.Machine

/-- A draw whose attempts all have their bytes awaits none (44_primality.md R333). -/
theorem drawWitness_ne_awaiting {k n : Nat} {bytes : List Byte} (h : k * ceilQuot (bitlen n) 8 ≤ bytes.length) :
    drawWitness k n bytes ≠ .awaiting := by
  induction k generalizing bytes with
  | zero => exact nofun
  | succ k ih =>
    rw [Nat.succ_mul] at h
    rw [drawWitness, if_neg (by omega)]
    split
    · exact nofun
    · exact ih (by rw [List.length_drop]; omega)

/-- Rounds whose draws all have their bytes await none: each draw leaves the bytes of the rounds to come. -/
theorem mrRounds_ne_awaiting {retry n s d k : Nat} {bytes : List Byte}
    (h : k * retry * ceilQuot (bitlen n) 8 ≤ bytes.length) : mrRounds retry n s d k bytes ≠ .awaiting := by
  induction k generalizing bytes with
  | zero => exact nofun
  | succ k ih =>
    rw [Nat.succ_mul, Nat.add_mul] at h
    rw [mrRounds]
    have htaken := drawWitness_taken retry n bytes
    cases hdraw : drawWitness retry n bytes with
    | awaiting => exact absurd hdraw (drawWitness_ne_awaiting (by omega))
    | exhausted rest => exact nofun
    | witness a rest =>
      simp only [hdraw] at htaken ⊢
      split
      · exact ih (by omega)
      · exact nofun

theorem mrTest_ne_awaiting {retry n rounds : Nat} {bytes : List Byte}
    (h : rounds * retry * ceilQuot (bitlen n) 8 ≤ bytes.length) : mrTest retry n rounds bytes ≠ .awaiting := by
  unfold mrTest
  repeat' split
  case isFalse.isFalse.isFalse => exact mrRounds_ne_awaiting h
  all_goals exact nofun

/-- MRTEST past its first checks ends with its verdict. -/
theorem execMrtest_of_verdict {a : Field} {s : State} (hw : (Instr.mrtest a).wf = true) (hr : s.rounds ≠ 0)
    (hv : s.mrVerdict a ≠ .awaiting) :
    ∃ t, execMrtest a s = .next t ∧ t.regs = s.regs ∧
      (s.Completed t .ok true ∨ s.Completed t .ok false ∨ s.Completed t .rng false) := by
  rw [execMrtest, if_neg (by simp [hw]), if_neg hr]
  cases h : s.mrVerdict a with
  | awaiting => exact absurd h hv
  | noWitness rest => exact ⟨_, rfl, rfl, .inr (.inr (s.completed_withRng rest .rng false))⟩
  | answer prime rest =>
    have hc := s.completed_committed rest (.answer prime)
    cases prime with
    | true => exact ⟨_, rfl, rfl, .inl hc⟩
    | false => exact ⟨_, rfl, rfl, .inr (.inl hc)⟩

/-- Settles O49: with the bytes of every attempt delivered the verdict awaits none, and it leaves all but the bytes of
the attempts made. -/
theorem mrtestCompletesOnceBytesDelivered : Obligations.MrtestCompletesOnceBytesDelivered := by
  intro a s hw hr hbytes
  obtain ⟨t, hexec, hregs, hdone⟩ := execMrtest_of_verdict hw hr (mrTest_ne_awaiting hbytes)
  have hleft : t.rng <:+ s.rng := (execMrtest_cases hexec).rng_suffix
  have htaken := execMrtest_taken hexec
  obtain ⟨hmost, -⟩ := s.mrVerdict_taken a
  exact ⟨t, s.rng.length - t.rng.length, hexec, hregs, hdone, List.suffix_iff_eq_drop.mp hleft, htaken.trans hmost⟩

end Sys2Proof.Machine
end

section
/-! # The Montgomery family: the radix, MONTMUL and MONTR2, and the operand errors -/

namespace Sys2Proof.Machine

/-! ### The Montgomery radix (41_montgomery.md R270) -/

theorem montLimbs_eq (n : Nat) : montLimbs n = (bitlen n + 31) / 32 := rfl

theorem bitlen_pos {n : Nat} (h : 1 ≤ n) : 1 ≤ bitlen n := by
  refine Nat.one_le_iff_ne_zero.mpr fun h0 => ?_
  have hn := lt_two_pow_bitlen n
  rw [h0, pow_zero] at hn
  omega

/-- R(n) is a power of 2, so it has no factor in common with an odd n. -/
theorem montRadix_coprime {n : Nat} (h : n % 2 = 1) : Nat.Coprime (montRadix n) n :=
  (Nat.coprime_two_left.mpr (Nat.odd_iff.mpr h)).pow_left _

/-- Settles O35: n ≥ 1 has a significant bit, n < 2^(32·l) has at most 32·l, and R(n) is a power of 2. -/
theorem montgomeryRadix : Obligations.MontgomeryRadix := by
  refine ⟨fun n l hpos hlt => ⟨rfl, montLimbs_eq n, ?_, ?_, lt_montRadix n, montRadix_coprime⟩, ?_⟩
  · have := bitlen_pos hpos
    rw [montLimbs_eq]
    omega
  · exact ceilQuot_le (by decide) (by rw [Nat.mul_comm]; exact bitlen_le_of_lt hlt)
  · decide

/-! ### The Montgomery product (R271, R273) -/

/-- R(n) can be cancelled modulo odd n, so what R(n) carries to a·b is the Montgomery product of a and b. -/
theorem montProduct_eq_mod {n a b z : Nat} (h : n % 2 = 1) (hz : z * montRadix n ≡ a * b [MOD n]) :
    montProduct a b n = z % n := by
  have hmul : montProduct a b n * montRadix n ≡ z * montRadix n [MOD n] := (montProduct_mul_radix a b h).trans hz.symm
  have hmod : montProduct a b n ≡ z [MOD n] := hmul.cancel_right_of_coprime (montRadix_coprime h).symm
  rw [← hmod, Nat.mod_eq_of_lt (montProduct_lt a b (by omega))]

/-- Into the Montgomery domain. -/
theorem montProduct_radix_sq {n : Nat} (x : Nat) (h : n % 2 = 1) :
    montProduct x (montRadix n ^ 2 % n) n = x * montRadix n % n := by
  refine montProduct_eq_mod h ?_
  calc x * montRadix n * montRadix n = x * montRadix n ^ 2 := by ring
    _ ≡ x * (montRadix n ^ 2 % n) [MOD n] := (Nat.mod_modEq _ n).symm.mul_left x

/-- The product of two values of the Montgomery domain. -/
theorem montProduct_of_mul_radix {n : Nat} (x y : Nat) (h : n % 2 = 1) :
    montProduct (x * montRadix n % n) (y * montRadix n % n) n = x * y * montRadix n % n := by
  refine montProduct_eq_mod h ?_
  calc x * y * montRadix n * montRadix n = x * montRadix n * (y * montRadix n) := by ring
    _ ≡ x * montRadix n % n * (y * montRadix n % n) [MOD n] := ((Nat.mod_modEq _ n).mul (Nat.mod_modEq _ n)).symm

/-- Out of the Montgomery domain. -/
theorem montProduct_mul_radix_one {n : Nat} (z : Nat) (h : n % 2 = 1) :
    montProduct (z * montRadix n % n) 1 n = z % n := by
  refine montProduct_eq_mod h ?_
  rw [Nat.mul_one]
  exact (Nat.mod_modEq _ n).symm

/-- Settles O39: each identity holds once R(n) is cancelled on both sides. -/
theorem montgomeryIdentities : Obligations.MontgomeryIdentities := by
  intro n x y hodd hx _
  refine ⟨montProduct_radix_sq x hodd, montProduct_of_mul_radix x y hodd, fun _ => ⟨?_, ?_⟩⟩
  · rw [montProduct_mul_radix_one x hodd, Nat.mod_eq_of_lt hx]
  · exact montProduct_mul_radix_one (x * y) hodd

/-! ### How a command ends -/

theorem exec_completes_of_raise {i : Instr} {s : State} {e : ErrCode} (h : exec i s = s.raise e) :
    ∃ t, exec i s = .next t ∧ s.Completed t e false ∧ t.regs = s.regs :=
  ⟨_, h, s.completed_complete e false, rfl⟩

theorem exec_completes_of_setV {i : Instr} {s : State} {d : Field} {x : Nat} (hw : i.wf = true)
    (hf : (Effect.setV d x).fits i) (h : exec i s = s.succeed (.setV d x)) :
    ∃ t, exec i s = .next t ∧ s.Completed t .ok false ∧ t.rng = s.rng ∧ t.regs.getV d = x :=
  ⟨_, h, s.completed_committed s.rng (.setV d x), rfl, RegFile.getV_setV_same _ (Effect.fits_isV hf hw) x⟩

/-! ### MONTMUL, by the first check that fails (R271) -/

section
variable {d a b c : Field} {s : State} (hw : (Instr.montmul d a b c).wf = true)
include hw

theorem exec_montmul_zero (h : s.opV c = 0) : exec (.montmul d a b c) s = s.raise .modZero := by
  rw [exec, execMontmul, if_neg (by simp [hw]), if_pos h]

theorem exec_montmul_even (h0 : s.opV c ≠ 0) (h : s.opV c % 2 = 0) :
    exec (.montmul d a b c) s = s.raise .modEven := by
  rw [exec, execMontmul, if_neg (by simp [hw]), if_neg h0, if_pos h]

theorem exec_montmul_range (hodd : s.opV c % 2 = 1) (h : s.opV c ≤ s.opV a ∨ s.opV c ≤ s.opV b) :
    exec (.montmul d a b c) s = s.raise .range := by
  rw [exec, execMontmul, if_neg (by simp [hw]), if_neg (by omega), if_neg (by omega), if_pos h]

theorem exec_montmul_ok (hodd : s.opV c % 2 = 1) (ha : s.opV a < s.opV c) (hb : s.opV b < s.opV c) :
    exec (.montmul d a b c) s = s.succeed (.setV d (montProduct (s.opV a) (s.opV b) (s.opV c))) := by
  rw [exec, execMontmul, if_neg (by simp [hw]), if_neg (by omega), if_neg (by omega), if_neg (by omega)]

end

/-- Settles O36: MONTMUL commits the Montgomery product, which times R(n) is a·b. -/
theorem montmulResult : Obligations.MontmulResult := by
  intro d a b c s hw hodd ha hb
  obtain ⟨t, hexec, hdone, hrng, hd⟩ := exec_completes_of_setV hw rfl (exec_montmul_ok hw hodd ha hb)
  exact ⟨t, _, hexec, hdone, hrng, hd, montProduct_lt _ _ (by omega), montProduct_mul_radix _ _ hodd⟩

/-! ### MONTR2, by the first check that fails (R272) -/

section
variable {d c : Field} {s : State} (hw : (Instr.montr2 d c).wf = true)
include hw

theorem exec_montr2_zero (h : s.opV c = 0) : exec (.montr2 d c) s = s.raise .modZero := by
  rw [exec, execMontr2, if_neg (by simp [hw]), if_pos h]

theorem exec_montr2_even (h0 : s.opV c ≠ 0) (h : s.opV c % 2 = 0) : exec (.montr2 d c) s = s.raise .modEven := by
  rw [exec, execMontr2, if_neg (by simp [hw]), if_neg h0, if_pos h]

theorem exec_montr2_ok (hodd : s.opV c % 2 = 1) :
    exec (.montr2 d c) s = s.succeed (.setV d (montRadix (s.opV c) ^ 2 % s.opV c)) := by
  rw [exec, execMontr2, if_neg (by simp [hw]), if_neg (by omega), if_neg (by omega)]

end

theorem montRadix_sq (n : Nat) : montRadix n ^ 2 = 2 ^ (64 * ((bitlen n + 31) / 32)) := by
  rw [montRadix, montLimbs_eq, ← pow_mul]
  congr 1
  omega

/-- Settles O37: MONTR2 commits R(n)² mod n, and R(n)² is the power of 2 of twice the bits. -/
theorem montr2Result : Obligations.Montr2Result := by
  intro d c s hw hodd
  rw [← montRadix_sq]
  exact exec_completes_of_setV hw rfl (exec_montr2_ok hw hodd)

/-! ### The errors of MODEXP, the conversions and MGF1, by the first check that fails -/

section
variable {d a b c : Field} {s : State}

theorem exec_modexp_zero (hw : (Instr.modexp d a b c).wf = true) (h : s.opV c = 0) :
    exec (.modexp d a b c) s = s.raise .modZero := by
  rw [exec, execModexp, if_neg (by simp [hw]), if_pos h]

theorem exec_i2osp_len (hw : (Instr.i2osp d a).wf = true) (h : s.params.bufBytes < s.outLen) :
    exec (.i2osp d a) s = s.raise .len := by
  rw [exec, execI2osp, if_neg (by simp [hw]), if_pos h]

theorem exec_i2osp_range (hw : (Instr.i2osp d a).wf = true) (hlen : s.outLen ≤ s.params.bufBytes)
    (h : 256 ^ s.outLen ≤ s.opV a) : exec (.i2osp d a) s = s.raise .range := by
  rw [exec, execI2osp, if_neg (by simp [hw]), if_neg hlen.not_gt, if_pos h]

theorem exec_os2ip_len (hw : (Instr.os2ip d a).wf = true) (h : s.params.bufBytes < s.opLen a) :
    exec (.os2ip d a) s = s.raise .len := by
  rw [exec, execOs2ip, if_neg (by simp [hw]), if_pos h]

/-- The two checks of MGF1 raise the same error, the seed's length before the mask's (45_mgf1.md R361). -/
theorem exec_mgf1_len (hw : (Instr.mgf1 d a).wf = true)
    (h : s.params.bufBytes < s.opLen a ∨ s.params.bufBytes < s.maskLen) : exec (.mgf1 d a) s = s.raise .len := by
  rw [exec, execMgf1, if_neg (by simp [hw])]
  by_cases hseed : s.params.bufBytes < s.opLen a
  · rw [if_pos hseed]
  · rw [if_neg hseed, if_pos (h.resolve_left hseed)]

end

/-- Settles O43: each command's first failing check raises its error, which commits nothing. -/
theorem operandErrors : Obligations.OperandErrors :=
  ⟨fun _ _ _ _ _ hw =>
    ⟨fun h => exec_completes_of_raise (exec_montmul_zero hw h),
      fun h0 h => exec_completes_of_raise (exec_montmul_even hw h0 h),
      fun hodd h => exec_completes_of_raise (exec_montmul_range hw hodd h)⟩,
    fun _ _ _ hw =>
    ⟨fun h => exec_completes_of_raise (exec_montr2_zero hw h),
      fun h0 h => exec_completes_of_raise (exec_montr2_even hw h0 h)⟩,
    fun _ _ _ _ _ hw h => exec_completes_of_raise (exec_modexp_zero hw h),
    fun _ _ _ hw =>
    ⟨fun h => exec_completes_of_raise (exec_i2osp_len hw h),
      fun hlen h => exec_completes_of_raise (exec_i2osp_range hw hlen h)⟩,
    fun _ _ _ hw h => exec_completes_of_raise (exec_os2ip_len hw h),
    fun _ _ _ hw h => exec_completes_of_raise (exec_mgf1_len hw h)⟩

end Sys2Proof.Machine
end

section
/-! # The result of MODEXP (42_modexp.md R290) -/

namespace Sys2Proof.Machine

/-- The power that MODEXP commits, by its value: the method is not architectural (42_modexp.md R291). -/
theorem exec_modexp_ok {d a b c : Field} {s : State} (hw : (Instr.modexp d a b c).wf = true) (h : 1 ≤ s.opV c) :
    exec (.modexp d a b c) s = s.succeed (.setV d (s.opV a ^ s.opV b % s.opV c)) := by
  rw [exec, execModexp, if_neg (by simp [hw]), if_neg (by omega), modPow_eq]

/-- Settles O38: square-and-multiply computes the reduced power, and MODEXP commits it. -/
theorem modexpResult : Obligations.ModexpResult :=
  fun _ _ _ _ _ hw hm => exec_completes_of_setV hw rfl (exec_modexp_ok hw hm)

end Sys2Proof.Machine
end

section
/-! # The conversion family: byte strings and integers, I2OSP and OS2IP (43_conversion.md) -/

namespace Sys2Proof.Machine

/-! ### The two conversions invert each other (R312) -/

theorem i2osp_succ (x len : Nat) : i2osp x (len + 1) = BitVec.ofNat 8 (x / 256 ^ len % 256) :: i2osp x len := by
  have hexp : ∀ i, len - 1 - i = len - (i + 1) := by omega
  simp [i2osp, List.range_succ_eq_map, Function.comp_def, hexp]

theorem os2ip_i2osp (x len : Nat) : os2ip (i2osp x len) = x % 256 ^ len := by
  induction len with
  | zero => exact (Nat.mod_one x).symm
  | succ len ih =>
    rw [i2osp_succ, os2ip_cons, i2osp_length, ih, BitVec.toNat_ofNat, Nat.mod_mod, Nat.mod_pow_succ]
    ring

/-- The bytes of an integer's low end do not depend on what stands above it. -/
theorem i2osp_os2ip_add (q : Nat) (s : List Byte) : i2osp (q * 256 ^ s.length + os2ip s) s.length = s := by
  induction s generalizing q with
  | nil => rfl
  | cons b s ih =>
    have hsplit : q * 256 ^ (s.length + 1) + (b.toNat * 256 ^ s.length + os2ip s)
        = (q * 256 + b.toNat) * 256 ^ s.length + os2ip s := by ring
    have hdiv : ((q * 256 + b.toNat) * 256 ^ s.length + os2ip s) / 256 ^ s.length = q * 256 + b.toNat := by
      rw [Nat.mul_comm, Nat.mul_add_div (by positivity), Nat.div_eq_of_lt (os2ip_lt s), Nat.add_zero]
    rw [os2ip_cons, List.length_cons, hsplit, i2osp_succ, hdiv, ih, Nat.mul_add_mod_of_lt b.isLt]
    simp

/-- Settles O42: the string keeps x mod 256^len, which is x, and the integer of s has the bytes of s as its low end. -/
theorem conversionRoundTrip : Obligations.ConversionRoundTrip := by
  refine ⟨fun x len h => ?_, fun s => ?_⟩
  · rw [os2ip_i2osp, Nat.mod_eq_of_lt h]
  · simpa using i2osp_os2ip_add 0 s

/-! ### I2OSP (R310) -/

theorem RegFile.getByte_setBuf_inside {r : RegFile} (hr : r.mem.wf) (j : Field) {b : List Byte} {k : Nat}
    (h : k < b.length) : (r.setBuf j b).getByte j k = b[k] :=
  Memory.read_writeBytes_inside hr _ h

theorem RegFile.getByte_setBuf_tail (r : RegFile) (j : Field) {b : List Byte} {k : Nat} (h : b.length ≤ k) :
    (r.setBuf j b).getByte j k = r.getByte j k :=
  Memory.read_writeBytes_outside _ _ (.inr (Nat.add_le_add_left h _))

/-- A command that ends with a byte string stores it, and its length, which BLEN's 16 bits hold in a legal build. -/
theorem exec_completes_of_setB {i : Instr} {s : State} {d : Field} {b rest : List Byte} (hw : i.wf = true)
    (hf : (Effect.setB d b).fits i) (hl : s.params.legal) (hb : b.length ≤ s.params.bufBytes)
    (h : exec i s = (s.withRng rest).succeed (.setB d b)) :
    ∃ t, exec i s = .next t ∧ s.Completed t .ok false ∧ t.rng = rest ∧ t.regs = s.regs.setBuf d b ∧
      t.regs.getLen d = b.length := by
  refine ⟨_, h, s.completed_committed rest (.setB d b), rfl, rfl, ?_⟩
  have hmax : s.params.maxbits ≤ 8192 := hl.2.2.1
  rw [Params.bufBytes] at hb
  exact (RegFile.getLen_setBuf_same _ (Effect.fits_isB hf hw) b).trans (Nat.mod_eq_of_lt (by omega))

theorem exec_i2osp_ok {d a : Field} {s : State} (hw : (Instr.i2osp d a).wf = true)
    (hlen : s.outLen ≤ s.params.bufBytes) (h : s.opV a < 256 ^ s.outLen) :
    exec (.i2osp d a) s = s.succeed (.setB d (i2osp (s.opV a) s.outLen)) := by
  rw [exec, execI2osp, if_neg (by simp [hw]), if_neg hlen.not_gt, if_neg h.not_ge]

/-- Settles O40: I2OSP commits the string of V[A], whose bytes are the digits and whose length is len. -/
theorem i2ospResult : Obligations.I2ospResult := by
  intro d a s hw hl hwf hlen hlt
  have hlength : (i2osp (s.opV a) s.outLen).length = s.outLen := i2osp_length _ _
  obtain ⟨t, hexec, hdone, hrng, hregs, hblen⟩ :=
    exec_completes_of_setB (rest := s.rng) hw rfl hl (hlength.trans_le hlen) (exec_i2osp_ok hw hlen hlt)
  refine ⟨t, hexec, hdone, hrng, fun i hi => ?_, fun k hk => ?_, hblen.trans hlength⟩
  · rw [hregs, RegFile.getByte_setBuf_inside hwf d (hi.trans_eq hlength.symm), i2osp_getElem, BitVec.toNat_ofNat]
    exact Nat.mod_mod _ _
  · rw [hregs, RegFile.getByte_setBuf_tail _ d (hlength.trans_le hk)]

/-! ### OS2IP (R311) -/

theorem os2ip_map_range (f : Nat → Byte) (n : Nat) :
    os2ip ((List.range n).map f) = ((List.range n).map fun i => (f i).toNat * 256 ^ (n - 1 - i)).sum := by
  induction n generalizing f with
  | zero => rfl
  | succ n ih =>
    have hexp : ∀ i, n - 1 - i = n - (i + 1) := by omega
    simp [List.range_succ_eq_map, os2ip_cons, ih, Function.comp_def, hexp]

theorem exec_os2ip_ok {d a : Field} {s : State} (hw : (Instr.os2ip d a).wf = true)
    (h : s.opLen a ≤ s.params.bufBytes) : exec (.os2ip d a) s = s.succeed (.setV d (os2ip (s.opBuf a))) := by
  rw [exec, execOs2ip, if_neg (by simp [hw]), if_neg h.not_gt]

/-- Settles O41: OS2IP commits the integer of buf(A), which is the sum of its weighted bytes. -/
theorem os2ipResult : Obligations.Os2ipResult := by
  intro d a s hw hlen
  obtain ⟨t, hexec, hdone, hrng, hd⟩ := exec_completes_of_setV hw rfl (exec_os2ip_ok hw hlen)
  refine ⟨t, hexec, hdone, hrng, hd.trans (os2ip_map_range _ _), hd.trans_lt ?_⟩
  simpa using os2ip_lt (s.opBuf a)

end Sys2Proof.Machine
end

section
/-! # The primality family: decomposition, rounds, witness draws and MRTEST (44_primality.md) -/

namespace Sys2Proof.Machine

/-! ### The decomposition (R332) -/

theorem splitTwos_two_pow_mul {k s d : Nat} (hd : d % 2 = 1) (hs : s ≤ k) : splitTwos k (2 ^ s * d) = (s, d) := by
  induction k generalizing s with
  | zero =>
    obtain rfl : s = 0 := by omega
    simp [splitTwos]
  | succ k ih =>
    cases s with
    | zero => simp [splitTwos, hd]
    | succ s =>
      have hdouble : 2 ^ (s + 1) * d = 2 * (2 ^ s * d) := by ring
      rw [splitTwos, hdouble, if_pos (by omega), Nat.mul_div_cancel_left _ (by decide), ih (by omega)]

/-- Any way to write n − 1 as 2^s · d with d odd is the one found: bitlen(n) halvings are enough to reach d. -/
theorem decompose_eq {n s d : Nat} (hn : 2 ≤ n) (hd : d % 2 = 1) (h : n - 1 = 2 ^ s * d) : decompose n = (s, d) := by
  have hpow : 2 ^ s ≤ n - 1 := h ▸ Nat.le_mul_of_pos_right _ (by omega)
  have hlt : 2 ^ s < 2 ^ bitlen n := by have := lt_two_pow_bitlen n; omega
  rw [decompose, h]
  exact splitTwos_two_pow_mul hd ((Nat.pow_lt_pow_iff_right (by decide)).mp hlt).le

theorem decompose_spec {n : Nat} (hodd : n % 2 = 1) (hn : 2 ≤ n) :
    1 ≤ (decompose n).1 ∧ (decompose n).2 % 2 = 1 ∧ n - 1 = 2 ^ (decompose n).1 * (decompose n).2 := by
  obtain ⟨s, d, hd, h⟩ := Nat.exists_eq_two_pow_mul_odd (n := n - 1) (by omega)
  rw [Nat.odd_iff] at hd
  rw [decompose_eq hn hd h]
  refine ⟨Nat.one_le_iff_ne_zero.mpr ?_, hd, h⟩
  rintro rfl
  omega

/-- Settles O45: n − 1 has a decomposition, and `decompose` returns whichever is given. -/
theorem decomposeUnique : Obligations.DecomposeUnique :=
  ⟨fun _ hodd hn => ⟨decompose_spec hodd (by omega), fun _ _ _ hd h => (decompose_eq (by omega) hd h).symm⟩,
    decompose_eq (by decide) (by decide) (by decide)⟩

/-! ### One round (R334) -/

theorem squaresPass_iff (k n x : Nat) :
    squaresPass k n (x % n) = true ↔ ∃ r, r < k ∧ x ^ 2 ^ (r + 1) % n = n - 1 := by
  induction k generalizing x with
  | zero => simp [squaresPass]
  | succ k ih =>
    have hsquare : ∀ r, x ^ 2 ^ (r + 1 + 1) = (x ^ 2) ^ 2 ^ (r + 1) := fun r => by rw [← pow_mul, ← pow_succ']
    rw [squaresPass, ← Nat.pow_mod, Nat.exists_lt_succ_left]
    simp only [hsquare, ← ih]
    simp

theorem mrRound_iff {n s d a : Nat} (hs : 1 ≤ s) :
    mrRound n s d a = true ↔ a ^ d % n = 1 ∨ ∃ r, r < s ∧ a ^ (2 ^ r * d) % n = n - 1 := by
  obtain ⟨s, rfl⟩ := Nat.exists_eq_add_of_le' hs
  have hpow : ∀ r, a ^ (2 ^ r * d) = (a ^ d) ^ 2 ^ r := fun r => by rw [← pow_mul, Nat.mul_comm]
  rw [mrRound, modPow_eq, Nat.exists_lt_succ_left]
  simp only [hpow, Nat.add_sub_cancel, ← squaresPass_iff]
  simp [or_assoc]

/-- Settles O46: the squarings of a round run through the powers a^(2^r·d), reduced. -/
theorem roundTestMeaning : Obligations.RoundTestMeaning := fun _ _ _ _ hs => mrRound_iff hs

/-! ### Every round passes on a prime (R336) -/

/-- Where only 1 and −1 square to 1, squaring from x reaches 1 through −1, if x is not 1 itself. -/
theorem eq_one_or_exists_pow_eq_neg_one {R : Type*} [CommRing R] [NoZeroDivisors R] {x : R} {s : Nat}
    (h : x ^ 2 ^ s = 1) : x = 1 ∨ ∃ r, r < s ∧ x ^ 2 ^ r = -1 := by
  induction s with
  | zero => exact .inl (by simpa using h)
  | succ s ih =>
    rw [pow_succ, pow_mul, sq_eq_one_iff] at h
    rcases h with h | h
    · exact (ih h).imp_right fun ⟨r, hr, hx⟩ => ⟨r, hr.trans s.lt_succ_self, hx⟩
    · exact .inr ⟨s, s.lt_succ_self, h⟩

/-- By Fermat's little theorem the squarings from a^d end at 1. -/
theorem mrRound_of_prime {p s d a : Nat} (hp : p.Prime) (hs : 1 ≤ s) (h : p - 1 = 2 ^ s * d) (ha : 1 ≤ a)
    (hlt : a < p) : mrRound p s d a = true := by
  have : Fact p.Prime := ⟨hp⟩
  have hunit : (a : ZMod p) ≠ 0 := by
    rw [Ne, ZMod.natCast_eq_zero_iff]
    exact Nat.not_dvd_of_pos_of_lt ha hlt
  have hfermat : ((a : ZMod p) ^ d) ^ 2 ^ s = 1 := by
    rw [← pow_mul, Nat.mul_comm, ← h, ZMod.pow_card_sub_one_eq_one hunit]
  have hone : 1 < p := hp.one_lt
  rw [mrRound_iff hs]
  rcases eq_one_or_exists_pow_eq_neg_one hfermat with h1 | ⟨r, hr, hx⟩
  · left
    rw [← Nat.mod_eq_of_lt hone, ← ZMod.natCast_eq_natCast_iff']
    simpa using h1
  · refine .inr ⟨r, hr, ?_⟩
    rw [← Nat.mod_eq_of_lt (a := p - 1) (b := p) (by omega), ← ZMod.natCast_eq_natCast_iff', Nat.cast_pred hp.pos]
    simpa [← pow_mul, Nat.mul_comm] using hx

/-! ### Witness draws (R333) -/

/-- The number that attempt k of a draw reads: its bytes, big-endian, reduced mod 2^bitlen(n). -/
def attemptValue (n : Nat) (bytes : List Byte) (k : Nat) : Nat :=
  os2ip ((bytes.drop (k * ceilQuot (bitlen n) 8)).take (ceilQuot (bitlen n) 8)) % 2 ^ bitlen n

/-- Attempt k reads a witness. -/
def AttemptAccepted (n : Nat) (bytes : List Byte) (k : Nat) : Prop :=
  2 ≤ attemptValue n bytes k ∧ attemptValue n bytes k ≤ n - 2

/-- Attempt k has its bytes, and they are no witness. -/
def AttemptRejected (n : Nat) (bytes : List Byte) (k : Nat) : Prop :=
  (k + 1) * ceilQuot (bitlen n) 8 ≤ bytes.length ∧ ¬AttemptAccepted n bytes k

section
variable {k m n : Nat} {bytes : List Byte}

/-! What the attempt with number k makes of the bytes that the k before it have left. -/

theorem length_drop_lt_iff {nb : Nat} : (bytes.drop (k * nb)).length < nb ↔ bytes.length < (k + 1) * nb := by
  rcases Nat.eq_zero_or_pos nb with rfl | hpos
  · simp
  · rw [List.length_drop, Nat.succ_mul]
    omega

theorem drawWitness_of_short (h : bytes.length < (k + 1) * ceilQuot (bitlen n) 8) :
    drawWitness (m + 1) n (bytes.drop (k * ceilQuot (bitlen n) 8)) = .awaiting := by
  rw [drawWitness, if_pos (length_drop_lt_iff.mpr h)]

theorem drawWitness_of_accepted (hlen : (k + 1) * ceilQuot (bitlen n) 8 ≤ bytes.length)
    (h : AttemptAccepted n bytes k) : drawWitness (m + 1) n (bytes.drop (k * ceilQuot (bitlen n) 8)) =
      .witness (attemptValue n bytes k) (bytes.drop ((k + 1) * ceilQuot (bitlen n) 8)) := by
  rw [drawWitness, if_neg (by rw [length_drop_lt_iff]; omega), List.drop_drop, ← Nat.succ_mul]
  exact if_pos h

theorem drawWitness_of_rejected (h : AttemptRejected n bytes k) :
    drawWitness (m + 1) n (bytes.drop (k * ceilQuot (bitlen n) 8)) =
      drawWitness m n (bytes.drop ((k + 1) * ceilQuot (bitlen n) 8)) := by
  obtain ⟨hlen, hrej⟩ := h
  rw [drawWitness, if_neg (by rw [length_drop_lt_iff]; omega), List.drop_drop, ← Nat.succ_mul]
  exact if_neg hrej

/-- Rejected attempts only take their bytes. -/
theorem drawWitness_of_all_rejected (h : ∀ j, j < k → AttemptRejected n bytes j) :
    drawWitness (k + m) n bytes = drawWitness m n (bytes.drop (k * ceilQuot (bitlen n) 8)) := by
  induction k generalizing m with
  | zero => simp
  | succ k ih =>
    rw [Nat.succ_add_eq_add_succ, ih fun j hj => h j (by omega)]
    exact drawWitness_of_rejected (h k k.lt_succ_self)

end

section
variable {attempts n : Nat} {bytes : List Byte}

/-- The draw ends at the first attempt that is not rejected, if there is one. -/
theorem drawWitness_of_first {k : Nat} (hk : k < attempts) (h : ∀ j, j < k → AttemptRejected n bytes j) :
    ∃ m, drawWitness attempts n bytes = drawWitness (m + 1) n (bytes.drop (k * ceilQuot (bitlen n) 8)) := by
  obtain ⟨m, rfl⟩ := Nat.exists_eq_add_of_lt hk
  exact ⟨m, drawWitness_of_all_rejected (m := m + 1) h⟩

theorem drawWitness_eq_witness {k : Nat} (hk : k < attempts) (h : ∀ j, j < k → AttemptRejected n bytes j)
    (hlen : (k + 1) * ceilQuot (bitlen n) 8 ≤ bytes.length) (hacc : AttemptAccepted n bytes k) :
    drawWitness attempts n bytes =
      .witness (attemptValue n bytes k) (bytes.drop ((k + 1) * ceilQuot (bitlen n) 8)) := by
  obtain ⟨m, hm⟩ := drawWitness_of_first hk h
  rw [hm, drawWitness_of_accepted hlen hacc]

theorem drawWitness_eq_awaiting {k : Nat} (hk : k < attempts) (h : ∀ j, j < k → AttemptRejected n bytes j)
    (hshort : bytes.length < (k + 1) * ceilQuot (bitlen n) 8) : drawWitness attempts n bytes = .awaiting := by
  obtain ⟨m, hm⟩ := drawWitness_of_first hk h
  rw [hm, drawWitness_of_short hshort]

theorem drawWitness_eq_exhausted (h : ∀ j, j < attempts → AttemptRejected n bytes j) :
    drawWitness attempts n bytes = .exhausted (bytes.drop (attempts * ceilQuot (bitlen n) 8)) :=
  drawWitness_of_all_rejected (m := 0) h

/-- Every attempt is rejected, or a first one is accepted, or a first one lacks bytes. -/
theorem attempts_cases (attempts n : Nat) (bytes : List Byte) :
    (∀ j, j < attempts → AttemptRejected n bytes j) ∨
    ∃ k, k < attempts ∧ (∀ j, j < k → AttemptRejected n bytes j) ∧
      ((k + 1) * ceilQuot (bitlen n) 8 ≤ bytes.length ∧ AttemptAccepted n bytes k ∨
        bytes.length < (k + 1) * ceilQuot (bitlen n) 8) := by
  induction attempts with
  | zero => exact .inl fun _ hj => absurd hj (Nat.not_lt_zero _)
  | succ k ih =>
    rcases ih with hall | ⟨j, hj, hfirst⟩
    · rcases Nat.lt_or_ge bytes.length ((k + 1) * ceilQuot (bitlen n) 8) with hshort | hlen
      · exact .inr ⟨k, k.lt_succ_self, hall, .inr hshort⟩
      by_cases hacc : AttemptAccepted n bytes k
      · exact .inr ⟨k, k.lt_succ_self, hall, .inl ⟨hlen, hacc⟩⟩
      · exact .inl (Nat.forall_lt_succ_right.mpr ⟨hall, hlen, hacc⟩)
    · exact .inr ⟨j, hj.trans k.lt_succ_self, hfirst⟩

theorem drawWitness_eq_witness_iff {w : Nat} {rest : List Byte} : drawWitness attempts n bytes = .witness w rest ↔
    ∃ k, k < attempts ∧ (∀ j, j < k → AttemptRejected n bytes j) ∧
      (k + 1) * ceilQuot (bitlen n) 8 ≤ bytes.length ∧ AttemptAccepted n bytes k ∧ w = attemptValue n bytes k ∧
      rest = bytes.drop ((k + 1) * ceilQuot (bitlen n) 8) := by
  constructor
  · intro h
    rcases attempts_cases attempts n bytes with hall | ⟨k, hk, hrej, ⟨hlen, hacc⟩ | hshort⟩
    · exact nomatch (drawWitness_eq_exhausted hall).symm.trans h
    · obtain ⟨hw, hrest⟩ := Draw.witness.inj (h.symm.trans (drawWitness_eq_witness hk hrej hlen hacc))
      exact ⟨k, hk, hrej, hlen, hacc, hw, hrest⟩
    · exact nomatch (drawWitness_eq_awaiting hk hrej hshort).symm.trans h
  · rintro ⟨k, hk, hrej, hlen, hacc, rfl, rfl⟩
    exact drawWitness_eq_witness hk hrej hlen hacc

theorem drawWitness_eq_exhausted_iff {rest : List Byte} : drawWitness attempts n bytes = .exhausted rest ↔
    rest = bytes.drop (attempts * ceilQuot (bitlen n) 8) ∧ ∀ j, j < attempts → AttemptRejected n bytes j := by
  constructor
  · intro h
    rcases attempts_cases attempts n bytes with hall | ⟨k, hk, hrej, ⟨hlen, hacc⟩ | hshort⟩
    · exact ⟨Draw.exhausted.inj (h.symm.trans (drawWitness_eq_exhausted hall)), hall⟩
    · exact nomatch (drawWitness_eq_witness hk hrej hlen hacc).symm.trans h
    · exact nomatch (drawWitness_eq_awaiting hk hrej hshort).symm.trans h
  · rintro ⟨rfl, hall⟩
    exact drawWitness_eq_exhausted hall

theorem drawWitness_eq_awaiting_iff : drawWitness attempts n bytes = .awaiting ↔
    ∃ k, k < attempts ∧ bytes.length < (k + 1) * ceilQuot (bitlen n) 8 ∧
      ∀ j, j < k → AttemptRejected n bytes j := by
  constructor
  · intro h
    rcases attempts_cases attempts n bytes with hall | ⟨k, hk, hrej, ⟨hlen, hacc⟩ | hshort⟩
    · exact nomatch (drawWitness_eq_exhausted hall).symm.trans h
    · exact nomatch (drawWitness_eq_witness hk hrej hlen hacc).symm.trans h
    · exact ⟨k, hk, hshort, hrej⟩
  · rintro ⟨k, hk, hshort, hrej⟩
    exact drawWitness_eq_awaiting hk hrej hshort

/-- Attempts before one that has its bytes have theirs. -/
theorem AttemptRejected.of_not_accepted {j k : Nat} (hlen : (k + 1) * ceilQuot (bitlen n) 8 ≤ bytes.length)
    (hj : j < k) (h : ¬AttemptAccepted n bytes j) : AttemptRejected n bytes j :=
  ⟨(Nat.mul_le_mul_right _ (by omega)).trans hlen, h⟩

end

/-- Settles O47: a draw ends at its first attempt that is accepted or lacks bytes, or with its attempts. -/
theorem witnessDrawMeaning : Obligations.WitnessDrawMeaning := by
  intro attempts n bytes
  refine ⟨fun w rest => drawWitness_eq_witness_iff.trans ⟨?_, ?_⟩, fun rest => drawWitness_eq_exhausted_iff,
    drawWitness_eq_awaiting_iff⟩
  · rintro ⟨k, hk, hrej, hlen, hacc, rfl, hrest⟩
    exact ⟨hacc.1, hacc.2, k, hk, hlen, hrest, rfl, fun j hj => (hrej j hj).2⟩
  · rintro ⟨hlow, hhigh, k, hk, hlen, hrest, rfl, hrej⟩
    exact ⟨k, hk, fun j hj => .of_not_accepted hlen hj (hrej j hj), hlen, ⟨hlow, hhigh⟩, rfl, hrest⟩

/-! ### How MRTEST ends (R330) -/

/-- The state in which MRTEST leaves the machine, by its verdict on the bytes delivered. -/
def State.afterVerdict (s : State) : Verdict → State
  | .answer prime rest => (s.withRng rest).committed (.answer prime)
  | .noWitness rest => (s.withRng rest).complete .rng false
  | .awaiting => s

section
variable {a : Field} {s : State} (hw : (Instr.mrtest a).wf = true)
include hw

theorem exec_mrtest_param (h : s.rounds = 0) : exec (.mrtest a) s = s.raise .param := by
  rw [exec, execMrtest, if_neg (by simp [hw]), if_pos h]

theorem exec_mrtest_verdict {v : Verdict} (hr : s.rounds ≠ 0) (hv : s.mrVerdict a = v) :
    exec (.mrtest a) s = .next (s.afterVerdict v) := by
  rw [exec, execMrtest, if_neg (by simp [hw]), if_neg hr, hv]
  cases v <;> rfl

end

theorem State.completed_afterVerdict_answer (s : State) (prime : Bool) (rest : List Byte) :
    s.Completed (s.afterVerdict (.answer prime rest)) .ok prime :=
  s.completed_committed rest (.answer prime)

theorem State.completed_afterVerdict_noWitness (s : State) (rest : List Byte) :
    s.Completed (s.afterVerdict (.noWitness rest)) .rng false :=
  s.completed_withRng rest .rng false

/-! ### Screening (R331) -/

theorem mrTest_screened {retry n rounds : Nat} {bytes : List Byte} (h : n < 4 ∨ n % 2 = 0) :
    mrTest retry n rounds bytes = .answer (decide (n = 2 ∨ n = 3)) bytes := by
  unfold mrTest
  split
  · rw [decide_eq_false (by omega)]
  split
  next hsmall => rw [decide_eq_true hsmall]
  next hsmall => rw [if_pos (by omega), decide_eq_false hsmall]

theorem mrTest_unscreened {retry n rounds : Nat} {bytes : List Byte} (hn : 5 ≤ n) (hodd : n % 2 = 1) :
    mrTest retry n rounds bytes = mrRounds retry n (decompose n).1 (decompose n).2 rounds bytes := by
  rw [mrTest, if_neg (by omega), if_neg (by omega), if_neg (by omega)]

/-- Settles O44: without rounds the check fails, and a screened candidate is answered before any draw. -/
theorem mrtestScreening : Obligations.MrtestScreening := by
  intro a s hw
  refine ⟨fun hr => ?_, fun hr hscreen => ?_⟩
  · exact ⟨_, exec_mrtest_param hw hr, s.completed_complete .param false, rfl, rfl⟩
  · exact ⟨_, exec_mrtest_verdict hw hr (mrTest_screened hscreen), s.completed_afterVerdict_answer _ _, rfl, rfl⟩

/-! ### Primes (R336) -/

/-- Rounds that pass for every witness never answer "composite". -/
theorem mrRounds_ne_answer_false {retry n s d k : Nat} {bytes rest : List Byte}
    (h : ∀ w, 2 ≤ w → w ≤ n - 2 → mrRound n s d w = true) : mrRounds retry n s d k bytes ≠ .answer false rest := by
  induction k generalizing bytes with
  | zero => exact nofun
  | succ k ih =>
    rw [mrRounds]
    have hrange := drawWitness_rest retry n bytes
    cases hdraw : drawWitness retry n bytes with
    | awaiting => exact nofun
    | exhausted left => exact nofun
    | witness w left =>
      rw [hdraw] at hrange
      obtain ⟨-, hlow, hhigh⟩ := hrange
      simp only [h w hlow hhigh, if_true]
      exact ih

theorem mrTest_prime_ne_answer_false {retry p rounds : Nat} {bytes rest : List Byte} (hp : p.Prime) :
    mrTest retry p rounds bytes ≠ .answer false rest := by
  have htwo := hp.two_le
  by_cases hscreen : p < 4 ∨ p % 2 = 0
  · have hsmall : p = 2 ∨ p = 3 := by
      have := hp.eq_two_or_odd
      omega
    rw [mrTest_screened hscreen, decide_eq_true hsmall]
    exact nofun
  · have hodd : p % 2 = 1 := by omega
    obtain ⟨hs, -, hdecomp⟩ := decompose_spec hodd htwo
    rw [mrTest_unscreened (by omega) hodd]
    exact mrRounds_ne_answer_false fun w hlow hhigh => mrRound_of_prime hp hs hdecomp (by omega) (by omega)

/-- Settles O48: by Fermat's little theorem every round passes on a prime, so no verdict is "composite". -/
theorem mrtestNeverRejectsPrime : Obligations.MrtestNeverRejectsPrime := by
  intro a s hw hr hp
  refine ⟨_, exec_mrtest_verdict hw hr rfl, ?_⟩
  cases hv : s.mrVerdict a with
  | answer prime rest =>
    cases prime with
    | true => exact .inl (s.completed_afterVerdict_answer true rest)
    | false => exact absurd hv (mrTest_prime_ne_answer_false hp)
  | noWitness rest => exact .inr (.inl (s.completed_afterVerdict_noWitness rest))
  | awaiting => exact .inr (.inr rfl)

/-! ### Round by round (R330, R335) -/

section
variable {a : Field} {s : State} {k : Nat} {rest : List Byte}
variable (hn : 5 ≤ s.opV a) (hodd : s.opV a % 2 = 1) (hk : s.rounds = k + 1)
include hn hodd hk

/-! The verdict on an odd candidate n ≥ 5 with a round to make, by its first draw. -/

theorem State.mrVerdict_of_exhausted (h : drawWitness s.params.mrRetry (s.opV a) s.rng = .exhausted rest) :
    s.mrVerdict a = .noWitness rest := by
  rw [State.mrVerdict, mrTest_unscreened hn hodd, hk, mrRounds, h]

theorem State.mrVerdict_of_awaiting (h : drawWitness s.params.mrRetry (s.opV a) s.rng = .awaiting) :
    s.mrVerdict a = .awaiting := by
  rw [State.mrVerdict, mrTest_unscreened hn hodd, hk, mrRounds, h]

theorem State.mrVerdict_of_witness {w : Nat} (h : drawWitness s.params.mrRetry (s.opV a) s.rng = .witness w rest) :
    s.mrVerdict a = if mrRound (s.opV a) (decompose (s.opV a)).1 (decompose (s.opV a)).2 w then
      mrTest s.params.mrRetry (s.opV a) k rest else .answer false rest := by
  rw [State.mrVerdict, mrTest_unscreened hn hodd, mrTest_unscreened hn hodd, hk, mrRounds, h]

end

/-- Two states with one verdict both wait, or complete alike. -/
theorem State.afterVerdict_alike (s s' : State) (v : Verdict) :
    (s.afterVerdict v = s ∧ s'.afterVerdict v = s') ∨
    (s.Completed (s.afterVerdict v) (s'.afterVerdict v).errcode (s'.afterVerdict v).result ∧
      s'.Completed (s'.afterVerdict v) (s'.afterVerdict v).errcode (s'.afterVerdict v).result ∧
      (s.afterVerdict v).rng = (s'.afterVerdict v).rng) := by
  cases v with
  | awaiting => exact .inl ⟨rfl, rfl⟩
  | answer prime rest =>
    exact .inr ⟨s.completed_afterVerdict_answer prime rest, s'.completed_afterVerdict_answer prime rest, rfl⟩
  | noWitness rest =>
    exact .inr ⟨s.completed_afterVerdict_noWitness rest, s'.completed_afterVerdict_noWitness rest, rfl⟩

/-- Settles O50: the verdict is that of the first draw, or that of the rounds left on the bytes left. -/
theorem mrtestRoundByRound : Obligations.MrtestRoundByRound := by
  intro a s hw hn hodd hr
  obtain ⟨k, hk⟩ := Nat.exists_eq_succ_of_ne_zero hr
  refine ⟨fun rest h => ?_, fun h => ?_, fun w rest h => ?_⟩
  · exact ⟨_, exec_mrtest_verdict hw hr (s.mrVerdict_of_exhausted hn hodd hk h),
      s.completed_afterVerdict_noWitness rest, rfl, rfl⟩
  · exact exec_mrtest_verdict hw hr (s.mrVerdict_of_awaiting hn hodd hk h)
  have hverdict := s.mrVerdict_of_witness hn hodd hk h
  refine ⟨fun hfail => ?_, fun hpass hlast => ?_, fun hpass s' hparams hop hr' hrounds hrng => ?_⟩
  · rw [hfail, if_neg (by decide)] at hverdict
    exact ⟨_, exec_mrtest_verdict hw hr hverdict, s.completed_afterVerdict_answer false rest, rfl⟩
  · obtain rfl : k = 0 := by omega
    rw [if_pos hpass, mrTest_unscreened hn hodd] at hverdict
    exact ⟨_, exec_mrtest_verdict hw hr hverdict, s.completed_afterVerdict_answer true rest, rfl⟩
  · obtain rfl : k = s'.rounds := by omega
    have hsame : s.mrVerdict a = s'.mrVerdict a := by
      rw [hverdict, if_pos hpass, State.mrVerdict, hparams, hop, hrng]
    exact ⟨_, _, exec_mrtest_verdict hw hr hsame, exec_mrtest_verdict hw hr' rfl, s.afterVerdict_alike s' _⟩

end Sys2Proof.Machine
end

section
/-! # The MGF1 family: no command faults, the results of MGF1 and PSSENC, and the answer of PSSVER -/

namespace Sys2Proof.Machine

/-! ### The MGF1 function below its limit (45_mgf1.md R360, R362) -/

/-- The mask that MGF1 returns where it does not fail. -/
def mgf1Mask (hash : List Byte → List Byte) (hLen : Nat) (seed : List Byte) (maskLen : Nat) : List Byte :=
  (mgf1Blocks hash hLen seed maskLen).take maskLen

/-- A digest has a byte at least (00_scope.md R6). -/
theorem one_le_hlen {p : Params} (h : p.legal) : 1 ≤ p.hlen := by
  obtain ⟨-, -, -, hhlen, -⟩ := h
  exact hhlen

/-- A buffer is shorter than the limit of MGF1. -/
theorem bufBytes_le_mgf1_limit {p : Params} (h : p.legal) : p.bufBytes ≤ 2 ^ 32 * p.hlen := by
  have := one_le_hlen h
  obtain ⟨-, -, hmax, -⟩ := h
  simp only [Params.bufBytes]
  omega

section
variable {hash : List Byte → List Byte} {hLen maskLen m sLen : Nat} {seed mHash salt em : List Byte}

theorem mgf1_eq_some_mask (h : maskLen ≤ 2 ^ 32 * hLen) :
    mgf1 hash hLen seed maskLen = some (mgf1Mask hash hLen seed maskLen) := mgf1_eq_some h

theorem mgf1Mask_length (hL : 1 ≤ hLen) (hh : ∀ x, (hash x).length = hLen) (h : maskLen ≤ 2 ^ 32 * hLen) :
    (mgf1Mask hash hLen seed maskLen).length = maskLen := mgf1_length hL hh (mgf1_eq_some_mask h)

/-! ### The encoder and the decoder where MGF1 does not fail (46_pss.md R381, R383) -/

/-- EM is DB under its mask, with the bits above topmask cleared, then H and the trailer. -/
theorem pssEncode_eq_some (h : dbLen m hLen ≤ 2 ^ 32 * hLen) :
    pssEncode hash hLen m mHash salt = some
      (maskTop m (xorBytes (zeros (psLen m hLen salt.length) ++ [0x01#8] ++ salt)
          (mgf1Mask hash hLen (saltedHash hash mHash salt) (dbLen m hLen)))
        ++ saltedHash hash mHash salt ++ [0xBC#8]) := by
  simp only [pssEncode, mgf1_eq_some_mask h]

/-- The decoder's H, the hLen bytes after maskedDB. -/
def pssHash (hLen m : Nat) (em : List Byte) : List Byte := (em.drop (dbLen m hLen)).take hLen

/-- The decoder's DB, unmasked, with its byte 0 masked by topmask (90_conflicts.md C3). -/
def pssDB (hash : List Byte → List Byte) (hLen m : Nat) (em : List Byte) : List Byte :=
  maskTop m (xorBytes (em.take (dbLen m hLen)) (mgf1Mask hash hLen (pssHash hLen m em) (dbLen m hLen)))

theorem pssCheck_eq_some (h : dbLen m hLen ≤ 2 ^ 32 * hLen) :
    pssCheck hash hLen m sLen mHash em = some
      (pssFirstChecks hLen m em
        && (pssDB hash hLen m em).take (psLen m hLen sLen) == zeros (psLen m hLen sLen)
        && (pssDB hash hLen m em)[psLen m hLen sLen]? == some 0x01#8
        && saltedHash hash mHash ((pssDB hash hLen m em).drop (psLen m hLen sLen + 1)) == pssHash hLen m em) := by
  rw [pssCheck, mgf1_eq_some_mask h]
  rfl

end

/-! ### No command faults (R362) -/

/-- A command's outcome is a next state. -/
def Proceeds (o : Host.Outcome State Fault Refusal) : Prop := ∃ t, o = .next t

/-- A check that ends the command or makes it wait, or else lets it go on. -/
theorem Proceeds.next_or {p : Prop} [Decidable p] {t : State} {o : Host.Outcome State Fault Refusal}
    (h : ¬p → Proceeds o) : Proceeds (if p then .next t else o) := by
  split
  · exact ⟨t, rfl⟩
  · exact h ‹¬p›

theorem execMrtest_proceeds (a : Field) (s : State) : Proceeds (execMrtest a s) := by
  refine .next_or fun _ => .next_or fun _ => ?_
  cases s.mrVerdict a <;> exact ⟨_, rfl⟩

section
variable {s : State} (hl : s.params.legal)
include hl

theorem execMgf1_proceeds (d a : Field) : Proceeds (execMgf1 d a s) := by
  refine .next_or fun _ => .next_or fun _ => .next_or fun hmask => .next_or fun _ => ?_
  rw [mgf1_eq_some_mask ((Nat.not_lt.mp hmask).trans (bufBytes_le_mgf1_limit hl))]
  exact ⟨_, rfl⟩

theorem execPssenc_proceeds (d a : Field) : Proceeds (execPssenc d a s) := by
  refine .next_or fun _ => ?_
  split
  · exact ⟨_, rfl⟩
  next hchecks =>
    obtain ⟨-, hmax, -⟩ := State.pssencError_eq_none.mp hchecks
    refine .next_or fun _ => ?_
    rw [pssEncode_eq_some (dbLen_le hl hmax)]
    exact ⟨_, rfl⟩

theorem execPssver_proceeds (a b : Field) : Proceeds (execPssver a b s) := by
  refine .next_or fun _ => .next_or fun hbits => .next_or fun _ => .next_or fun _ => ?_
  rw [pssCheck_eq_some (dbLen_le hl (by omega))]
  exact ⟨_, rfl⟩

end

/-- Settles O33: every check ends a command or lets it go on, and its masks are below the limit of MGF1. -/
theorem commandsNeverFault : Obligations.CommandsNeverFault := by
  intro i s hl
  change Proceeds (exec i s)
  cases i with
  | nop => exact ⟨_, rfl⟩
  | zeroize => exact ⟨_, rfl⟩
  | montmul d a b c => exact .next_or fun _ => .next_or fun _ => .next_or fun _ => .next_or fun _ => ⟨_, rfl⟩
  | montr2 d c => exact .next_or fun _ => .next_or fun _ => .next_or fun _ => ⟨_, rfl⟩
  | modexp d a b c => exact .next_or fun _ => .next_or fun _ => ⟨_, rfl⟩
  | i2osp d a => exact .next_or fun _ => .next_or fun _ => .next_or fun _ => ⟨_, rfl⟩
  | os2ip d a => exact .next_or fun _ => .next_or fun _ => ⟨_, rfl⟩
  | mrtest a => exact execMrtest_proceeds a s
  | mgf1 d a => exact execMgf1_proceeds hl d a
  | pssenc d a => exact execPssenc_proceeds hl d a
  | pssver a b => exact execPssver_proceeds hl a b

end Sys2Proof.Machine
end

section
/-! ## The masks and encodings that MGF1 and PSSENC write -/

namespace Sys2Proof.Machine

/-! ### A buffer's new contents (10_state.md R56) -/

/-- The bytes stored in a buffer are read back. -/
theorem RegFile.getBytes_setBuf {r : RegFile} (hr : r.mem.wf) (j : Field) (b : List Byte) :
    (r.setBuf j b).getBytes j b.length = b := by
  refine List.ext_getElem (RegFile.getBytes_length ..) fun k _ hk => ?_
  simpa [RegFile.getBytes] using RegFile.getByte_setBuf_inside hr j hk

/-- What MGF1 and PSSENC leave in buffer D. -/
theorem exec_stores_of_setB {i : Instr} {s : State} {d : Field} {b rest : List Byte} {n : Nat} (hw : i.wf = true)
    (hf : (Effect.setB d b).fits i) (hl : s.params.legal) (hwf : s.regs.mem.wf) (hb : b.length = n)
    (hn : n ≤ s.params.bufBytes) (h : exec i s = (s.withRng rest).succeed (.setB d b)) :
    ∃ t, exec i s = .next t ∧ s.Completed t .ok false ∧ t.rng = rest ∧ t.regs.getBytes d n = b ∧
      t.regs.getLen d = n ∧ ∀ k, n ≤ k → t.regs.getByte d k = s.regs.getByte d k := by
  subst hb
  obtain ⟨t, hexec, hdone, hrng, hregs, hlen⟩ := exec_completes_of_setB hw hf hl hn h
  refine ⟨t, hexec, hdone, hrng, ?_, hlen, fun k hk => ?_⟩ <;> rw [hregs]
  · exact RegFile.getBytes_setBuf hwf d b
  · exact RegFile.getByte_setBuf_tail _ d hk

/-! ### Waiting for the HASH port (70_reset_and_hazards.md R493) -/

theorem State.awaitsHash_of_serves {s : State} (h : s.hashServes = true) (needed : Bool) :
    s.awaitsHash needed = false := by simp [State.awaitsHash, h]

theorem State.awaitsHash_of_silent {s : State} (h : s.hashServes = false) (needed : Bool) :
    s.awaitsHash needed = needed := by simp [State.awaitsHash, h]

/-! ### MGF1 (45_mgf1.md R361) -/

section
variable {d a : Field} {s : State} (hw : (Instr.mgf1 d a).wf = true) (hseed : s.opLen a ≤ s.params.bufBytes)
  (hmask : s.maskLen ≤ s.params.bufBytes)
include hw hseed hmask

theorem exec_mgf1_wait (hsilent : s.hashServes = false) (h : s.maskLen ≠ 0) : exec (.mgf1 d a) s = .next s := by
  rw [exec, execMgf1, if_neg (by simp [hw]), if_neg hseed.not_gt, if_neg hmask.not_gt,
    if_pos (by simp [State.awaitsHash_of_silent hsilent, h])]
  rfl

theorem exec_mgf1_ok (hl : s.params.legal) (h : s.hashServes = true ∨ s.maskLen = 0) :
    exec (.mgf1 d a) s =
      s.succeed (.setB d (mgf1Mask (Params.hashOf s.params) s.params.hlen (s.opBuf a) s.maskLen)) := by
  have hready : s.awaitsHash (s.maskLen != 0) = false := by
    rcases h with h | h
    · exact State.awaitsHash_of_serves h _
    · simp [State.awaitsHash, h]
  rw [exec, execMgf1, if_neg (by simp [hw]), if_neg hseed.not_gt, if_neg hmask.not_gt, if_neg (by simp [hready]),
    mgf1_eq_some_mask (hmask.trans (bufBytes_le_mgf1_limit hl))]

end

/-- Settles O51: below its limit MGF1 commits the mask, whose blocks have hLen bytes each. -/
theorem mgf1Result : Obligations.Mgf1Result := by
  intro d a s hw hseed hmask
  refine ⟨fun hl hwf hready => ?_, exec_mgf1_wait hw hseed hmask⟩
  have hlength := mgf1Mask_length (seed := s.opBuf a) (one_le_hlen hl) (hashOf_length hl)
    (hmask.trans (bufBytes_le_mgf1_limit hl))
  exact exec_stores_of_setB (rest := s.rng) hw rfl hl hwf hlength hmask (exec_mgf1_ok hw hseed hmask hl hready)

/-! ### PSSENC (46_pss.md R381, R382) -/

/-- topmask cuts the first byte of a string, if it has one. -/
theorem exists_maskTop_eq_cons {m : Nat} {l : List Byte} (h : l.length ≠ 0) :
    ∃ first others, l = first :: others ∧ maskTop m l = (first &&& topMask m) :: others := by
  cases l with
  | nil => exact absurd rfl h
  | cons first others => exact ⟨first, others, rfl, rfl⟩

theorem State.opBuf_eq_opBytes {s : State} {j : Field} {n : Nat} (h : s.opLen j = n) : s.opBuf j = s.opBytes j n := by
  rw [State.opBuf, h]

theorem exec_pssenc_ok {d a : Field} {s : State} (hw : (Instr.pssenc d a).wf = true)
    (hchecks : s.pssencError a = none) (hsalt : s.saltLen ≤ s.rng.length) (hserves : s.hashServes = true) {em : List Byte}
    (hem : pssEncode (Params.hashOf s.params) s.params.hlen s.modBits (s.opBytes a s.params.hlen)
      (s.rng.take s.saltLen) = some em) :
    exec (.pssenc d a) s = (s.withRng (s.rng.drop s.saltLen)).succeed (.setB d em) := by
  rw [exec, execPssenc, if_neg (by simp [hw]), hchecks]
  dsimp only
  rw [if_neg (by simp [State.awaitsHash_of_serves hserves, hsalt]), hem]

/-- Settles O52: PSSENC commits the encoding, and EM is longer than H and the trailer, so masked DB has a first byte. -/
theorem pssencResult : Obligations.PssencResult := by
  intro d a s hw hl hwf
  rw [← emLen_eq]
  intro emLen dbLen hbits hmax hmHash hem hsalt hserves salt h db dbMask
  have hdigest := hashOf_length hl
  have hlimit := dbLen_le hl hmax
  have hsaltLen : salt.length = s.saltLen := by simp [salt, hsalt]
  have hencode : pssEncode (Params.hashOf s.params) s.params.hlen s.modBits (s.opBytes a s.params.hlen) salt =
      some (maskTop s.modBits (xorBytes db dbMask) ++ h ++ [0xBC#8]) := by
    rw [pssEncode_eq_some hlimit, hsaltLen, ← State.opBuf_eq_opBytes hmHash]
    rfl
  have hlength := pssEncode_length (one_le_hlen hl) hdigest (hsaltLen.symm ▸ hem) hencode
  have hnonempty : (xorBytes db dbMask).length ≠ 0 := by
    have hh : h.length = s.params.hlen := hdigest _
    rw [List.length_append, List.length_append, maskTop_length, hh, List.length_singleton] at hlength
    omega
  obtain ⟨first, others, hxor, htop⟩ := exists_maskTop_eq_cons (m := s.modBits) hnonempty
  obtain ⟨t, hexec, hdone, hrng, hbytes, hlen, htail⟩ := exec_stores_of_setB hw rfl hl hwf hlength
    (emLen_le_bufBytes hl hmax) (exec_pssenc_ok hw (State.pssencError_eq_none.mpr ⟨hbits, hmax, hmHash, hem⟩) hsalt
      hserves hencode)
  rw [htop] at hbytes
  exact ⟨t, first, others, hexec, hdone, hxor, hbytes, hlen, htail, hrng⟩

end Sys2Proof.Machine
end

section
/-! ## PSSVER's checks and its answer -/

namespace Sys2Proof.Machine

/-! ### The parts of EM and DB (46_pss.md R383) -/

/-- Where a byte stands in a string fixes what stands before and after it. -/
theorem eq_append_singleton_append_iff {l a c : List Byte} {x : Byte} :
    l = a ++ [x] ++ c ↔ l.take a.length = a ∧ l[a.length]? = some x ∧ l.drop (a.length + 1) = c := by
  constructor
  · rintro rfl
    simp
  · rintro ⟨ha, hx, hc⟩
    obtain ⟨hlt, hx⟩ := List.getElem?_eq_some_iff.mp hx
    conv_lhs => rw [← List.take_append_drop a.length l, List.drop_eq_getElem_cons hlt, ha, hx, hc]
    simp

theorem topBitsClear_iff {m : Nat} {s : List Byte} :
    topBitsClear m s = true ↔ ∀ b, s.head? = some b → b &&& ~~~topMask m = 0#8 := by
  cases s <;> simp [topBitsClear]

/-- DB is its zeros, the 0x01 and the salt (R380). -/
theorem psLen_add {hLen m sLen : Nat} (h : hLen + sLen + 2 ≤ emLen m) :
    psLen m hLen sLen + 1 + sLen = dbLen m hLen := by
  simp only [psLen, dbLen]
  omega

section
variable {hash : List Byte → List Byte} {hLen m sLen : Nat} {mHash em : List Byte}
variable (hem : em.length = emLen m) (hlen : hLen + sLen + 2 ≤ emLen m)
include hem hlen

/-- maskedDB and H are the front of EM and the hLen bytes after it, and the trailer is its last byte. -/
theorem em_eq_iff {maskedDB h' : List Byte} {c : Byte} (hdb : maskedDB.length = dbLen m hLen)
    (hh' : h'.length = hLen) :
    em = maskedDB ++ h' ++ [c] ↔
      em.take (dbLen m hLen) = maskedDB ∧ pssHash hLen m em = h' ∧ em[emLen m - 1]? = some c := by
  have hpos : emLen m - 1 = dbLen m hLen + hLen := by simp only [dbLen]; omega
  have hfront : (maskedDB ++ h').length = emLen m - 1 := by rw [List.length_append, hdb, hh', hpos]
  have htake : em.take (emLen m - 1) = em.take (dbLen m hLen) ++ pssHash hLen m em := by
    rw [hpos, List.take_add, pssHash]
  have htakeLength : (em.take (dbLen m hLen)).length = maskedDB.length := by rw [List.length_take]; omega
  have hend : em.drop (emLen m - 1 + 1) = [] := List.drop_eq_nil_of_le (by omega)
  rw [← List.append_nil (maskedDB ++ h' ++ [c]), eq_append_singleton_append_iff, hfront, htake, hend,
    List.append_eq_append_iff_of_size_eq_left htakeLength]
  simp [and_assoc]

/-- The checks without a HASH call speak of the last byte and the first. -/
theorem pssFirstChecks_iff : pssFirstChecks hLen m em = true ↔
    em.getLast? = some 0xBC#8 ∧ ∀ b, em.head? = some b → b &&& ~~~topMask m = 0#8 := by
  have hdb : dbLen m hLen ≠ 0 := by simp only [dbLen]; omega
  rw [pssFirstChecks, Bool.and_eq_true, beq_iff_eq, topBitsClear_iff, List.head?_take, if_neg hdb,
    List.getLast?_eq_getElem?, hem]

variable (hL : 1 ≤ hLen) (hh : ∀ x, (hash x).length = hLen) (hlimit : dbLen m hLen ≤ 2 ^ 32 * hLen)
include hL hh hlimit

theorem pssDB_length : (pssDB hash hLen m em).length = dbLen m hLen := by
  rw [pssDB, maskTop_length, xorBytes_length, mgf1Mask_length hL hh hlimit, List.length_take, hem, dbLen]
  omega

/-- The decoder accepts EM exactly if it has the parts that the encoder puts together (R383). -/
theorem pssCheck_iff : pssCheck hash hLen m sLen mHash em = some true ↔
    ∃ maskedDB h' salt, maskedDB.length = dbLen m hLen ∧ h'.length = hLen ∧ salt.length = sLen ∧
      em = maskedDB ++ h' ++ [0xBC#8] ∧ topBitsClear m maskedDB = true ∧
      maskTop m (xorBytes maskedDB (mgf1Mask hash hLen h' (dbLen m hLen))) =
        zeros (psLen m hLen sLen) ++ [0x01#8] ++ salt ∧
      saltedHash hash mHash salt = h' := by
  rw [pssCheck_eq_some hlimit]
  simp only [Option.some.injEq, pssFirstChecks, Bool.and_eq_true, beq_iff_eq]
  constructor
  · rintro ⟨⟨⟨⟨htrailer, htop⟩, hzeros⟩, hone⟩, hhash⟩
    have hdb : (em.take (dbLen m hLen)).length = dbLen m hLen := by rw [List.length_take, dbLen]; omega
    have hh' : (pssHash hLen m em).length = hLen := by rw [← hhash]; exact hh _
    refine ⟨_, _, (pssDB hash hLen m em).drop (psLen m hLen sLen + 1), hdb, hh', ?_,
      (em_eq_iff hem hlen hdb hh').mpr ⟨rfl, rfl, htrailer⟩, htop, ?_, hhash⟩
    · have := psLen_add hlen
      rw [List.length_drop, pssDB_length hem hlen hL hh hlimit]
      omega
    · rw [eq_append_singleton_append_iff, zeros_length]
      exact ⟨hzeros, hone, rfl⟩
  · rintro ⟨maskedDB, h', salt, hdb, hh', -, hparts, htop, hDB, hhash⟩
    obtain ⟨rfl, rfl, htrailer⟩ := (em_eq_iff hem hlen hdb hh').mp hparts
    rw [eq_append_singleton_append_iff, zeros_length] at hDB
    obtain ⟨hzeros, hone, rfl⟩ := hDB
    exact ⟨⟨⟨⟨htrailer, htop⟩, hzeros⟩, hone⟩, hhash⟩

/-- The same with maskedDB and DB by their first bytes, which topmask cuts. -/
theorem pssCheck_iff_cons : pssCheck hash hLen m sLen mHash em = some true ↔
    ∃ first others h' x xs salt, (first :: others).length = dbLen m hLen ∧ h'.length = hLen ∧ salt.length = sLen ∧
      em = first :: others ++ h' ++ [0xBC#8] ∧ first &&& ~~~topMask m = 0#8 ∧
      xorBytes (first :: others) (mgf1Mask hash hLen h' (dbLen m hLen)) = x :: xs ∧
      (x &&& topMask m) :: xs = zeros (psLen m hLen sLen) ++ [0x01#8] ++ salt ∧ saltedHash hash mHash salt = h' := by
  rw [pssCheck_iff hem hlen hL hh hlimit]
  constructor
  · rintro ⟨maskedDB, h', salt, hdb, hh', hsalt, hparts, htop, hDB, hhash⟩
    have hpos : dbLen m hLen ≠ 0 := by rw [dbLen]; omega
    have hxorLength : (xorBytes maskedDB (mgf1Mask hash hLen h' (dbLen m hLen))).length = dbLen m hLen := by
      rw [xorBytes_length, mgf1Mask_length hL hh hlimit, hdb, min_self]
    obtain ⟨first, others, rfl⟩ := List.exists_cons_of_length_pos (hdb ▸ Nat.pos_of_ne_zero hpos)
    obtain ⟨x, xs, hxor, hmasked⟩ := exists_maskTop_eq_cons (m := m) (hxorLength ▸ hpos)
    exact ⟨first, others, h', x, xs, salt, hdb, hh', hsalt, hparts, topBitsClear_iff.mp htop first rfl, hxor,
      hmasked ▸ hDB, hhash⟩
  · rintro ⟨first, others, h', x, xs, salt, hdb, hh', hsalt, hparts, htop, hxor, hDB, hhash⟩
    refine ⟨first :: others, h', salt, hdb, hh', hsalt, hparts, ?_, ?_, hhash⟩
    · simpa [topBitsClear] using htop
    · rw [hxor]
      exact hDB

end

/-- A check that fails before the HASH calls decides the answer: the calls would not change it. -/
theorem pssCheck_of_firstChecks {hash : List Byte → List Byte} {hLen m sLen : Nat} {mHash em : List Byte}
    (hlimit : dbLen m hLen ≤ 2 ^ 32 * hLen) (h : pssFirstChecks hLen m em = false) :
    pssCheck hash hLen m sLen mHash em = some false := by
  rw [pssCheck_eq_some hlimit, h]
  rfl

/-! ### How PSSVER ends (R383, R384) -/

/-- The lengths that PSSVER compares agree (46_pss.md R383). -/
def State.PssLengthsAgree (s : State) (a b : Field) : Prop :=
  s.opLen a = s.params.hlen ∧ s.opLen b = emLen s.modBits ∧ s.params.hlen + s.saltLen + 2 ≤ emLen s.modBits

/-- The build's PSSVER ends without its HASH calls (log entry 24). -/
def State.PssverEndsEarly (s : State) (b : Field) : Prop :=
  Config.pssverEndsEarly = true ∧ pssFirstChecks s.params.hlen s.modBits (s.opBuf b) = false

theorem exec_completes_of_answer {i : Instr} {s : State} {r : Bool} (h : exec i s = s.succeed (.answer r)) :
    ∃ t, exec i s = .next t ∧ s.Completed t .ok r ∧ t.regs = s.regs ∧ t.rng = s.rng :=
  ⟨_, h, s.completed_committed s.rng (.answer r), rfl, rfl⟩

section
variable {a b : Field} {s : State} (hw : (Instr.pssver a b).wf = true) (hbits : 1 ≤ s.modBits)
  (hmax : s.modBits ≤ s.params.maxbits)
include hw hbits hmax

theorem exec_pssver_disagree (h : ¬s.PssLengthsAgree a b) : exec (.pssver a b) s = s.succeed (.answer false) := by
  unfold State.PssLengthsAgree at h
  rw [exec, execPssver, if_neg (by simp [hw]), if_neg (by omega), if_pos (by omega)]

variable (hagree : s.PssLengthsAgree a b)
include hagree

theorem exec_pssver_wait (hsilent : s.hashServes = false) (h : ¬s.PssverEndsEarly b) :
    exec (.pssver a b) s = .next s := by
  obtain ⟨ha, hb, hlen⟩ := hagree
  have hneeded : (!(Config.pssverEndsEarly && !pssFirstChecks s.params.hlen s.modBits (s.opBuf b))) = true := by
    rw [State.PssverEndsEarly, not_and_or] at h
    simpa using h
  rw [exec, execPssver, if_neg (by simp [hw]), if_neg (by omega), if_neg (by omega), ← State.opBuf_eq_opBytes hb,
    State.awaitsHash_of_silent hsilent, if_pos hneeded]
  rfl

theorem exec_pssver_answer {valid : Bool} (h : s.hashServes = true ∨ s.PssverEndsEarly b)
    (hvalid : pssCheck (Params.hashOf s.params) s.params.hlen s.modBits s.saltLen (s.opBuf a) (s.opBuf b) =
      some valid) : exec (.pssver a b) s = s.succeed (.answer valid) := by
  obtain ⟨ha, hb, hlen⟩ := hagree
  have hready : s.awaitsHash (!(Config.pssverEndsEarly
      && !pssFirstChecks s.params.hlen s.modBits (s.opBuf b))) = false := by
    rcases h with h | ⟨hearly, hfails⟩
    · exact State.awaitsHash_of_serves h _
    · simp [State.awaitsHash, hearly, hfails]
  rw [exec, execPssver, if_neg (by simp [hw]), if_neg (by omega), if_neg (by omega), ← State.opBuf_eq_opBytes hb,
    ← State.opBuf_eq_opBytes ha, hready, if_neg (by decide), hvalid]

end

/-- Settles O55: where the lengths agree, `pssCheck` decides the answer, and a build that does not wait for the HASH port
has seen one of the first checks fail. -/
theorem pssverOutcome : Obligations.PssverOutcome := by
  intro a b s hw hl hbits hmax
  rw [← emLen_eq]
  intro emLen dbLen topmask agree
  have hlimit := dbLen_le hl hmax
  refine ⟨fun h => exec_completes_of_answer (exec_pssver_disagree hw hbits hmax h), fun h hserves => ?_,
    fun h hsilent => ?_⟩
  · obtain ⟨-, hb, hlen⟩ := id h
    have hem := (s.opBuf_length b).trans hb
    refine ⟨_, exec_pssver_answer hw hbits hmax h (.inl hserves) (pssCheck_eq_some hlimit),
      s.completed_committed s.rng (.answer _), rfl, rfl, ?_⟩
    refine .trans ?_ (pssCheck_iff_cons hem hlen (one_le_hlen hl) (hashOf_length hl) hlimit)
    rw [pssCheck_eq_some hlimit, Option.some.injEq]
    rfl
  · obtain ⟨-, hb, hlen⟩ := id h
    have hem := (s.opBuf_length b).trans hb
    by_cases hearly : s.PssverEndsEarly b
    · have hfails : ¬pssFirstChecks s.params.hlen s.modBits (s.opBuf b) = true := by simp [hearly.2]
      simp only [pssFirstChecks_iff hem hlen, not_and_or, not_forall, exists_prop] at hfails
      exact .inr ⟨hfails, exec_completes_of_answer
        (exec_pssver_answer hw hbits hmax h (.inr hearly) (pssCheck_of_firstChecks hlimit hearly.2))⟩
    · exact .inl (exec_pssver_wait hw hbits hmax h hsilent hearly)

end Sys2Proof.Machine
end

section
/-! # The PSS family: the errors and waits of PSSENC and PSSVER, the encoded message as an integer, the round trip -/

namespace Sys2Proof.Machine

/-! ### How PSSENC and PSSVER end at a failed check (46_pss.md R381, R383) -/

section
variable {s : State} {a : Field}

theorem State.pssencError_eq_param (h : s.modBits = 0 ∨ s.params.maxbits < s.modBits) :
    s.pssencError a = some .param := if_pos h

theorem State.pssencError_eq_len (hbits : 1 ≤ s.modBits) (hmax : s.modBits ≤ s.params.maxbits)
    (h : s.opLen a ≠ s.params.hlen) : s.pssencError a = some .len := by
  rw [State.pssencError, if_neg (by omega), if_pos h]

theorem State.pssencError_eq_encoding (hbits : 1 ≤ s.modBits) (hmax : s.modBits ≤ s.params.maxbits)
    (hmHash : s.opLen a = s.params.hlen) (h : emLen s.modBits < s.params.hlen + s.saltLen + 2) :
    s.pssencError a = some .encoding := by
  rw [State.pssencError, if_neg (by omega), if_neg (not_not.mpr hmHash), if_pos h]

end

theorem exec_pssver_param {a b : Field} {s : State} (hw : (Instr.pssver a b).wf = true)
    (h : s.modBits = 0 ∨ s.params.maxbits < s.modBits) : exec (.pssver a b) s = s.raise .param := by
  rw [exec, execPssver, if_neg (by simp [hw]), if_pos h]

/-- A raised error leaves the registers and the delivered bytes (40_command_execution.md R239). -/
theorem exec_keeps_of_raise {i : Instr} {s : State} {c : ErrCode} (h : exec i s = s.raise c) :
    ∃ t, exec i s = .next t ∧ s.Completed t c false ∧ t.regs = s.regs ∧ t.rng = s.rng :=
  ⟨_, h, s.completed_complete c false, rfl, rfl⟩

section
variable {d a : Field} {s : State} (hw : (Instr.pssenc d a).wf = true)
include hw

theorem exec_pssenc_error {c : ErrCode} (h : s.pssencError a = some c) : exec (.pssenc d a) s = s.raise c := by
  rw [exec, execPssenc, if_neg (by simp [hw]), h]

theorem exec_pssenc_wait (hchecks : s.pssencError a = none) (h : s.rng.length < s.saltLen ∨ s.hashServes = false) :
    exec (.pssenc d a) s = .next s := by
  rw [exec, execPssenc, if_neg (by simp [hw]), hchecks]
  exact if_pos (h.imp_right fun hsilent => State.awaitsHash_of_silent hsilent true)

end

/-- Settles O53: the first failing check raises its error, and passed checks leave only the two ports to wait for. -/
theorem pssErrorsAndWait : Obligations.PssErrorsAndWait := by
  refine ⟨fun d a s hw => ?_, fun a b s hw h => exec_keeps_of_raise (exec_pssver_param hw h)⟩
  rw [← emLen_eq]
  refine ⟨fun h => ?_, fun hbits hmax h => ?_, fun hbits hmax hmHash h => ?_, fun hbits hmax hmHash hem => ?_⟩
  · exact exec_keeps_of_raise (exec_pssenc_error hw (State.pssencError_eq_param h))
  · exact exec_keeps_of_raise (exec_pssenc_error hw (State.pssencError_eq_len hbits hmax h))
  · exact exec_keeps_of_raise (exec_pssenc_error hw (State.pssencError_eq_encoding hbits hmax hmHash h))
  · exact exec_pssenc_wait hw (State.pssencError_eq_none.mpr ⟨hbits, hmax, hmHash, hem⟩)

/-! ### What an ended PSSENC has written -/

/-- A PSSENC that ended without error found its indices legal, its checks passed and both ports ready. -/
theorem pssenc_ready_of_ended {d a : Field} {s t : State} (h : exec (.pssenc d a) s = .next t) (hbusy : s.busy = true)
    (hidle : t.busy = false) (hok : t.errcode = .ok) :
    (Instr.pssenc d a).wf = true ∧ s.pssencError a = none ∧ s.saltLen ≤ s.rng.length ∧ s.hashServes = true := by
  have hnotRaised {c : ErrCode} (hc : c ≠ .ok) (hr : exec (.pssenc d a) s = s.raise c) : False := by
    obtain rfl := Host.Outcome.next.inj (h.symm.trans hr)
    exact hc hok
  have hnotWaiting : exec (.pssenc d a) s ≠ .next s := fun hs => by
    obtain rfl := Host.Outcome.next.inj (h.symm.trans hs)
    simp [hbusy] at hidle
  have hw : (Instr.pssenc d a).wf = true := by
    by_contra hw
    exact hnotRaised (by decide) (exec_of_not_wf (by simpa using hw) s)
  have hchecks : s.pssencError a = none := by
    by_contra hc
    obtain ⟨c, hc⟩ := Option.ne_none_iff_exists'.mp hc
    exact hnotRaised (State.pssencError_ne_ok hc) (exec_pssenc_error hw hc)
  refine ⟨hw, hchecks, ?_⟩
  by_contra hports
  rw [not_and_or, Nat.not_le, Bool.not_eq_true] at hports
  exact hnotWaiting (exec_pssenc_wait hw hchecks hports)

/-- A PSSENC that ended without error has passed its checks and left EM in buffer D. -/
theorem exec_pssenc_written {d a : Field} {s t : State} (hl : s.params.legal) (hwf : s.regs.mem.wf)
    (h : exec (.pssenc d a) s = .next t) (hbusy : s.busy = true) (hidle : t.busy = false) (hok : t.errcode = .ok) :
    s.pssencError a = none ∧ ∃ salt : List Byte, salt.length = s.saltLen ∧
      pssEncode (Params.hashOf s.params) s.params.hlen s.modBits (s.opBuf a) salt =
        some (t.regs.getBytes d (t.regs.getLen d)) := by
  obtain ⟨hw, hchecks, hsalt, hserves⟩ := pssenc_ready_of_ended h hbusy hidle hok
  obtain ⟨-, hmax, hmHash, hem⟩ := State.pssencError_eq_none.mp hchecks
  rw [State.opBuf_eq_opBytes hmHash]
  have hsaltLen : (s.rng.take s.saltLen).length = s.saltLen := List.length_take_of_le hsalt
  have hencode := pssEncode_eq_some (hash := Params.hashOf s.params) (mHash := s.opBytes a s.params.hlen)
    (salt := s.rng.take s.saltLen) (dbLen_le hl hmax)
  have hlength := pssEncode_length (one_le_hlen hl) (hashOf_length hl) (hsaltLen.symm ▸ hem) hencode
  obtain ⟨t', hexec, -, -, hbytes, hlen, -⟩ := exec_stores_of_setB hw rfl hl hwf hlength (emLen_le_bufBytes hl hmax)
    (exec_pssenc_ok hw hchecks hsalt hserves hencode)
  obtain rfl := Host.Outcome.next.inj (h.symm.trans hexec)
  exact ⟨hchecks, _, hsaltLen, by rw [hlen, hbytes, hencode]⟩

/-! ### The parts of EM, as PSSENC makes them (R381) -/

/-- DB before its mask: zeros, the 0x01 and the salt. -/
def pssPlainDB (hLen m : Nat) (salt : List Byte) : List Byte := zeros (psLen m hLen salt.length) ++ [0x01#8] ++ salt

/-- DB under its mask, with the cleared bits zero. -/
def pssMaskedDB (hash : List Byte → List Byte) (hLen m : Nat) (mHash salt : List Byte) : List Byte :=
  maskTop m (xorBytes (pssPlainDB hLen m salt) (mgf1Mask hash hLen (saltedHash hash mHash salt) (dbLen m hLen)))

theorem pssPlainDB_length {hLen m : Nat} {salt : List Byte} (h : hLen + salt.length + 2 ≤ emLen m) :
    (pssPlainDB hLen m salt).length = dbLen m hLen := by
  simp only [pssPlainDB, List.length_append, zeros_length, List.length_singleton]
  exact psLen_add h

section
variable {hash : List Byte → List Byte} {hLen m : Nat} {mHash salt em : List Byte}
variable (hlimit : dbLen m hLen ≤ 2 ^ 32 * hLen)
include hlimit

theorem eq_parts_of_pssEncode (h : pssEncode hash hLen m mHash salt = some em) :
    em = pssMaskedDB hash hLen m mHash salt ++ saltedHash hash mHash salt ++ [0xBC#8] := by
  rw [pssEncode_eq_some hlimit] at h
  exact (Option.some.inj h).symm

variable (hL : 1 ≤ hLen) (hh : ∀ x, (hash x).length = hLen) (hlen : hLen + salt.length + 2 ≤ emLen m)
include hL hh hlen

theorem pssMaskedDB_length : (pssMaskedDB hash hLen m mHash salt).length = dbLen m hLen := by
  rw [pssMaskedDB, maskTop_length, xorBytes_length, pssPlainDB_length hlen, mgf1Mask_length hL hh hlimit, min_self]

end

/-! ### EM as an integer (R388) -/

/-- A byte has at most 7 cleared bits (R380). -/
theorem clearedBits_add (m : Nat) : clearedBits m ≤ 7 ∧ clearedBits m + (m - 1) = 8 * emLen m := by
  rw [clearedBits, emLen_eq]
  omega

/-- topmask leaves the low 8 − nclr bits of a byte (R380). -/
theorem and_topMask_lt (m : Nat) (b : Byte) : (b &&& topMask m).toNat < 2 ^ (8 - clearedBits m) := by
  have hsplit : 2 ^ (8 - clearedBits m) * 2 ^ clearedBits m = 256 := by
    rw [← pow_add, Nat.sub_add_cancel ((clearedBits_add m).1.trans (by decide))]
    rfl
  rw [BitVec.toNat_and, topMask, BitVec.toNat_ushiftRight, Nat.shiftRight_eq_div_pow]
  refine Nat.and_le_right.trans_lt ((Nat.div_lt_iff_lt_mul (by positivity)).mpr ?_)
  rw [hsplit]
  decide

/-- A string of emLen bytes with its cleared bits zero is an integer of modBits − 1 bits. -/
theorem os2ip_maskTop_append_lt {m : Nat} {l rest : List Byte} (hl : l.length ≠ 0)
    (h : (maskTop m l ++ rest).length = emLen m) : os2ip (maskTop m l ++ rest) < 2 ^ (m - 1) := by
  obtain ⟨first, others, -, htop⟩ := exists_maskTop_eq_cons (m := m) hl
  rw [htop, List.cons_append] at h ⊢
  rw [os2ip_cons]
  generalize others ++ rest = tail at h ⊢
  obtain ⟨hcleared, hbits⟩ := clearedBits_add m
  rw [List.length_cons] at h
  calc (first &&& topMask m).toNat * 256 ^ tail.length + os2ip tail
      < ((first &&& topMask m).toNat + 1) * 256 ^ tail.length := by
        rw [Nat.succ_mul]
        exact Nat.add_lt_add_left (os2ip_lt tail) _
    _ ≤ 2 ^ (8 - clearedBits m) * 256 ^ tail.length := Nat.mul_le_mul_right _ (and_topMask_lt m first)
    _ = 2 ^ (m - 1) := by
        rw [show (256 : Nat) = 2 ^ 8 from rfl, ← pow_mul, ← pow_add]
        congr 1
        omega

theorem lt_of_bitlen_eq {x m n : Nat} (hm : m ≠ 0) (hx : x < 2 ^ (m - 1)) (hn : bitlen n = m) : x < n := by
  subst hn
  exact hx.trans_le (two_pow_le_of_bitlen fun h0 => hm (by simp [h0, bitlen]))

theorem os2ip_pssEncode_lt {hash : List Byte → List Byte} {hLen m : Nat} {mHash salt em : List Byte}
    (hlimit : dbLen m hLen ≤ 2 ^ 32 * hLen) (hL : 1 ≤ hLen) (hh : ∀ x, (hash x).length = hLen)
    (hlen : hLen + salt.length + 2 ≤ emLen m) (h : pssEncode hash hLen m mHash salt = some em) :
    os2ip em < 2 ^ (m - 1) := by
  have hlength := pssEncode_length hL hh hlen h
  have hmasked := pssMaskedDB_length (mHash := mHash) hlimit hL hh hlen
  obtain rfl := eq_parts_of_pssEncode hlimit h
  rw [pssMaskedDB, maskTop_length] at hmasked
  rw [List.append_assoc] at hlength ⊢
  exact os2ip_maskTop_append_lt (by rw [hmasked, dbLen]; omega) hlength

/-- Settles O54: topmask leaves EM modBits − 1 bits, and a modulus of modBits bits has one more. -/
theorem pssencRepresentativeBound : Obligations.PssencRepresentativeBound := by
  intro d a s t hl hwf h hbusy hidle hok
  obtain ⟨hchecks, salt, hsalt, hencode⟩ := exec_pssenc_written hl hwf h hbusy hidle hok
  obtain ⟨hbits, hmax, -, hem⟩ := State.pssencError_eq_none.mp hchecks
  have hlimit := dbLen_le hl hmax
  have hbound := os2ip_pssEncode_lt hlimit (one_le_hlen hl) (hashOf_length hl) (hsalt.symm ▸ hem) hencode
  refine ⟨hbound, fun n hn => lt_of_bitlen_eq (Nat.ne_zero_of_lt hbits) hbound hn, ?_⟩
  rw [eq_parts_of_pssEncode hlimit hencode, List.getLast?_concat]

/-! ### The decoder undoes the encoder (R387) -/

/-- A mask at least as long as the string, applied twice, is gone. -/
theorem xorBytes_xorBytes_cancel {l mask : List Byte} (h : l.length ≤ mask.length) :
    xorBytes (xorBytes l mask) mask = l := by
  refine List.ext_getElem (by simp [h]) fun k _ hk => ?_
  simp [xorBytes]

theorem topBitsClear_maskTop (m : Nat) (l : List Byte) : topBitsClear m (maskTop m l) = true := by
  cases l with
  | nil => rfl
  | cons b bs => simp [maskTop, topBitsClear, BitVec.and_assoc]

/-- Bits cleared before a mask are cleared after it as well, so clearing them once more is enough (90_conflicts.md C3). -/
theorem maskTop_xorBytes_maskTop (m : Nat) (l mask : List Byte) :
    maskTop m (xorBytes (maskTop m l) mask) = maskTop m (xorBytes l mask) := by
  cases l with
  | nil => rfl
  | cons b bs =>
    cases mask with
    | nil => rfl
    | cons c cs =>
      have hbyte : (b &&& topMask m ^^^ c) &&& topMask m = (b ^^^ c) &&& topMask m := by
        ext k
        simp only [BitVec.getElem_and, BitVec.getElem_xor, Bool.and_xor_distrib_right, Bool.and_assoc, Bool.and_self]
      simp only [maskTop, xorBytes, List.zipWith_cons_cons, hbyte]

theorem one_and_topMask (m : Nat) : 0x01#8 &&& topMask m = 0x01#8 := by
  obtain ⟨hcleared, -⟩ := clearedBits_add m
  rw [topMask]
  generalize clearedBits m = c at hcleared
  interval_cases c <;> rfl

/-- DB begins with a zero byte or the 0x01, which topmask leaves as they are. -/
theorem maskTop_pssPlainDB (hLen m : Nat) (salt : List Byte) :
    maskTop m (pssPlainDB hLen m salt) = pssPlainDB hLen m salt := by
  rw [pssPlainDB]
  cases psLen m hLen salt.length with
  | zero => simp [zeros, maskTop, one_and_topMask]
  | succ n => simp [zeros, List.replicate_succ, maskTop]

theorem pssCheck_of_pssEncode {hash : List Byte → List Byte} {hLen m : Nat} {mHash salt em : List Byte}
    (hlimit : dbLen m hLen ≤ 2 ^ 32 * hLen) (hL : 1 ≤ hLen) (hh : ∀ x, (hash x).length = hLen)
    (hlen : hLen + salt.length + 2 ≤ emLen m) (h : pssEncode hash hLen m mHash salt = some em) :
    pssCheck hash hLen m salt.length mHash em = some true := by
  refine (pssCheck_iff (pssEncode_length hL hh hlen h) hlen hL hh hlimit).mpr
    ⟨pssMaskedDB hash hLen m mHash salt, saltedHash hash mHash salt, salt, pssMaskedDB_length hlimit hL hh hlen, hh _,
      rfl, eq_parts_of_pssEncode hlimit h, topBitsClear_maskTop .., ?_, rfl⟩
  rw [pssMaskedDB, maskTop_xorBytes_maskTop, xorBytes_xorBytes_cancel, maskTop_pssPlainDB, pssPlainDB]
  rw [pssPlainDB_length hlen, mgf1Mask_length hL hh hlimit]

/-- Settles O56: the decoder accepts what the encoder made, so no check fails before the HASH calls. -/
theorem pssRoundTrip : Obligations.PssRoundTrip := by
  intro d a a' b' s t u hl hwf h hbusy hidle hok hw hparams hbits hsaltLen hmHash hem
  obtain ⟨hchecks, salt, hsalt, hencode⟩ := exec_pssenc_written hl hwf h hbusy hidle hok
  obtain ⟨hpos, hmax, hdigest, hlen⟩ := State.pssencError_eq_none.mp hchecks
  have hlimit := dbLen_le hl hmax
  rw [← hsalt] at hlen
  have hlength := pssEncode_length (one_le_hlen hl) (hashOf_length hl) hlen hencode
  have hvalid := pssCheck_of_pssEncode hlimit (one_le_hlen hl) (hashOf_length hl) hlen hencode
  rw [← hem, ← hmHash, ← hparams, ← hbits, hsalt, ← hsaltLen] at hvalid
  rw [← hparams, ← hbits] at hlimit hmax
  rw [← hbits] at hpos
  have hagree : u.PssLengthsAgree a' b' := by
    rw [State.PssLengthsAgree, ← State.opBuf_length u a', ← State.opBuf_length u b', hmHash, hem, State.opBuf_length,
      hparams, hbits, hsaltLen, ← hsalt]
    exact ⟨hdigest, hlength, hlen⟩
  refine ⟨fun hserves => ?_, fun hsilent => exec_pssver_wait hw hpos hmax hagree hsilent fun ⟨_, hfails⟩ => ?_⟩
  · exact ⟨_, exec_pssver_answer hw hpos hmax hagree (.inl hserves) hvalid, u.completed_committed u.rng (.answer true)⟩
  · exact absurd (hvalid.symm.trans (pssCheck_of_firstChecks hlimit hfails)) (by decide)

end Sys2Proof.Machine
end

section
/-! # The control family: what NOP and ZEROIZE leave in every register (47_control.md) -/

namespace Sys2Proof.Machine

/-! ### The registers after ZEROIZE (R421) -/

theorem RegFile.getV_zeroize (p : Params) (r : RegFile) (i : Field) : (r.zeroize p).getV i = 0 := by
  rw [RegFile.getV, RegFile.zeroize_v, Vector.getElem?_replicate]
  split <;> rfl

theorem RegFile.getLen_zeroize (p : Params) (r : RegFile) (j : Field) : (r.zeroize p).getLen j = 0 := by
  rw [RegFile.getLen, RegFile.zeroize_blen, Vector.getElem?_replicate]
  split <;> rfl

theorem RegFile.getByte_zeroize (p : Params) (r : RegFile) {j : Field} {k : Nat} (hj : j.toNat < 4)
    (hk : k < p.bufBytes) : (r.zeroize p).getByte j k = 0#8 :=
  Memory.read_clearBuffers_inside r.mem hj hk

theorem RegFile.read_zeroize_outside (p : Params) (r : RegFile) {a : Nat}
    (h : ∀ j, j < 4 → a < bufOffset j ∨ bufOffset j + p.bufBytes ≤ a) :
    Memory.read (r.zeroize p).mem a = Memory.read r.mem a :=
  Memory.read_clearBuffers_outside r.mem h

/-! ### How the two commands end -/

theorem exec_nop (s : State) : exec .nop s = .next (s.committed .nothing) := rfl

theorem exec_zeroize (s : State) : exec .zeroize s = .next (s.committed .zeroize) := rfl

/-- Settles O34: both commands complete in every state, NOP with no output, ZEROIZE with the cleared registers. -/
theorem controlCommandResults : Obligations.ControlCommandResults := by
  refine ⟨fun s => ?nop, fun s => ?zeroize⟩
  case nop => exact ⟨_, exec_nop s, s.completed_committed s.rng .nothing, rfl, rfl⟩
  case zeroize =>
    refine ⟨_, exec_zeroize s, s.completed_committed s.rng .zeroize, rfl, ?_⟩
    exact ⟨RegFile.getV_zeroize _ _, RegFile.getLen_zeroize _ _, fun _ _ => RegFile.getByte_zeroize _ _,
      fun _ => RegFile.read_zeroize_outside _ _, RegFile.sameParams_commit _ _ .zeroize⟩

end Sys2Proof.Machine
end

section
/-! # The exceptions and reset family: canonical memory, what a reset and an abort leave, and which steps clear a
pending interrupt bit (60_exceptions.md, 70_reset_and_hazards.md) -/

namespace Sys2Proof.Machine

/-! ### Canonical memory (log entry 6) -/

theorem Memory.read_cons_same (c : Host.Cell) (m : Memory) : Memory.read (c :: m) c.1 = c.2 := if_pos rfl

theorem Memory.read_cons_other (c : Host.Cell) (m : Memory) {a : Nat} (h : a ≠ c.1) :
    Memory.read (c :: m) a = Memory.read m a := if_neg h

theorem Memory.lt_of_mem_tail {c d : Host.Cell} {m : Memory} (h : Memory.wf (c :: m)) (hd : d ∈ m) : c.1 < d.1 :=
  (List.pairwise_cons.1 h.1).1 d hd

theorem Memory.read_head_ne_zero {c : Host.Cell} {m : Memory} (h : Memory.wf (c :: m)) :
    Memory.read (c :: m) c.1 ≠ 0#8 := by
  rw [Memory.read_cons_same]
  exact h.2 c (by simp)

/-- The first listed address is the least one that does not read 0. -/
theorem Memory.head_le_of_read_ne_zero {c : Host.Cell} {m : Memory} (h : Memory.wf (c :: m)) {a : Nat}
    (ha : Memory.read (c :: m) a ≠ 0#8) : c.1 ≤ a := by
  by_contra hlt
  refine ha (Memory.read_of_lt fun d hd => ?_)
  rcases List.mem_cons.1 hd with rfl | hd
  · omega
  · have := Memory.lt_of_mem_tail h hd
    omega

/-- Equal reads give one first cell, which both tails read as 0. -/
theorem Memory.eq_of_read_eq {m m' : Memory} (hm : m.wf) (hm' : m'.wf) (h : ∀ a, m.read a = m'.read a) : m = m' := by
  induction m generalizing m' with
  | nil =>
    cases m' with
    | nil => rfl
    | cons c' m' => exact absurd (h c'.1).symm (Memory.read_head_ne_zero hm')
  | cons c m ih =>
    cases m' with
    | nil => exact absurd (h c.1) (Memory.read_head_ne_zero hm)
    | cons c' m' =>
      have haddr : c.1 = c'.1 := le_antisymm
        (Memory.head_le_of_read_ne_zero hm (h c'.1 ▸ Memory.read_head_ne_zero hm'))
        (Memory.head_le_of_read_ne_zero hm' (h c.1 ▸ Memory.read_head_ne_zero hm))
      have hbyte : c.2 = c'.2 := by
        rw [← Memory.read_cons_same c m, h, haddr, Memory.read_cons_same]
      obtain rfl : c = c' := Prod.ext haddr hbyte
      have htail (a : Nat) : Memory.read m a = Memory.read m' a := by
        by_cases ha : a = c.1
        · rw [ha, Memory.read_of_lt fun _ => Memory.lt_of_mem_tail hm,
            Memory.read_of_lt fun _ => Memory.lt_of_mem_tail hm']
        · rw [← Memory.read_cons_other c m ha, h, Memory.read_cons_other c m' ha]
      rw [ih (Memory.wf_tail hm) (Memory.wf_tail hm') htail]

/-- Settles O60, cell by cell. -/
theorem canonicalMemoriesEqual : Obligations.CanonicalMemoriesEqual := fun _ _ => Memory.eq_of_read_eq

/-! ### What both resets clear (R481, R482) -/

theorem Aborted.agenda {s t : State} (h : Aborted s t) : t.agenda = s.agenda := by
  cases h <;> rfl

/-- No abort loses a parameter register (R482, R484). -/
theorem Aborted.sameParams {s t : State} (h : Aborted s t) : s.regs.SameParams t.regs := by
  cases h <;> exact ⟨rfl, rfl, rfl, rfl, rfl⟩

theorem State.abort_of_idle {s : State} (h : s.busy = false) : s.abort = s := by
  have hs : s.inflight = none := by simpa [State.busy] using h
  simp only [State.abort, hs]

theorem clearControl_status (s : State) : s.clearControl.readLoc .status = 0#32 := by
  have h : s.clearControl.readLoc .status = State.reset.clearControl.readLoc .status := rfl
  rw [h]
  decide

theorem clearControl_ctrl (s : State) : s.clearControl.readLoc .ctrl = 0#32 := ctrlWord_eq s.clearControl

theorem clearControl_irqStatus (s : State) : s.clearControl.readLoc .irqStatus = 0#32 := irqStatusWord_eq s.clearControl

theorem RegFile.getLen_resetWith (p : Params) (v : Vector Nat 8) (m : Memory) (j : Field) :
    (RegFile.resetWith p v m).getLen j = 0 :=
  RegFile.getLen_zeroize p (RegFile.resetWith p v m) j

/-- Settles O9: whatever the abort loses, the control state is cleared and the registers are those of `resetWith`. -/
theorem hardwareResetValues : Obligations.HardwareResetValues := by
  intro s rest ha
  let lost := (s.withAgenda rest).abort
  have haborted : Aborted (s.withAgenda rest) lost := abort_cases _
  have hparams : lost.params = s.params := haborted.params
  refine ⟨_, step_of_agenda ha, haborted.agenda, hparams, rfl, clearControl_status lost, clearControl_ctrl lost, rfl,
    clearControl_irqStatus lost, rfl, rfl, ?_, rfl, rfl, rfl, RegFile.getLen_resetWith _ _ _, rfl⟩
  exact congrArg (fun p : Params => BitVec.ofNat 16 p.hlen) hparams

/-- Settles O27: the write is `softReset`, an abort followed by `clearControl`, and leaves an idle engine. -/
theorem softResetEffect : Obligations.SoftResetEffect := by
  intro s w hw
  obtain ⟨hctrl, -⟩ := ctrlWrite
  obtain ⟨hwrite, -⟩ := (hctrl s w).1 hw
  have haborted := abort_cases s
  let t := s.softReset.respond false 0#32
  have hparams : t.params = s.params := haborted.params
  refine ⟨t, hwrite, rfl, rfl, clearControl_ctrl s.abort, clearControl_status s.abort, rfl,
    clearControl_irqStatus s.abort, rfl, rfl, haborted.sameParams, fun hidle => ?_, fun w' => ?_⟩
  · have hkept := State.abort_of_idle hidle
    exact ⟨show s.abort.regs = s.regs by rw [hkept], show s.abort.rng = s.rng by rw [hkept]⟩
  · rw [← hparams]
    exact ⟨_, busAccess_cmd_idle (s := t) rfl w', rfl, rfl⟩

end Sys2Proof.Machine
end

section
/-! ## The destination of an aborted command (70_reset_and_hazards.md R483, R484) -/

namespace Sys2Proof.Machine

theorem RegFile.getLen_setLen_other (r : RegFile) {i j : Field} (h : j ≠ i) (n : BitVec 16) :
    (r.setLen j n).getLen i = r.getLen i := by
  have hne : j.toNat ≠ i.toNat := fun e => h (BitVec.eq_of_toNat_eq e)
  simp [RegFile.getLen, Vector.getElem?_setIfInBounds_ne hne]

section
variable {s : State} {snap : Snapshot} (hs : s.inflight = some snap)
include hs

theorem State.softReset_regs_of_error {c : ErrCode} (hd : decode snap.word = .error c) :
    s.softReset.regs = s.regs := by
  simp only [State.softReset, State.abort, hs, hd, State.clearControl_regs]

section
variable {i : Instr} (hd : decode snap.word = .ok i)
include hd

theorem State.softReset_regs_of_setV {d : Field} {x : Nat} (hf : (Effect.setV d x).fits i) :
    s.softReset.regs = s.regs.setV d (freeV s.params s.draws d.toNat) := by
  cases i with
  | montmul d' _ _ _ | montr2 d' _ | modexp d' _ _ _ | os2ip d' _ =>
    obtain rfl : d = d' := hf
    simp only [State.softReset, State.abort, hs, hd, State.clearControl_regs, State.scrambleV_regs]
  | _ => exact hf.elim

/-- PSSENC may lose RNG bytes first, which takes one free value more. -/
theorem State.softReset_regs_of_setB {d : Field} {b : List Byte} (hf : (Effect.setB d b).fits i) :
    ∃ draw, s.softReset.regs =
      (s.regs.setBuf d (freeBuf s.params draw d.toNat)).setLen d (Config.freeLength draw) := by
  cases i with
  | i2osp d' _ | mgf1 d' _ =>
    obtain rfl : d = d' := hf
    refine ⟨s.draws, ?_⟩
    simp only [State.softReset, State.abort, hs, hd, State.clearControl_regs, State.scrambleB_regs]
  | pssenc d' _ =>
    obtain rfl : d = d' := hf
    refine ⟨s.draws + 1, ?_⟩
    simp only [State.softReset, State.abort, hs, hd, State.clearControl_regs, State.scrambleB_regs,
      State.dropTaken_regs, State.dropTaken_params, State.dropTaken_draws]
  | _ => exact hf.elim

theorem State.softReset_regs_of_answer {r : Bool} (hf : (Effect.answer r).fits i) : s.softReset.regs = s.regs := by
  cases i with
  | mrtest _ | pssver _ _ =>
    simp only [State.softReset, State.abort, hs, hd, State.clearControl_regs, State.dropTaken_regs]
  | _ => exact hf.elim

theorem State.softReset_regs_of_nothing (hf : Effect.nothing.fits i) : s.softReset.regs = s.regs := by
  cases i with
  | nop => simp only [State.softReset, State.abort, hs, hd, State.clearControl_regs]
  | _ => exact hf.elim

/-- The integer destination is unspecified, and nothing else changes. -/
theorem State.softReset_integerDestination {d : Field} {x : Nat} (hf : (Effect.setV d x).fits i) :
    s.softReset.regs = { s.regs with v := s.softReset.regs.v } ∧
      (∀ j, j ≠ d → s.softReset.regs.getV j = s.regs.getV j) ∧
      s.softReset.regs.getV d < 2 ^ s.params.maxbits := by
  have hd8 : d.toNat < 8 := Effect.fits_isV hf (wf_of_decode_ok hd)
  rw [State.softReset_regs_of_setV hs hd hf]
  refine ⟨rfl, fun j hj => RegFile.getV_setV_other _ hj.symm _, ?_⟩
  rw [RegFile.getV_setV_same _ hd8]
  exact freeV_lt ..

/-- The destination buffer and its length are unspecified, and nothing else changes. -/
theorem State.softReset_bufferDestination {d : Field} {b : List Byte} (hf : (Effect.setB d b).fits i) :
    s.softReset.regs = { s.regs with mem := s.softReset.regs.mem, blen := s.softReset.regs.blen } ∧
      (∀ j, j ≠ d → s.softReset.regs.getLen j = s.regs.getLen j) ∧
      ∀ a, (a < bufOffset d.toNat ∨ bufOffset d.toNat + s.params.bufBytes ≤ a) →
        Memory.read s.softReset.regs.mem a = Memory.read s.regs.mem a := by
  obtain ⟨draw, hregs⟩ := State.softReset_regs_of_setB hs hd hf
  rw [hregs]
  refine ⟨rfl, fun j hj => ?_, fun a ha => ?_⟩
  · rw [RegFile.getLen_setLen_other _ hj.symm, RegFile.getLen_setBuf_other _ hj.symm]
  · exact Memory.read_writeBytes_outside _ _ (by rwa [freeBuf_length])

end
end

/-- Settles O28: by the kind of destination that the decoded command has. -/
theorem abortScramblesOnlyDestination : Obligations.AbortScramblesOnlyDestination := by
  intro s snap hs
  refine ⟨fun d hd => ?_, fun d hd => ?_, fun hd => ?_, rfl, rfl, rfl⟩
  · rcases hd with ⟨_, _, _, hd⟩ | ⟨_, hd⟩ | ⟨_, _, _, hd⟩ | ⟨_, hd⟩ <;>
      exact State.softReset_integerDestination hs hd (x := 0) rfl
  · rcases hd with ⟨_, hd⟩ | ⟨_, hd⟩ | ⟨_, hd⟩ <;>
      exact State.softReset_bufferDestination hs hd (b := []) rfl
  · rcases hd with ⟨_, hd⟩ | ⟨_, _, hd⟩ | hd | ⟨_, hd⟩
    · exact State.softReset_regs_of_answer hs hd (r := true) trivial
    · exact State.softReset_regs_of_answer hs hd (r := true) trivial
    · exact State.softReset_regs_of_nothing hs hd trivial
    · exact State.softReset_regs_of_error hs hd

/-! ### An aborted ZEROIZE (R484) -/

/-- The next limb lies above those kept so far. -/
theorem keepLimbs_succ (keep : Nat → Bool) (x k : Nat) :
    keepLimbs keep x (k + 1) = setLimb (keepLimbs keep x k) k (if keep k then limb x k else 0#32) := by
  have hlt : keepLimbs keep x k < 2 ^ (32 * k) :=
    (keepLimbs_le keep x k).trans_lt (Nat.mod_lt _ (by positivity))
  rw [setLimb_eq, Nat.div_eq_of_lt hlt, Nat.mod_eq_of_lt hlt, keepLimbs, Nat.add_comm]
  split <;> simp

theorem limb_keepLimbs (keep : Nat → Bool) (x k j : Nat) :
    limb (keepLimbs keep x k) j = if j < k ∧ keep j = true then limb x j else 0#32 := by
  induction k with
  | zero => simp [keepLimbs, limb]
  | succ k ih =>
    rw [keepLimbs_succ]
    by_cases hj : j = k
    · subst hj
      simp [limb_setLimb_same]
    · have hlt : j < k + 1 ↔ j < k := by omega
      simp only [limb_setLimb_other _ _ _ _ hj, ih, hlt]

section
variable (p : Params) (r accepted : RegFile) (keep : Nat → Bool)

theorem RegFile.limb_partZeroize (i : Field) (j : Nat) :
    limb ((r.partZeroize p accepted keep).getV i) j = limb (accepted.getV i) j ∨
      limb ((r.partZeroize p accepted keep).getV i) j = 0#32 := by
  by_cases hi : i.toNat < 8
  · simp only [RegFile.partZeroize, RegFile.getV, Vector.getElem?_eq_getElem hi, Vector.getElem_ofFn,
      Option.getD_some, limb_keepLimbs]
    split
    · exact .inl rfl
    · exact .inr rfl
  · left
    simp [RegFile.partZeroize, RegFile.getV, hi]

theorem RegFile.getLen_partZeroize (j : Field) :
    (r.partZeroize p accepted keep).getLen j = accepted.getLen j ∨ (r.partZeroize p accepted keep).getLen j = 0 := by
  by_cases hj : j.toNat < 4
  · simp only [RegFile.partZeroize, RegFile.getLen, Vector.getElem?_eq_getElem hj, Vector.getElem_ofFn,
      Option.getD_some]
    split
    · exact .inl rfl
    · exact .inr rfl
  · left
    simp [RegFile.partZeroize, RegFile.getLen, hj]

end

theorem read_keepWords (keep : Nat → Bool) (m : Memory) {a k : Nat} (ha : a % 4 = 0) (hk : k < 4) :
    Memory.read (keepWords keep m) (a + k) = if keep a then Memory.read m (a + k) else 0#8 := by
  have hword : a + k - (a + k) % 4 = a := by omega
  rw [keepWords, Memory.read_filter m fun x => keep (x - x % 4)]
  simp only [hword]

/-- One choice decides the four bytes of a word. -/
theorem read_keepWords_word (keep : Nat → Bool) (m : Memory) {a : Nat} (ha : a % 4 = 0) :
    (∀ k, k < 4 → Memory.read (keepWords keep m) (a + k) = Memory.read m (a + k)) ∨
      ∀ k, k < 4 → Memory.read (keepWords keep m) (a + k) = 0#8 := by
  by_cases hkeep : keep a = true
  · exact .inl fun k hk => by rw [read_keepWords keep m ha hk, if_pos hkeep]
  · exact .inr fun k hk => by rw [read_keepWords keep m ha hk, if_neg hkeep]

theorem State.softReset_regs_of_zeroize {s : State} {snap : Snapshot} (hs : s.inflight = some snap)
    (hd : decode snap.word = .ok .zeroize) :
    s.softReset.regs = s.regs.partZeroize s.params snap.regs (Config.freeKeep s.draws) := by
  simp only [State.softReset, State.abort, hs, hd, State.clearControl_regs, State.scrambleZeroize_regs,
    State.inputs_of_inflight hs]

/-- Settles O29: the abort is `partZeroize` of the snapshot's registers. -/
theorem abortedZeroizeKeepsOrClears : Obligations.AbortedZeroizeKeepsOrClears := by
  intro s snap hs hd
  rw [State.softReset_regs_of_zeroize hs hd]
  exact ⟨RegFile.limb_partZeroize _ _ _ _, fun _ => read_keepWords_word _ _, RegFile.getLen_partZeroize _ _ _ _,
    ⟨rfl, rfl, rfl, rfl, rfl⟩⟩

end Sys2Proof.Machine
end

section
/-! ## Which steps clear a pending interrupt bit (60_exceptions.md R449) -/

namespace Sys2Proof.Machine

/-- Neither pending bit of `s` is cleared in `t`. -/
def State.KeepsPending (s t : State) : Prop :=
  (s.doneP = true → t.doneP = true) ∧ (s.ovrP = true → t.ovrP = true)

theorem State.KeepsPending.refl (s : State) : s.KeepsPending s := ⟨id, id⟩

theorem State.KeepsPending.not_cleared {s t : State} (h : s.KeepsPending t) :
    ¬(s.doneP = true ∧ t.doneP = false ∨ s.ovrP = true ∧ t.ovrP = false) := by
  obtain ⟨hdone, hovr⟩ := h
  rintro (⟨hs, ht⟩ | ⟨hs, ht⟩)
  · exact absurd (hdone hs) (by simp [ht])
  · exact absurd (hovr hs) (by simp [ht])

/-- A completion sets DONE_P and leaves OVR_P (40_command_execution.md R238). -/
theorem engineStep_keepsPending {s t : State} (h : engineStep s = .next t) : s.KeepsPending t := by
  rcases engineStep_cases h with rfl | ⟨_, _, hc, -⟩
  · exact .refl _
  · exact ⟨fun _ => hc.doneP, fun hs => hc.same.ovrP.trans hs⟩

/-- A host write clears a pending bit as a soft reset or at IRQ_STATUS, or not at all. -/
theorem writeLoc_pending (s : State) (w : Word) (l : Loc) :
    (l = .ctrl ∧ w.getLsbD 1 = true) ∨ l = .irqStatus ∨ s.KeepsPending (s.writeLoc w l) := by
  cases l with
  | irqStatus => exact .inr (.inl rfl)
  | ctrl =>
    by_cases hw : w.getLsbD 1 = true
    · exact .inl ⟨rfl, hw⟩
    · have hwrite : s.writeLoc w .ctrl = { s with ie := w.getLsbD 0 } := if_neg hw
      rw [hwrite]
      exact .inr (.inr (.refl s))
  | cmd =>
    simp only [State.writeLoc, State.writeCmd]
    split
    · exact .inr (.inr ⟨id, fun _ => rfl⟩)
    · exact .inr (.inr (.refl s))
  | _ => exact .inr (.inr (.refl s))

/-- A write of IRQ_STATUS clears only the bits written as 1 (10_state.md R74). -/
theorem writeIrqStatus_cleared (s : State) (w : Word) :
    (s.doneP = true ∧ (s.writeIrqStatus w).doneP = false → w.getLsbD 0 = true) ∧
      (s.ovrP = true ∧ (s.writeIrqStatus w).ovrP = false → w.getLsbD 1 = true) := by
  constructor
  · rintro ⟨hs, ht⟩
    simpa [State.writeIrqStatus, hs] using ht
  · rintro ⟨hs, ht⟩
    simpa [State.writeIrqStatus, hs] using ht

/-- Settles O13: every other kind of step keeps both bits. -/
theorem pendingBitsClearedOnlyByHost : Obligations.PendingBitsClearedOnlyByHost := by
  intro s t hst hcleared
  have kept {P : Prop} (h : s.KeepsPending t) : P := absurd hcleared h.not_cleared
  cases step_cases hst with
  | engine r hr he =>
    rcases hr with ⟨-, rfl⟩ | ⟨rest, -, rfl⟩
    · exact kept (engineStep_keepsPending he)
    · exact kept (engineStep_keepsPending (s := s.withAgenda rest) he)
  | bus a rest ha hrange hv =>
    obtain ⟨hlo, -⟩ := hrange
    cases hv with
    | slverr => exact kept (.refl s)
    | read _ _ => exact kept (.refl s)
    | write w hw hleg _ =>
      simp only [State.withAgenda_params] at hlo hleg ⊢
      refine .inr ⟨a, w, rest, ha, hleg, hw, ?_⟩
      rcases writeLoc_pending (s.withAgenda rest) w (locOf (a.addr - s.params.baseAddr)) with ⟨hl, hsrst⟩ | hl | hk
      · have hoff := locOf_eq_ctrl hl
        exact .inl ⟨by omega, hsrst⟩
      · have hoff := locOf_eq_irqStatus hl
        rw [hl]
        exact .inr ⟨by omega, writeIrqStatus_cleared s w⟩
      · exact kept hk
  | rng b rest _ => exact kept (.refl s)
  | hash serves rest _ => exact kept (.refl s)
  | hardReset rest ha => exact .inl ⟨rest, ha⟩

end Sys2Proof.Machine
end
